-- ==== Sys2Proof/Word.lean ====
section
/-! DEFINITION. The widths of BQCORE: bytes, 16-bit words (CSW, keys, counters), 32-bit registers and command
words, 64-bit operands and results (00_scope.md R9, 10_state.md R21). -/
namespace Sys2Proof

/-- One byte of the block buffer or of a transport request (10_state.md R37, R40). -/
abbrev Byte := BitVec 8

/-- A ControlStatusWord, an unseal key, a subcommand code, a poll count (00_scope.md R9). -/
abbrev Half := BitVec 16

/-- A host register, a command word, a Xemics word (10_state.md R21, 30_encoding.md R70, R77). -/
abbrev Word := BitVec 32

/-- A binary64 bit pattern (30_encoding.md R78). -/
abbrev DWord := BitVec 64

/-- A byte offset of the host register space, 0x00 to 0x7F (20_memory.md R50). -/
abbrev Offset := BitVec 7

end Sys2Proof
end

