-- ==== Sys2Proof/Config.lean ====
section
/-! DEFINITION. The parameters of 00_scope.md R9. Every value but one is fixed by the spec; `keysReset` is the OPEN
parameter `P_KEYS_RESET`, a constant with no body. -/
namespace Sys2Proof.Config

/-- `P_BLOCK_BYTES`: the size of the block buffer. -/
def blockBytes : Nat := 32

/-- `P_DEV_ADDR`: the 7-bit bus address of the fuel gauge. UNVERIFIED literal (U1, log 16). -/
def devAddr : BitVec 7 := 0x55#7

/-- `P_POLL_WAIT_MS`: the "wait 1 s" of every polling loop. UNVERIFIED literal (U1, log 16). -/
def pollWaitMs : Nat := 1000

/-- `P_SETTLE_MS`: the settle interval. UNVERIFIED literal (U1, log 16). -/
def settleMs : Nat := 150

/-- The values of `P_XENC_EXP_RULE` (41_xemics.md R110). Only `doc` is normative. -/
inductive XencExpRule where
  | doc
  | floorPlusOne
deriving DecidableEq, Repr

/-- `P_XENC_EXP_RULE`, which the spec fixes to `DOC` (41_xemics.md R110, D15, log 15). -/
def xencExpRule : XencExpRule := .doc

/-- `P_KEYS_RESET`: the reset value of KEYS and `lat_keys` (10_state.md R35, D10, U20). The spec leaves it OPEN, so
nothing is known of it here. DESIGN CHOICE, safe: a constant without a body (log 3). -/
opaque keysReset : Word

end Sys2Proof.Config
end

