-- ==== Sys2Proof/Syntax.lean ====
section
/-! DEFINITION. The commands of BQCORE-CMD version 1 (30_encoding.md R71), and the accesses of the Host with their
assembly lines (10_state.md R39, 30_encoding.md R82, R83). -/
namespace Sys2Proof

/-- The nine commands, one constructor per row of spec/opcode_table.json. No command has an operand field
(30_encoding.md R75). -/
inductive Instr where
  /-- CSUM_GEN, word 0x00000001 (40_checksum.md R96). -/
  | csumGen
  /-- CSUM_CHECK, word 0x00000002 (40_checksum.md R97). -/
  | csumCheck
  /-- XDEC, word 0x00000003 (41_xemics.md R106). -/
  | xdec
  /-- XENC, word 0x00000004 (41_xemics.md R108). -/
  | xenc
  /-- CAL_ENTER, word 0x00000008 (42_calseq.md R141). -/
  | calEnter
  /-- CAL_EXIT, word 0x00000009 (42_calseq.md R145). -/
  | calExit
  /-- CAL_CC_OFFSET, word 0x0000000A (42_calseq.md R149). -/
  | calCcOffset
  /-- CAL_BOARD_OFFSET, word 0x0000000B (42_calseq.md R153). -/
  | calBoardOffset
  /-- ABORT, exactly the word 0x0000000F (42_calseq.md R160). -/
  | abort
deriving DecidableEq, Repr

/-- One access on the host register port (10_state.md R39). The width `n` is any number, so that "any other width"
(20_memory.md R52) can be tried and answered. A 1-byte write uses the low byte of `v`. -/
inductive HostAccess where
  | read (off : Offset) (n : Nat)
  | write (off : Offset) (n : Nat) (v : Word)
deriving DecidableEq, Repr

/-- One line of a Host program (30_encoding.md R82). -/
inductive HostLine where
  | sw (off : Offset) (imm : Word)
  | sb (off : Offset) (imm : Byte)
  | lw (off : Offset)
  | lb (off : Offset)
deriving DecidableEq, Repr

/-- One item of a Host program: a line, done once, or a line repeated until bit 0 of the word it reads is 0, which is
the loop of `wait` (30_encoding.md R83). -/
inductive HostStep where
  | line (l : HostLine)
  | repeatUntilIdle (l : HostLine)
deriving DecidableEq, Repr

/-- The kind of a line's encoding (30_encoding.md R82). -/
inductive LineKind where
  | w4
  | w1
  | r4
  | r1
deriving DecidableEq, Repr

/-- A line's encoding, the triple `(kind, OFF, value)`; a read has no value (30_encoding.md R82). -/
structure LineCode where
  kind : LineKind
  off : Offset
  value : Option Word
deriving DecidableEq, Repr

/-- The pseudo-instructions of a Host program (30_encoding.md R83). -/
inductive Pseudo where
  | csumGen
  | csumChk
  | xdec
  | xenc
  | calEnter
  | calExit
  | calCcoff
  | calBoardoff
  | abort
  | liOpa64 (d : DWord)
  | liOpa (w : Word)
  | ldBlk (b : Vector Byte 32)
  | wait
  | ack
deriving DecidableEq, Repr

end Sys2Proof
end

