-- ==== Sys2Proof/WellFormed.lean ====
section
/-! DEFINITION. What a well-formed command, access and line code is. Which well-formed accesses are legal is
20_memory.md R52, in Machine/Operands.lean. -/
namespace Sys2Proof

/-- Every command is well-formed: CMD32 gives no command an operand field (30_encoding.md R70, R75). -/
def Instr.wf : Instr → Bool
  | .csumGen => true
  | .csumCheck => true
  | .xdec => true
  | .xenc => true
  | .calEnter => true
  | .calExit => true
  | .calCcOffset => true
  | .calBoardOffset => true
  | .abort => true

/-- An access of the form of 10_state.md R39: the width is 1 or 4, and a 1-byte write carries one byte
(30_encoding.md R82). -/
def HostAccess.wf : HostAccess → Bool
  | .read _ n => n == 1 || n == 4
  | .write _ n v => n == 4 || (n == 1 && v.toNat < 256)

/-- A line code of the form of 30_encoding.md R82: a write has a value, one byte for `W1`; a read has none. -/
def LineCode.wf (c : LineCode) : Bool :=
  match c.kind, c.value with
  | .w4, some _ => true
  | .w1, some v => decide (v.toNat < 256)
  | .r4, none => true
  | .r1, none => true
  | _, _ => false

end Sys2Proof
end

