-- ==== Sys2Proof/Decode.lean ====
section
/-! DEFINITION. The command decoder and encoder (30_encoding.md R70 to R73). -/
namespace Sys2Proof

/-- The OP field of a command word (30_encoding.md R70). -/
def opField (w : Word) : BitVec 4 := w.extractLsb' 0 4

/-- The RSV field of a command word (30_encoding.md R70). -/
def rsvField (w : Word) : BitVec 28 := w.extractLsb' 4 28

/-- Why a word is no command: both cases end as ILLEGAL_CMD when the word is accepted (30_encoding.md R72). -/
inductive DecodeError where
  /-- RSV is not 0. -/
  | rsvNotZero
  /-- OP is one of 0x0, 0x5, 0x6, 0x7, 0xC, 0xD, 0xE. -/
  | reservedOp (op : BitVec 4)
deriving DecidableEq, Repr

/-- The table of 30_encoding.md R71. -/
def decodeOp (op : BitVec 4) : Except DecodeError Instr :=
  match op.toNat with
  | 0x1 => .ok .csumGen
  | 0x2 => .ok .csumCheck
  | 0x3 => .ok .xdec
  | 0x4 => .ok .xenc
  | 0x8 => .ok .calEnter
  | 0x9 => .ok .calExit
  | 0xA => .ok .calCcOffset
  | 0xB => .ok .calBoardOffset
  | 0xF => .ok .abort
  | _ => .error (.reservedOp op)

/-- Decoding, total on every 32-bit word (30_encoding.md R73). -/
def decode (w : Word) : Except DecodeError Instr :=
  if rsvField w = 0 then decodeOp (opField w) else .error .rsvNotZero

/-- The OP value of a command (30_encoding.md R71). -/
def Instr.op : Instr → BitVec 4
  | .csumGen => 0x1
  | .csumCheck => 0x2
  | .xdec => 0x3
  | .xenc => 0x4
  | .calEnter => 0x8
  | .calExit => 0x9
  | .calCcOffset => 0xA
  | .calBoardOffset => 0xB
  | .abort => 0xF

/-- The command word of a command: RSV = 0 above its OP (30_encoding.md R70, R71). -/
def encode (i : Instr) : Word := (0#28 ++ i.op : BitVec 32)

/-- The command word made of the low `nbits` bits of `w`, every bit above them 0. A command word is one 32-bit value of
the host port, so it has no byte order of its own (20_memory.md R53). -/
def tableWord (nbits w : Nat) : Word := BitVec.ofNat 32 (w % 2 ^ nbits)

/-- The instruction the decoder reads from a row of spec/opcode_table.json, none where it refuses. -/
def decodeTableWord (nbits w : Nat) : Option Instr :=
  match decode (tableWord nbits w) with
  | .ok i => some i
  | .error _ => none

end Sys2Proof
end

