-- ==== Sys2Proof/Machine/State.lean ====
section
/-! DEFINITION. The state of BQCORE (10_state.md R20), the turns of the outside world, what the world observes
(00_scope.md R7), the reasons a step can stop, and the state after reset (70_reset_and_hazards.md R191). -/
namespace Sys2Proof.Machine

/-- The sequencer's phases (42_calseq.md R134). Their 8-bit codes are `Phase.code`. No other PHASE value is ever
produced (U16, log 17). -/
inductive Phase where
  | idle
  | unseal1
  | unseal2
  | enCalen
  | enEnter
  | enWait
  | enPoll
  | exExit
  | exWait
  | exPoll
  | exSettle1
  | exReset
  | exSettle2
  | ofCmd
  | ofWait1
  | ofPoll1
  | ofWait2
  | ofPoll2
  | ofSave
deriving DecidableEq, Repr

/-- The sequencer's sub-steps: the requests of one frame, 0 to 2 (42_calseq.md R126). SUB = 3 is never produced (U16). -/
inductive SubStep where
  | s0
  | s1
  | s2
deriving DecidableEq, Repr

/-- The error codes of 60_exceptions.md R165. Codes 7 to 15 are never produced (U15). -/
inductive ErrorCode where
  | none
  | illegalCmd
  | xemicsDomain
  | xemicsRange
  | busError
  | calTimeout
  | aborted
deriving DecidableEq, Repr

/-- The registers of the host register file (10_state.md R21). -/
inductive HostReg where
  | cmd
  | status
  | opaLo
  | opaHi
  | resLo
  | resHi
  | ctrl
  | csw
  | keys
  | loopcnt
  | blk
  | reserved
deriving DecidableEq, Repr

/-- A transport request (10_state.md R40). -/
inductive Request where
  | write (dev : BitVec 7) (bytes : List Byte)
  | read (dev : BitVec 7) (len : Nat)
  | sleep (ms : Nat)
deriving DecidableEq, Repr

/-- A transport response (10_state.md R41). -/
inductive Response where
  | ok
  | okData (b0 b1 : Byte)
  | busError
deriving DecidableEq, Repr

/-- What one phase of the sequencer sends (30_encoding.md R80). -/
inductive Frame where
  | subcommand (code : Half)
  | unsealKey (key : Half)
  | sleep (ms : Nat)
  | statusPoll
deriving DecidableEq, Repr

/-- The answer to one host access (10_state.md R39): data for a legal read, `ok` for a legal write. -/
inductive HostAnswer where
  | data4 (v : Word)
  | data1 (v : Byte)
  | ok
  | accessError
deriving DecidableEq, Repr

/-- Whose move the next step is, with the move's input (00_scope.md R6, 20_memory.md R58). A turn of the Block is its
one enabled step of its own, an issue step or an abort step (42_calseq.md R130). -/
inductive Turn where
  | host (a : HostAccess)
  | block
  | environment (r : Response)
  | assertReset
deriving DecidableEq, Repr

/-- The block buffer as (host offset, byte) pairs. An offset not listed holds the reset value 0x00
(10_state.md R37). -/
abbrev Memory := List Host.Cell

/-- The state of BQCORE (10_state.md R20), and after it three fields of the model's own. -/
structure State where
  /-- STATUS.BUSY (R24) -/
  busy : Bool
  /-- STATUS.DONE (R25) -/
  done : Bool
  /-- STATUS.ERR (R26) -/
  err : Bool
  /-- STATUS.OVR (R27) -/
  ovr : Bool
  /-- STATUS.ERRCODE (R26, 60_exceptions.md R165) -/
  errcode : ErrorCode
  /-- STATUS.PHASE (R30) -/
  phase : Phase
  /-- STATUS.SUB (R30) -/
  sub : SubStep
  /-- STATUS.OP (R28) -/
  op : BitVec 4
  /-- OPA_LO (R31) -/
  opaLo : Word
  /-- OPA_HI (R31) -/
  opaHi : Word
  /-- RES_LO (R32) -/
  resLo : Word
  /-- RES_HI (R32) -/
  resHi : Word
  /-- CTRL.MAXPOLL (R33) -/
  maxpoll : Half
  /-- CTRL.IE (R33) -/
  ie : Bool
  /-- CSW bits 15:0 (R34) -/
  csw : Half
  /-- KEYS (R35) -/
  keys : Word
  /-- `loopcnt`, which LOOPCNT shows (R36, R38) -/
  loopcnt : Half
  /-- BLK, keyed by host offset 0x40 to 0x5F (R37) -/
  blk : Memory
  /-- `lat_maxpoll` (R38) -/
  latMaxpoll : Half
  /-- `lat_keys` (R38) -/
  latKeys : Word
  /-- `req_out`, which STATUS.REQ shows (R29, R38) -/
  reqOut : Bool
  /-- `abort_pending`, which STATUS.ABRTP shows (R29, R38) -/
  abortPending : Bool
  /-- `rsp_val` (R38) -/
  rspVal : Half
  /-- the IRQ output level (R42) -/
  irq : Bool
  /-- the model's own: the turns still to come; when it is empty, every move is the Block's (log 1) -/
  schedule : List Turn
  /-- the model's own: the transport requests issued so far, oldest first (00_scope.md R7, log 4) -/
  requests : List Request
  /-- the model's own: the answers to host accesses so far, oldest first (00_scope.md R7, log 4) -/
  answers : List HostAnswer
deriving DecidableEq, Repr

/-- Why the machine stops with a fault. -/
inductive Fault where
  /-- Raised by a sequencer step at a (PHASE, SUB, OP) for which 42_calseq.md R133 to R135 give no row. Safe: R134 and
  U16 say the block never produces one, and no state with the invariant of Safety.lean raises it (log 6). -/
  | positionNeverProduced
deriving DecidableEq, Repr

/-- Why an instruction has no meaning. -/
inductive Refusal where
  /-- Raised by an arm of `exec` for an instruction the model gives no meaning. Safe. No arm raises it. -/
  | notModelled (mnemonic : String)
deriving DecidableEq, Repr

/-- The state after reset (70_reset_and_hazards.md R190, R191). -/
def State.reset : State where
  busy := false
  done := false
  err := false
  ovr := false
  errcode := .none
  phase := .idle
  sub := .s0
  op := 0
  opaLo := 0
  opaHi := 0
  resLo := 0
  resHi := 0
  maxpoll := 0
  ie := false
  csw := 0
  keys := Config.keysReset
  loopcnt := 0
  blk := []
  latMaxpoll := 0
  latKeys := Config.keysReset
  reqOut := false
  abortPending := false
  rspVal := 0
  irq := false
  schedule := []
  requests := []
  answers := []

end Sys2Proof.Machine
end

