-- ==== Sys2Proof/Machine/Flags.lean ====
section
/-! DEFINITION. Codes and flags: the codes STATUS shows, the STATUS, CTRL, CSW and LOOPCNT words assembled from their
fields, the ControlStatusWord predicates, and the IRQ level. -/
namespace Sys2Proof.Machine

/-- The PHASE codes (42_calseq.md R134). -/
def Phase.code : Phase → Byte
  | .idle => 0x00
  | .unseal1 => 0x01
  | .unseal2 => 0x02
  | .enCalen => 0x10
  | .enEnter => 0x11
  | .enWait => 0x12
  | .enPoll => 0x13
  | .exExit => 0x20
  | .exWait => 0x21
  | .exPoll => 0x22
  | .exSettle1 => 0x23
  | .exReset => 0x24
  | .exSettle2 => 0x25
  | .ofCmd => 0x30
  | .ofWait1 => 0x31
  | .ofPoll1 => 0x32
  | .ofWait2 => 0x33
  | .ofPoll2 => 0x34
  | .ofSave => 0x35

/-- SUB as STATUS shows it (10_state.md R23). -/
def SubStep.code : SubStep → BitVec 2
  | .s0 => 0
  | .s1 => 1
  | .s2 => 2

/-- The ERRCODE values (60_exceptions.md R165). -/
def ErrorCode.code : ErrorCode → BitVec 4
  | .none => 0
  | .illegalCmd => 1
  | .xemicsDomain => 2
  | .xemicsRange => 3
  | .busError => 4
  | .calTimeout => 5
  | .aborted => 6

/-- The 32-bit value of STATUS (10_state.md R23): reserved fields read 0, REQ and ABRTP mirror `req_out` and
`abort_pending` (R29). -/
def statusWord (s : State) : Word :=
  (0#4 ++ s.op ++ 0#4 ++ BitVec.ofBool s.reqOut ++ BitVec.ofBool s.abortPending ++ s.sub.code ++ s.phase.code
    ++ s.errcode.code ++ BitVec.ofBool s.ovr ++ BitVec.ofBool s.err ++ BitVec.ofBool s.done
    ++ BitVec.ofBool s.busy : BitVec 32)

/-- The 32-bit value of CTRL (10_state.md R33). -/
def ctrlWord (s : State) : Word := (0#15 ++ BitVec.ofBool s.ie ++ s.maxpoll : BitVec 32)

/-- The 32-bit value of CSW (10_state.md R34). -/
def cswWord (s : State) : Word := s.csw.setWidth 32

/-- The 32-bit value of LOOPCNT (10_state.md R36). -/
def loopcntWord (s : State) : Word := s.loopcnt.setWidth 32

/-- `CALEN(s)` (30_encoding.md R79). UNVERIFIED literal (U1, log 16). -/
def calen (v : Half) : Bool := v &&& 0x1000 != 0

/-- `CCA(s)` (30_encoding.md R79). UNVERIFIED literal (U1, log 16). -/
def cca (v : Half) : Bool := v &&& 0x0800 != 0

/-- `OFFS(s)`, true when CCA or BCA is set (30_encoding.md R79, D18). UNVERIFIED literal (U1, log 16). -/
def offs (v : Half) : Bool := v &&& 0x0C00 != 0

/-- `IRQ <- STATUS.DONE & CTRL.IE` (10_state.md R42). It stands in every step that writes DONE or IE; no other step can
change the level (log 7). -/
def State.driveIrq (s : State) : State := { s with irq := s.done && s.ie }

end Sys2Proof.Machine
end

