-- ==== Sys2Proof/Machine/Ops.lean ====
section
/-! DEFINITION. The named operations: the bytes of the block buffer, accepting and dropping a command word
(30_encoding.md R74), ending a command with a result, with an error (60_exceptions.md R171) or as a completed sequence
(42_calseq.md R132), and starting a sequence. -/
namespace Sys2Proof.Machine

/-- What a byte of BLK that is not listed holds: the reset value (10_state.md R37). -/
def blkResetByte : Byte := 0x00

/-- The first host offset of the BLK window (10_state.md R21). -/
def blkBase : Nat := 0x40

/-- The byte at a host offset of the BLK window. -/
def Memory.read : Memory → Nat → Byte
  | [], _ => blkResetByte
  | (a', b) :: m, a => if a = a' then b else Memory.read m a

/-- Writing one byte, keeping the canonical form. -/
def Memory.write : Memory → Nat → Byte → Memory
  | [], a, b => if b = blkResetByte then [] else [(a, b)]
  | (a', b') :: m, a, b =>
    if a < a' then
      if b = blkResetByte then (a', b') :: m else (a, b) :: (a', b') :: m
    else if a = a' then
      if b = blkResetByte then m else (a, b) :: m
    else (a', b') :: Memory.write m a b

/-- The canonical form from an offset on: offsets strictly rising inside the window, no byte at its reset value. -/
def Memory.wfFrom (lo : Nat) : Memory → Bool
  | [] => true
  | (a, b) :: m => decide (lo ≤ a) && decide (a < blkBase + Config.blockBytes) && b != blkResetByte
      && Memory.wfFrom (a + 1) m

/-- The canonical form of the block buffer. -/
def Memory.wf (m : Memory) : Bool := Memory.wfFrom blkBase m

/-- The little-endian word at a host offset of the BLK window (20_memory.md R53, R61). -/
def Memory.readWord (m : Memory) (a : Nat) : Word :=
  (m.read (a + 3) ++ m.read (a + 2) ++ m.read (a + 1) ++ m.read a : BitVec 32)

/-- A 4-byte write in the BLK window: byte `i` is bits `8i+7 : 8i` (20_memory.md R53, R61). -/
def Memory.writeWord (m : Memory) (a : Nat) (v : Word) : Memory :=
  (((m.write a (v.extractLsb' 0 8)).write (a + 1) (v.extractLsb' 8 8)).write (a + 2) (v.extractLsb' 16 8)).write
    (a + 3) (v.extractLsb' 24 8)

/-- A command word that arrives while BUSY = 1 and is not ABORT: OVR is set, and nothing else (10_state.md R27). -/
def dropWord (s : State) : State := { s with ovr := true }

/-- ABORT while BUSY: `abort_pending` is set, and nothing else (42_calseq.md R160). -/
def markAbort (s : State) : State := { s with abortPending := true }

/-- Accepting a word other than ABORT: DONE, ERR and ERRCODE are cleared and OP is recorded (30_encoding.md R74,
10_state.md R25, R26, R28). -/
def acceptWord (op : BitVec 4) (s : State) : State :=
  { s with done := false, err := false, errcode := .none, op := op }

/-- `raise Error(code)` (60_exceptions.md R171): the one way a command ends with an error. PHASE, SUB, RES, OPA, BLK,
CTRL, KEYS, CSW and LOOPCNT keep their values. -/
def raiseError (code : ErrorCode) (s : State) : State :=
  State.driveIrq
    { s with err := true, errcode := code, busy := false, done := true, abortPending := false, reqOut := false }

/-- A CSUM or XCODEC command ends without an error: RES is written and DONE set (30_encoding.md R74, R76). PHASE and
SUB are not written (log 8). -/
def endWithResult (hi lo : Word) (s : State) : State :=
  State.driveIrq { s with resHi := hi, resLo := lo, done := true }

/-- `complete` (42_calseq.md R132): a sequence ends without an error. -/
def completeSequence (s : State) : State :=
  State.driveIrq
    { s with
      resLo := cswWord s, resHi := 0, busy := false, done := true, phase := .idle, sub := .s0,
      abortPending := false }

/-- The start of a CALSEQ command in the step that accepts it (30_encoding.md R74). -/
def startSequence (entry : Phase) (s : State) : State :=
  State.driveIrq
    { s with
      latMaxpoll := s.maxpoll, latKeys := s.keys, loopcnt := 0, abortPending := false, reqOut := false,
      busy := true, phase := entry, sub := .s0 }

/-- `submit` for a word other than ABORT (30_encoding.md R74): dropped while BUSY, else accepted and run. BUSY is
looked at before anything else (60_exceptions.md R170 item 1). -/
def submitWord (op : BitVec 4) (run : State → State) (s : State) : State :=
  if s.busy then dropWord s else run (acceptWord op s)

/-- An illegal command word (30_encoding.md R72, 60_exceptions.md R166). -/
def submitIllegal (w : Word) (s : State) : State := submitWord (opField w) (raiseError .illegalCmd) s

/-- The turns still to come. -/
def withSchedule (turns : List Turn) (s : State) : State := { s with schedule := turns }

/-- The answer the Host gets to an access (10_state.md R39). -/
def answer (a : HostAnswer) (s : State) : State := { s with answers := s.answers ++ [a] }

end Sys2Proof.Machine
end

