-- ==== Sys2Proof/Machine/Operands.lean ====
section
/-! DEFINITION. Operand forms: where a command takes its operands (30_encoding.md R75), which host accesses are legal
(20_memory.md R52), and which register an offset names (10_state.md R21). -/
namespace Sys2Proof.Machine

/-- `BLK[i]` (10_state.md R37). -/
def blkByte (s : State) (i : Nat) : Byte := s.blk.read (blkBase + i)

/-- The 32 bytes of BLK, `BLK[0]` first (30_encoding.md R75). -/
def blkBytes (s : State) : List Byte := (List.range Config.blockBytes).map (blkByte s)

/-- The candidate checksum of CSUM_CHECK, `OPA_LO[7:0]` (30_encoding.md R75). -/
def candidate (s : State) : Byte := s.opaLo.extractLsb' 0 8

/-- The 64-bit operand `OPA = OPA_HI : OPA_LO` (10_state.md R31). -/
def opa (s : State) : DWord := (s.opaHi ++ s.opaLo : BitVec 64)

/-- The 64-bit result `RES = RES_HI : RES_LO` (10_state.md R32). -/
def res (s : State) : DWord := (s.resHi ++ s.resLo : BitVec 64)

/-- Whether an offset lies in the BLK window 0x40 to 0x5F (10_state.md R21). -/
def inBlk (off : Offset) : Bool := decide (0x40 ≤ off.toNat) && decide (off.toNat ≤ 0x5F)

/-- The register a 4-byte access at an offset names (10_state.md R21); 0x28 to 0x3F and 0x60 to 0x7F are reserved
(20_memory.md R54). -/
def regAt (off : Offset) : HostReg :=
  if inBlk off then .blk
  else match off.toNat with
    | 0x00 => .cmd
    | 0x04 => .status
    | 0x08 => .opaLo
    | 0x0C => .opaHi
    | 0x10 => .resLo
    | 0x14 => .resHi
    | 0x18 => .ctrl
    | 0x1C => .csw
    | 0x20 => .keys
    | 0x24 => .loopcnt
    | _ => .reserved

/-- Legal offset and width: 4 bytes at a multiple of 4, or 1 byte in the BLK window (20_memory.md R52). -/
def legalAt (off : Offset) (n : Nat) : Bool :=
  (n == 4 && off.toNat % 4 == 0) || (n == 1 && inBlk off)

/-- The legal host accesses (20_memory.md R52). -/
def accessLegal : HostAccess → Bool
  | .read off n => legalAt off n
  | .write off n _ => legalAt off n

end Sys2Proof.Machine
end

