-- ==== Sys2Proof/Machine/Calseq.lean ====
section
/-! DEFINITION. The CALSEQ commands: starting a micro-program at its entry position (42_calseq.md R133), and ABORT
(R160). What a started micro-program does is Machine/Sequencer.lean. -/
namespace Sys2Proof.Machine

/-- CAL_ENTER starts at UNSEAL1 (42_calseq.md R133, R141). -/
def execCalEnter (s : State) : Host.Outcome State Fault Refusal :=
  .next (submitWord Instr.calEnter.op (startSequence .unseal1) s)

/-- CAL_EXIT starts at EX_EXIT; it does not unseal (42_calseq.md R133, R145). -/
def execCalExit (s : State) : Host.Outcome State Fault Refusal :=
  .next (submitWord Instr.calExit.op (startSequence .exExit) s)

/-- CAL_CC_OFFSET starts at UNSEAL1 (42_calseq.md R133, R149). -/
def execCalCcOffset (s : State) : Host.Outcome State Fault Refusal :=
  .next (submitWord Instr.calCcOffset.op (startSequence .unseal1) s)

/-- CAL_BOARD_OFFSET starts at UNSEAL1 (42_calseq.md R133, R153). -/
def execCalBoardOffset (s : State) : Host.Outcome State Fault Refusal :=
  .next (submitWord Instr.calBoardOffset.op (startSequence .unseal1) s)

/-- ABORT sets `abort_pending` while BUSY and has no effect while idle (42_calseq.md R160, 30_encoding.md R74). -/
def execAbort (s : State) : Host.Outcome State Fault Refusal :=
  .next (if s.busy then markAbort s else s)

end Sys2Proof.Machine
end

