-- ==== Sys2Proof/Machine/Checksum.lean ====
section
/-! DEFINITION. CSUM, the flash-block checksum generator (40_checksum.md). -/
namespace Sys2Proof.Machine

/-- The sum of a block's bytes, an exact integer (40_checksum.md R95). -/
def byteSum (b : List Byte) : Nat := (b.map BitVec.toNat).sum

/-- `checksum(b) = 255 - (sum mod 256)` (40_checksum.md R95). -/
def checksum (b : List Byte) : Byte := BitVec.ofNat 8 (255 - byteSum b % 256)

/-- `valid` of CSUM_CHECK: the sum and the candidate give 255 mod 256 (40_checksum.md R97). -/
def checksumValid (b : List Byte) (c : Byte) : Bool := (byteSum b % 256 + c.toNat) % 256 == 255

/-- The work of CSUM_GEN once accepted: RES_LO is the checksum, zero-extended (40_checksum.md R96). -/
def runCsumGen (s : State) : State := endWithResult 0 ((checksum (blkBytes s)).setWidth 32) s

/-- The work of CSUM_CHECK once accepted: RES_LO is `(g << 8) | valid` (40_checksum.md R97). -/
def runCsumCheck (s : State) : State :=
  endWithResult 0
    ((checksum (blkBytes s)).setWidth 32 <<< 8
      ||| (BitVec.ofBool (checksumValid (blkBytes s) (candidate s))).setWidth 32) s

/-- CSUM_GEN (40_checksum.md R96). -/
def execCsumGen (s : State) : Host.Outcome State Fault Refusal :=
  .next (submitWord Instr.csumGen.op runCsumGen s)

/-- CSUM_CHECK (40_checksum.md R97). A mismatch is a result bit, not an error (60_exceptions.md R168). -/
def execCsumCheck (s : State) : Host.Outcome State Fault Refusal :=
  .next (submitWord Instr.csumCheck.op runCsumCheck s)

end Sys2Proof.Machine
end

