-- ==== Sys2Proof/Machine/Xemics.lean ====
section
/-! DEFINITION. XCODEC, the Xemics 32-bit float encoder and decoder (41_xemics.md). -/
namespace Sys2Proof.Machine

/-- The biased exponent field EXP of a Xemics word (30_encoding.md R77). -/
def xemicsExp (x : Word) : BitVec 8 := x.extractLsb' 24 8

/-- The sign bit S of a Xemics word, bit 23 (30_encoding.md R77). -/
def xemicsSign (x : Word) : Bool := x.getLsbD 23

/-- The FRAC field of a Xemics word (30_encoding.md R77). -/
def xemicsFrac (x : Word) : BitVec 23 := x.extractLsb' 0 23

/-- The value `dval(x)` of a Xemics word, an exact rational (41_xemics.md R105). The magnitude is unsigned and the sign
is bit 23 alone, the spec's reading. UNVERIFIED on hardware (C1, R115, log 14). -/
def xemicsValue (x : Word) : ℚ :=
  (if xemicsSign x then -1 else 1) * ((xemicsFrac x).toNat + 2 ^ 23 : ℕ) * (2 : ℚ) ^ (((xemicsExp x).toNat : ℤ) - 128 - 24)

/-- The binary64 bits XDEC gives (41_xemics.md R106). -/
def xdecBits (x : Word) : DWord :=
  ((BitVec.ofBool (xemicsSign x)).setWidth 64 <<< 63)
    ||| (((xemicsExp x).setWidth 64 + 894#64) <<< 52)
    ||| ((xemicsFrac x).setWidth 64 <<< 29)

/-- The sign of a binary64 pattern (30_encoding.md R78). -/
def f64Sign (d : DWord) : Bool := d.getLsbD 63

/-- The biased exponent `E` of a binary64 pattern (30_encoding.md R78). -/
def f64Exp (d : DWord) : Nat := (d.extractLsb' 52 11).toNat

/-- The fraction `T` of a binary64 pattern (30_encoding.md R78). -/
def f64Frac (d : DWord) : Nat := (d.extractLsb' 0 52).toNat

/-- What a binary64 pattern denotes (30_encoding.md R78); `finite` leaves out the zeros. -/
inductive F64Class where
  | zero
  | finite
  | infinity
  | nan
deriving DecidableEq, Repr

/-- The class of a binary64 pattern (30_encoding.md R78). -/
def f64Class (d : DWord) : F64Class :=
  if f64Exp d = 2047 then (if f64Frac d = 0 then .infinity else .nan)
  else if f64Exp d = 0 ∧ f64Frac d = 0 then .zero
  else .finite

/-- The significand `N` of the magnitude `a = N × 2^p` of a finite pattern (30_encoding.md R78). -/
def f64Num (d : DWord) : Nat := if f64Exp d = 0 then f64Frac d else 2 ^ 52 + f64Frac d

/-- The power `p` of the magnitude `a = N × 2^p` of a finite pattern (30_encoding.md R78). -/
def f64Pow (d : DWord) : Int := if f64Exp d = 0 then -1074 else (f64Exp d : Int) - 1075

/-- The value a finite pattern denotes, an exact rational (30_encoding.md R78). -/
def f64Value (d : DWord) : ℚ := (if f64Sign d then -1 else 1) * (f64Num d : ℚ) * (2 : ℚ) ^ f64Pow d

/-- `floor(log2 (N × 2^p))`, exact for `N > 0` (41_xemics.md R109, R114). -/
def floorLog2 (num : Nat) (pow : Int) : Int := (Nat.log2 num : Int) + pow

/-- `floor(N × 2^p)`, exact (41_xemics.md R109, R114). -/
def floorScaled (num : Nat) (pow : Int) : Nat :=
  if 0 ≤ pow then num * 2 ^ pow.toNat else num / 2 ^ (-pow).toNat

/-- `N × 2^p > 1`, exact (41_xemics.md R109). -/
def gtOne (num : Nat) (pow : Int) : Bool :=
  if 0 ≤ pow then decide (1 < num * 2 ^ pow.toNat) else decide (2 ^ (-pow).toNat < num)

/-- The exponent step of XENC, as `P_XENC_EXP_RULE` selects it (41_xemics.md R110). -/
def xencExponent (rule : Config.XencExpRule) (num : Nat) (pow : Int) : Int :=
  match rule with
  | .doc => floorLog2 num pow + (if gtOne num pow then 1 else 0)
  | .floorPlusOne => floorLog2 num pow + 1

/-- `xenc(d)` for a finite non-zero pattern: the word, or none when the exponent field leaves 0 to 255
(41_xemics.md R109, R111). The anomaly for magnitudes up to 1 is the source's formula (R113, log 15). -/
def xenc (d : DWord) : Option Word :=
  let e := xencExponent Config.xencExpRule (f64Num d) (f64Pow d)
  if e + 128 < 0 ∨ 255 < e + 128 then none
  else
    let m := floorScaled (f64Num d) (f64Pow d + (24 - e))
    let w := BitVec.ofNat 32 ((e + 128).toNat <<< 24 ||| (m &&& 0x7FFFFF))
    some (if f64Sign d then w ||| 0x00800000#32 else w)

/-- The work of XDEC once accepted (41_xemics.md R106). -/
def runXdec (s : State) : State :=
  endWithResult ((xdecBits s.opaLo).extractLsb' 32 32) ((xdecBits s.opaLo).extractLsb' 0 32) s

/-- The work of XENC once accepted (41_xemics.md R108): XEMICS_DOMAIN is checked before XEMICS_RANGE
(60_exceptions.md R170 item 2). -/
def runXenc (s : State) : State :=
  match f64Class (opa s) with
  | .zero => raiseError .xemicsDomain s
  | .infinity => raiseError .xemicsDomain s
  | .nan => raiseError .xemicsDomain s
  | .finite =>
    match xenc (opa s) with
    | none => raiseError .xemicsRange s
    | some w => endWithResult 0 w s

/-- XDEC (41_xemics.md R106). -/
def execXdec (s : State) : Host.Outcome State Fault Refusal :=
  .next (submitWord Instr.xdec.op runXdec s)

/-- XENC (41_xemics.md R108). -/
def execXenc (s : State) : Host.Outcome State Fault Refusal :=
  .next (submitWord Instr.xenc.op runXenc s)

end Sys2Proof.Machine
end

