-- ==== Sys2Proof/Machine/Dispatch.lean ====
section
/-! DEFINITION. One arm per command, each one call of its meaning: what a Host's write of the command's word to CMD does
in that step (30_encoding.md R74). -/
namespace Sys2Proof.Machine

def exec (i : Instr) (s : State) : Host.Outcome State Fault Refusal :=
  match i with
  | .csumGen => Sys2Proof.Machine.execCsumGen s
  | .csumCheck => Sys2Proof.Machine.execCsumCheck s
  | .xdec => Sys2Proof.Machine.execXdec s
  | .xenc => Sys2Proof.Machine.execXenc s
  | .calEnter => Sys2Proof.Machine.execCalEnter s
  | .calExit => Sys2Proof.Machine.execCalExit s
  | .calCcOffset => Sys2Proof.Machine.execCalCcOffset s
  | .calBoardOffset => Sys2Proof.Machine.execCalBoardOffset s
  | .abort => Sys2Proof.Machine.execAbort s

end Sys2Proof.Machine
end

