-- ==== Sys2Proof/Machine/Sequencer.lean ====
section
/-! DEFINITION. The steps of CALSEQ: the frame and the request of a position, the issue, response and abort steps, and
the transition table (42_calseq.md R125 to R138). -/
namespace Sys2Proof.Machine

/-- The device's control register address (20_memory.md R51, R56). -/
def controlAddress : Byte := 0x00

/-- The control subcommand codes CALSEQ sends (30_encoding.md R81). UNVERIFIED literals (U1, log 16). -/
def codeControlStatus : Half := 0x0000
/-- cal-enable (30_encoding.md R81, D16). -/
def codeCalEnable : Half := 0x002D
/-- enter-cal (30_encoding.md R81). -/
def codeEnterCal : Half := 0x0081
/-- exit-cal (30_encoding.md R81). -/
def codeExitCal : Half := 0x0080
/-- reset of the device (30_encoding.md R81). -/
def codeReset : Half := 0x0041
/-- cc-offset (30_encoding.md R81). -/
def codeCcOffset : Half := 0x000A
/-- board-offset (30_encoding.md R81). -/
def codeBoardOffset : Half := 0x0009
/-- cc-offset-save, the save step of both offset commands (30_encoding.md R81, D18). -/
def codeCcOffsetSave : Half := 0x000B

/-- `lo(k)` (30_encoding.md R80). -/
def lowByte (k : Half) : Byte := k.extractLsb' 0 8

/-- `hi(k)` (30_encoding.md R80). -/
def highByte (k : Half) : Byte := k.extractLsb' 8 8

/-- KEY1 of a KEYS value (10_state.md R35). -/
def key1 (k : Word) : Half := k.extractLsb' 0 16

/-- KEY2 of a KEYS value (10_state.md R35). -/
def key2 (k : Word) : Half := k.extractLsb' 16 16

/-- `ofcode(OP)` (42_calseq.md R133): none for a command that has no offset phase. -/
def ofcode (op : BitVec 4) : Option Half :=
  if op = Instr.calCcOffset.op then some codeCcOffset
  else if op = Instr.calBoardOffset.op then some codeBoardOffset
  else none

/-- `active(OP, s)` (42_calseq.md R133): none for a command that has no offset phase. -/
def offsetActive (op : BitVec 4) (v : Half) : Option Bool :=
  if op = Instr.calCcOffset.op then some (cca v)
  else if op = Instr.calBoardOffset.op then some (offs v)
  else none

/-- The frame of a phase (42_calseq.md R134). IDLE has none. -/
def frameOf (s : State) : Option Frame :=
  match s.phase with
  | .idle => none
  | .unseal1 => some (.unsealKey (key1 s.latKeys))
  | .unseal2 => some (.unsealKey (key2 s.latKeys))
  | .enCalen => some (.subcommand codeCalEnable)
  | .enEnter => some (.subcommand codeEnterCal)
  | .enWait => some (.sleep Config.pollWaitMs)
  | .enPoll => some .statusPoll
  | .exExit => some (.subcommand codeExitCal)
  | .exWait => some (.sleep Config.pollWaitMs)
  | .exPoll => some .statusPoll
  | .exSettle1 => some (.sleep Config.settleMs)
  | .exReset => some (.subcommand codeReset)
  | .exSettle2 => some (.sleep Config.settleMs)
  | .ofCmd => (ofcode s.op).map Frame.subcommand
  | .ofWait1 => some (.sleep Config.pollWaitMs)
  | .ofPoll1 => some .statusPoll
  | .ofWait2 => some (.sleep Config.pollWaitMs)
  | .ofPoll2 => some .statusPoll
  | .ofSave => some (.subcommand codeCcOffsetSave)

/-- The three requests of a control subcommand (42_calseq.md R126, 30_encoding.md R80). -/
def subcommandRequest (code : Half) : SubStep → Request
  | .s0 => .write Config.devAddr [controlAddress, lowByte code, highByte code]
  | .s1 => .write Config.devAddr [controlAddress]
  | .s2 => .read Config.devAddr 2

/-- The request of a frame at a sub-step (30_encoding.md R80): a frame of one request has none at SUB 1 and 2. -/
def frameRequest : Frame → SubStep → Option Request
  | .subcommand k, sub => some (subcommandRequest k sub)
  | .statusPoll, sub => some (subcommandRequest codeControlStatus sub)
  | .unsealKey k, .s0 => some (.write Config.devAddr [controlAddress, lowByte k, highByte k])
  | .unsealKey _, .s1 => none
  | .unsealKey _, .s2 => none
  | .sleep ms, .s0 => some (.sleep ms)
  | .sleep _, .s1 => none
  | .sleep _, .s2 => none

/-- `request(PHASE, SUB)` (42_calseq.md R130): what the block sends at its position, and what is outstanding there
while `req_out` is 1. -/
def currentRequest (s : State) : Option Request :=
  match frameOf s with
  | none => none
  | some f => frameRequest f s.sub

/-- A request is sent: it goes on the transport port and `req_out` is set (42_calseq.md R130). -/
def sendRequest (q : Request) (s : State) : State := { s with reqOut := true, requests := s.requests ++ [q] }

/-- A response is consumed: `req_out` is cleared (42_calseq.md R130). -/
def clearRequest (s : State) : State := { s with reqOut := false }

/-- `rsp_val <- b0 | (b1 << 8)` (42_calseq.md R126, 20_memory.md R55). -/
def saveResponse (b0 b1 : Byte) (s : State) : State := { s with rspVal := (b1 ++ b0 : BitVec 16) }

/-- `CSW[15:0] <- rsp_val` (42_calseq.md R128). -/
def saveStatus (s : State) : State := { s with csw := s.rspVal }

/-- `SUB <- b` (42_calseq.md R126). -/
def moveSub (b : SubStep) (s : State) : State := { s with sub := b }

/-- `loopcnt <- n` (42_calseq.md R135, R138). -/
def setLoopcnt (n : Half) (s : State) : State := { s with loopcnt := n }

/-- `pc <- (next, 0)` (42_calseq.md R135). -/
def goto (p : Phase) (s : State) : State := { s with phase := p, sub := .s0 }

/-- `loopcnt <- 0` and `pc <- (next, 0)`: the transition into a new loop (42_calseq.md R135, R138). -/
def enterLoop (p : Phase) (s : State) : State := goto p (setLoopcnt 0 s)

/-- `min(loopcnt + 1, 0xFFFF)` (42_calseq.md R138). -/
def bumpLoopcnt (n : Half) : Half := BitVec.ofNat 16 (min (n.toNat + 1) 0xFFFF)

/-- `fail(L)`, the failed-poll step (42_calseq.md R138). -/
def failPoll (loopHead : Phase) (s : State) : State :=
  if s.latMaxpoll ≠ 0 ∧ s.latMaxpoll ≤ bumpLoopcnt s.loopcnt then
    raiseError .calTimeout (setLoopcnt (bumpLoopcnt s.loopcnt) s)
  else goto loopHead (setLoopcnt (bumpLoopcnt s.loopcnt) s)

/-- The row of EN_POLL when CALEN is set (42_calseq.md R135): CAL_ENTER completes, an offset command enters its set
loop. -/
def enPollSeen (s : State) : Option State :=
  if s.op = Instr.calEnter.op then some (completeSequence s)
  else if s.op = Instr.calCcOffset.op then some (enterLoop .ofCmd s)
  else if s.op = Instr.calBoardOffset.op then some (enterLoop .ofCmd s)
  else none

/-- `advance` where a phase's last request got its `ok` (the table of 42_calseq.md R135). None where the table has no
row. -/
def phaseDone (s : State) : Option State :=
  match s.phase with
  | .idle => none
  | .unseal1 => some (goto .unseal2 s)
  | .unseal2 => some (goto .enCalen s)
  | .enCalen => some (goto .enEnter s)
  | .enEnter => some (goto .enWait s)
  | .enWait => some (goto .enPoll s)
  | .enPoll => if calen s.rspVal then enPollSeen s else some (failPoll .enCalen s)
  | .exExit => some (goto .exWait s)
  | .exWait => some (goto .exPoll s)
  | .exPoll => some (if calen s.rspVal then failPoll .exExit s else goto .exSettle1 s)
  | .exSettle1 => some (goto .exReset s)
  | .exReset => some (goto .exSettle2 s)
  | .exSettle2 => some (completeSequence s)
  | .ofCmd => some (goto .ofWait1 s)
  | .ofWait1 => some (goto .ofPoll1 s)
  | .ofPoll1 =>
    match offsetActive s.op s.rspVal with
    | none => none
    | some true => some (enterLoop .ofWait2 s)
    | some false => some (failPoll .ofCmd s)
  | .ofWait2 => some (goto .ofPoll2 s)
  | .ofPoll2 =>
    match offsetActive s.op s.rspVal with
    | none => none
    | some true => some (failPoll .ofWait2 s)
    | some false => some (goto .ofSave s)
  | .ofSave => some (enterLoop .exExit s)

/-- After an `ok` that fits the request: an earlier SUB of a three-request frame moves SUB on; the last request of a
phase ends it, and a status poll first writes CSW (42_calseq.md R126, R128, R135). -/
def afterOk (f : Frame) (s : State) : Option State :=
  match f, s.sub with
  | .subcommand _, .s0 => some (moveSub .s1 s)
  | .subcommand _, .s1 => some (moveSub .s2 s)
  | .subcommand _, .s2 => phaseDone s
  | .statusPoll, .s0 => some (moveSub .s1 s)
  | .statusPoll, .s1 => some (moveSub .s2 s)
  | .statusPoll, .s2 => phaseDone (saveStatus s)
  | .unsealKey _, _ => phaseDone s
  | .sleep _, _ => phaseDone s

/-- A step's outcome: none is a position the block never produces (log 6). -/
def ofPosition : Option State → Host.Outcome State Fault Refusal
  | some s => .next s
  | none => .fault .positionNeverProduced

/-- The issue step (42_calseq.md R130): one request is sent and `req_out` set. -/
def issueStep (s : State) : Host.Outcome State Fault Refusal :=
  ofPosition ((currentRequest s).map fun q => sendRequest q s)

/-- The abort step (42_calseq.md R136). -/
def abortStep (s : State) : State := raiseError .aborted s

/-- The response step (42_calseq.md R130): `req_out` is cleared, a `bus_error` or a response of the wrong form ends the
command with BUS_ERROR (60_exceptions.md R167), and any other response advances the position. A `bus_error` to a SLEEP
is a wrong form (U17). -/
def responseStep (r : Response) (s : State) : Host.Outcome State Fault Refusal :=
  match frameOf s, currentRequest s with
  | some f, some q =>
    match q, r with
    | .write _ _, .ok => ofPosition (afterOk f (clearRequest s))
    | .sleep _, .ok => ofPosition (afterOk f (clearRequest s))
    | .read _ _, .okData b0 b1 => ofPosition (afterOk f (saveResponse b0 b1 (clearRequest s)))
    | .write _ _, .okData _ _ => .next (raiseError .busError (clearRequest s))
    | .write _ _, .busError => .next (raiseError .busError (clearRequest s))
    | .sleep _, .okData _ _ => .next (raiseError .busError (clearRequest s))
    | .sleep _, .busError => .next (raiseError .busError (clearRequest s))
    | .read _ _, .ok => .next (raiseError .busError (clearRequest s))
    | .read _ _, .busError => .next (raiseError .busError (clearRequest s))
  | _, _ => .fault .positionNeverProduced

/-- A turn of the Block: the abort step or the issue step, whichever is enabled, both only between requests and while
BUSY (42_calseq.md R130); with neither enabled the block waits (log 5). -/
def blockTurn (s : State) : Host.Outcome State Fault Refusal :=
  if s.busy && !s.reqOut then
    if s.abortPending then .next (abortStep s) else issueStep s
  else .next s

/-- A turn of the Environment: a response step while a request is outstanding; else the response is discarded with no
effect (10_state.md R41, 70_reset_and_hazards.md R192). -/
def environmentTurn (r : Response) (s : State) : Host.Outcome State Fault Refusal :=
  if s.busy && s.reqOut then responseStep r s else .next s

/-- The reset event (70_reset_and_hazards.md R190): every element of BQCORE takes its reset value. The world's turns
and what it has observed are not BQCORE's (log 11). -/
def resetTurn (s : State) : State :=
  { State.reset with schedule := s.schedule, requests := s.requests, answers := s.answers }

end Sys2Proof.Machine
end

