-- ==== Sys2Proof/Machine/HostPort.lean ====
section
/-! DEFINITION. The host register port: the answer and the effect of one Host access (10_state.md R39, 20_memory.md R52,
R61), and the submission of a command word (30_encoding.md R74). -/
namespace Sys2Proof.Machine

/-- Submitting a command word (30_encoding.md R74): a command or ABORT runs, any other word is illegal. -/
def submit (w : Word) (s : State) : Host.Outcome State Fault Refusal :=
  match decode w with
  | .ok i => exec i s
  | .error _ => .next (submitIllegal w s)

/-- `HostRead(off, 4)` of a register (20_memory.md R61): CMD and reserved offsets read 0. -/
def readReg (off : Offset) (s : State) : Word :=
  match regAt off with
  | .cmd => 0
  | .status => statusWord s
  | .opaLo => s.opaLo
  | .opaHi => s.opaHi
  | .resLo => s.resLo
  | .resHi => s.resHi
  | .ctrl => ctrlWord s
  | .csw => cswWord s
  | .keys => s.keys
  | .loopcnt => loopcntWord s
  | .blk => s.blk.readWord off.toNat
  | .reserved => 0

/-- A write of STATUS: DONE and OVR are write-1-to-clear, every other bit is ignored (10_state.md R23). -/
def writeStatus (v : Word) (s : State) : State :=
  State.driveIrq { s with done := s.done && !v.getLsbD 1, ovr := s.ovr && !v.getLsbD 3 }

/-- A write of CTRL: MAXPOLL and IE; bits 31:17 are ignored (10_state.md R33). -/
def writeCtrl (v : Word) (s : State) : State :=
  State.driveIrq { s with maxpoll := v.extractLsb' 0 16, ie := v.getLsbD 16 }

/-- A write of OPA_LO (10_state.md R31). -/
def writeOpaLo (v : Word) (s : State) : State := { s with opaLo := v }

/-- A write of OPA_HI (10_state.md R31). -/
def writeOpaHi (v : Word) (s : State) : State := { s with opaHi := v }

/-- A write of KEYS (10_state.md R35). -/
def writeKeys (v : Word) (s : State) : State := { s with keys := v }

/-- A new content of BLK (10_state.md R37). -/
def setBlk (m : Memory) (s : State) : State := { s with blk := m }

/-- `HostWrite(off, 4, v)` (20_memory.md R61). -/
def writeReg (off : Offset) (v : Word) (s : State) : Host.Outcome State Fault Refusal :=
  match regAt off with
  | .cmd => submit v s
  | .status => .next (writeStatus v s)
  | .opaLo => .next (writeOpaLo v s)
  | .opaHi => .next (writeOpaHi v s)
  | .resLo => .next s
  | .resHi => .next s
  | .ctrl => .next (writeCtrl v s)
  | .csw => .next s
  | .keys => .next (writeKeys v s)
  | .loopcnt => .next s
  | .blk => .next (setBlk (s.blk.writeWord off.toNat v) s)
  | .reserved => .next s

/-- A turn of the Host (10_state.md R39): one access, answered in this step. An illegal access is answered
`access_error` and changes no state of BQCORE (20_memory.md R52, log 9). -/
def hostTurn (a : HostAccess) (s : State) : Host.Outcome State Fault Refusal :=
  if accessLegal a then
    match a with
    | .read off n =>
      .next (answer (if n = 4 then .data4 (readReg off s) else .data1 (s.blk.read off.toNat)) s)
    | .write off n v =>
      if n = 4 then writeReg off v (answer .ok s)
      else .next (answer .ok (setBlk (s.blk.write off.toNat (v.extractLsb' 0 8)) s))
  else .next (answer .accessError s)

/-- One turn: exactly one step of 20_memory.md R58, or the reset event (70_reset_and_hazards.md R190). -/
def runTurn (t : Turn) (s : State) : Host.Outcome State Fault Refusal :=
  match t with
  | .host a => hostTurn a s
  | .block => blockTurn s
  | .environment r => environmentTurn r s
  | .assertReset => .next (resetTurn s)

/-- The next turn and the state without it: with no turn left in the schedule the move is the Block's (log 1). DESIGN
CHOICE: a schedule is a finite list, so an endless answered run, such as the unbounded polling of 42_calseq.md R139, is
no run from one state; the model has every finite length of it, each from its own schedule (log 24). -/
def fetchTurn (s : State) : Turn × State :=
  match s.schedule with
  | [] => (.block, s)
  | t :: rest => (t, withSchedule rest s)

/-- The Host's write of the low `nbits` bits of `w` to CMD, as a turn. -/
def submitTurn (nbits w : Nat) : Turn := .host (.write 0x00 4 (tableWord nbits w))

end Sys2Proof.Machine
end

