-- ==== Sys2Proof/Machine/Step.lean ====
section
/-! DEFINITION. One step of the machine: the next turn, run (20_memory.md R58). -/
namespace Sys2Proof.Machine

/-- One step: the next turn of the schedule is taken and run; with none left, the Block moves (log 1). -/
def step (s : State) : Host.Outcome State Fault Refusal := runTurn (fetchTurn s).1 (fetchTurn s).2

/-- `s` with the Host's write of the command word `w` to CMD as its very next turn: BQCORE fetches no program
(20_memory.md R66), so this stands for the Host's access (log 2). -/
def State.withFetchWord (s : State) (nbits w : Nat) : State :=
  { s with schedule := submitTurn nbits w :: s.schedule }

end Sys2Proof.Machine
end

