-- ==== Sys2Proof/Machine/HostAsm.lean ====
section
/-! DEFINITION. Host assembly: the access and the encoding of a line (30_encoding.md R82), the pseudo-instructions
(R83), and a Host program run between the moves of the other agents, the loop of `wait` among its items. -/
namespace Sys2Proof.Machine

/-- The access a line stands for (30_encoding.md R82). -/
def lineAccess : HostLine → HostAccess
  | .sw off imm => .write off 4 imm
  | .sb off imm => .write off 1 (imm.setWidth 32)
  | .lw off => .read off 4
  | .lb off => .read off 1

/-- A line's encoding, the triple (30_encoding.md R82). -/
def lineEncode : HostLine → LineCode
  | .sw off imm => ⟨.w4, off, some imm⟩
  | .sb off imm => ⟨.w1, off, some (imm.setWidth 32)⟩
  | .lw off => ⟨.r4, off, none⟩
  | .lb off => ⟨.r1, off, none⟩

/-- The line a triple encodes; none for an ill-formed triple (30_encoding.md R82). -/
def lineDecode (c : LineCode) : Option HostLine :=
  if c.wf then
    match c.kind, c.value with
    | .w4, some v => some (.sw c.off v)
    | .w1, some v => some (.sb c.off (v.extractLsb' 0 8))
    | .r4, none => some (.lw c.off)
    | .r1, none => some (.lb c.off)
    | _, _ => none
  else none

/-- One word of `ld.blk`: bytes `4j` to `4j+3`, the first in the low place (30_encoding.md R83). -/
def ldBlkWord (b : Vector Byte 32) (j : Fin 8) : Word :=
  (b[4 * j.val + 3] ++ b[4 * j.val + 2] ++ b[4 * j.val + 1] ++ b[4 * j.val] : BitVec 32)

/-- The expansion of a pseudo-instruction (30_encoding.md R83). -/
def expandPseudo : Pseudo → List HostStep
  | .csumGen => [.line (.sw 0x00 0x00000001)]
  | .csumChk => [.line (.sw 0x00 0x00000002)]
  | .xdec => [.line (.sw 0x00 0x00000003)]
  | .xenc => [.line (.sw 0x00 0x00000004)]
  | .calEnter => [.line (.sw 0x00 0x00000008)]
  | .calExit => [.line (.sw 0x00 0x00000009)]
  | .calCcoff => [.line (.sw 0x00 0x0000000A)]
  | .calBoardoff => [.line (.sw 0x00 0x0000000B)]
  | .abort => [.line (.sw 0x00 0x0000000F)]
  | .liOpa64 d => [.line (.sw 0x08 (d.extractLsb' 0 32)), .line (.sw 0x0C (d.extractLsb' 32 32))]
  | .liOpa w => [.line (.sw 0x08 w)]
  | .ldBlk b => (List.finRange 8).map fun j => .line (.sw (BitVec.ofNat 7 (0x40 + 4 * j.val)) (ldBlkWord b j))
  | .wait => [.repeatUntilIdle (.lw 0x04)]
  | .ack => [.line (.sw 0x04 0x0000000A)]

/-- The condition that ends the `wait` loop: BUSY of the value read is 0 (30_encoding.md R83). -/
def waitDone (v : Word) : Bool := !v.getLsbD 0

/-- The line of an item of a Host program. -/
def lineOf : HostStep → HostLine
  | .line l => l
  | .repeatUntilIdle l => l

/-- The turns of a Host program's items, each done once. -/
def lineTurns (p : List HostStep) : List Turn := p.map fun i => .host (lineAccess (lineOf i))

/-- Whether the Host's last access was a 4-byte read of a value that ends the `wait` loop. -/
def lastReadDone (s : State) : Bool :=
  match s.answers.getLast? with
  | some (.data4 v) => waitDone v
  | _ => false

/-- What is left of a Host program after its first item's access: a loop whose condition does not hold yet stays at the
head (30_encoding.md R83). -/
def programAfter (i : HostStep) (rest : List HostStep) (s : State) : List HostStep :=
  match i with
  | .line _ => rest
  | .repeatUntilIdle l => if lastReadDone s then rest else .repeatUntilIdle l :: rest

/-- The step of the machine whose turn is `u`, taken before the turns of the schedule. -/
def stepOn (u : Turn) (s : State) : Host.Outcome State Fault Refusal := step (withSchedule (u :: s.schedule) s)

/-- A Host program's state and the machine's after one step of the machine. -/
def withProgram (p : State → List HostStep) (o : Host.Outcome State Fault Refusal) :
    Host.Outcome (List HostStep × State) Fault Refusal :=
  match o with
  | .next s => .next (p s, s)
  | .fault r => .fault r
  | .refused r => .refused r

/-- The next move of a run with a Host program: the Host's next access, or a move of another agent (20_memory.md R58). -/
inductive Move where
  | program
  | block
  | environment (r : Response)
  | assertReset
deriving DecidableEq, Repr

/-- One move: each is one step of the machine, and a program with no item left makes no access. -/
def runMove (m : Move) (p : List HostStep) (s : State) : Host.Outcome (List HostStep × State) Fault Refusal :=
  match m with
  | .program =>
    match p with
    | [] => .next ([], s)
    | i :: rest => withProgram (programAfter i rest) (stepOn (.host (lineAccess (lineOf i))) s)
  | .block => withProgram (fun _ => p) (stepOn .block s)
  | .environment r => withProgram (fun _ => p) (stepOn (.environment r) s)
  | .assertReset => withProgram (fun _ => p) (stepOn .assertReset s)

/-- A Host program run between the moves of the other agents, in the order `moves` gives: what is left of the program,
and the state. How often `wait` goes round is how many moves of the program find BUSY = 1 (log 19). -/
def runProgram : List Move → List HostStep → State → Host.Outcome (List HostStep × State) Fault Refusal
  | [], p, s => .next (p, s)
  | m :: moves, p, s =>
    match runMove m p s with
    | .next t => runProgram moves t.1 t.2
    | .fault r => .fault r
    | .refused r => .refused r

end Sys2Proof.Machine
end

