-- ==== Sys2Proof/Safety.lean ====
section
/-! DEFINITION. The words claims use: what a legal position is, the invariant of BQCORE's state, a safe run, what the
sequencer can see, and the turns and requests of the frames and loops of CALSEQ. -/
namespace Sys2Proof.Machine

/-- The phases that send a control subcommand or a status poll, and so have SUB 0, 1 and 2 (42_calseq.md R125, R134). -/
def threeRequestPhase : Phase → Bool
  | .enCalen => true
  | .enEnter => true
  | .enPoll => true
  | .exExit => true
  | .exPoll => true
  | .exReset => true
  | .ofCmd => true
  | .ofPoll1 => true
  | .ofPoll2 => true
  | .ofSave => true
  | .idle => false
  | .unseal1 => false
  | .unseal2 => false
  | .enWait => false
  | .exWait => false
  | .exSettle1 => false
  | .exSettle2 => false
  | .ofWait1 => false
  | .ofWait2 => false

/-- The status-poll phases (42_calseq.md R134). -/
def pollPhase (p : Phase) : Bool := p == .enPoll || p == .exPoll || p == .ofPoll1 || p == .ofPoll2

/-- The phases of EnterCalibration, unseal included (42_calseq.md R134). -/
def enterPhase (p : Phase) : Bool :=
  p == .unseal1 || p == .unseal2 || p == .enCalen || p == .enEnter || p == .enWait || p == .enPoll

/-- The phases of ExitCalibration (42_calseq.md R134). -/
def exitPhase (p : Phase) : Bool :=
  p == .exExit || p == .exWait || p == .exPoll || p == .exSettle1 || p == .exReset || p == .exSettle2

/-- The phases of an offset calibration's own two loops and save step (42_calseq.md R134). -/
def offsetPhase (p : Phase) : Bool :=
  p == .ofCmd || p == .ofWait1 || p == .ofPoll1 || p == .ofWait2 || p == .ofPoll2 || p == .ofSave

/-- The phases a running command can be at (42_calseq.md R133, R135). -/
def phaseOfCommand (op : BitVec 4) (p : Phase) : Bool :=
  if op = Instr.calEnter.op then enterPhase p
  else if op = Instr.calExit.op then exitPhase p
  else if op = Instr.calCcOffset.op then enterPhase p || offsetPhase p || exitPhase p
  else if op = Instr.calBoardOffset.op then enterPhase p || offsetPhase p || exitPhase p
  else false

/-- The invariant of BQCORE's state. -/
structure State.Inv (s : State) : Prop where
  /-- the block buffer keeps its canonical form (10_state.md R37) -/
  blkWf : s.blk.wf = true
  /-- IRQ is DONE & IE (10_state.md R42) -/
  irqLevel : s.irq = (s.done && s.ie)
  /-- ERR says whether ERRCODE is an error (10_state.md R26) -/
  errIffCode : s.err = true ↔ s.errcode ≠ .none
  /-- SUB is 0 outside the phases of three requests (10_state.md R30) -/
  subLegal : s.sub ≠ .s0 → threeRequestPhase s.phase = true
  /-- a running command is a CALSEQ command at a phase of its own (10_state.md R24, 42_calseq.md R133) -/
  busyPhase : s.busy = true → phaseOfCommand s.op s.phase = true
  /-- a running command has not ended (10_state.md R25, R26) -/
  busyNotEnded : s.busy = true → s.done = false ∧ s.err = false
  /-- a request is outstanding only while a command runs (10_state.md R29) -/
  reqBusy : s.reqOut = true → s.busy = true
  /-- an abort is pending only while a command runs (10_state.md R29) -/
  abortBusy : s.abortPending = true → s.busy = true
  /-- the outstanding request is the last one issued, and the one of the position (10_state.md R40) -/
  outstanding : s.reqOut = true → s.requests.getLast? = currentRequest s
  /-- the failed polls of the current loop are below a bound that is set (42_calseq.md R138, R139) -/
  pollsBounded : s.busy = true → s.latMaxpoll ≠ 0 → s.loopcnt < s.latMaxpoll

/-- A run from `s` is safe: it never stops. -/
def SafeFrom (s : State) : Prop := ∀ k, ∃ t, Sys2Proof.core.run k s = .next t

/-- A request that touches only the device's control address 0x00 at bus address 0x55, or no address (20_memory.md
R51, 10_state.md R40). -/
def controlOnly : Request → Bool
  | .write dev bytes => dev == 0x55 && bytes.head? == some 0x00 && (bytes.length == 1 || bytes.length == 3)
  | .read dev len => dev == 0x55 && len == 2
  | .sleep ms => ms == 1000 || ms == 150

/-- What the sequencer reads and writes: everything of BQCORE but OVR, OPA, CTRL, KEYS, BLK and the IRQ level
(42_calseq.md R125). -/
structure SeqView where
  busy : Bool
  done : Bool
  err : Bool
  errcode : ErrorCode
  phase : Phase
  sub : SubStep
  op : BitVec 4
  resLo : Word
  resHi : Word
  csw : Half
  loopcnt : Half
  latMaxpoll : Half
  latKeys : Word
  reqOut : Bool
  abortPending : Bool
  rspVal : Half
  requests : List Request
deriving DecidableEq, Repr

/-- The sequencer's view of a state. -/
def seqView (s : State) : SeqView :=
  ⟨s.busy, s.done, s.err, s.errcode, s.phase, s.sub, s.op, s.resLo, s.resHi, s.csw, s.loopcnt, s.latMaxpoll,
    s.latKeys, s.reqOut, s.abortPending, s.rspVal, s.requests⟩

/-- The sequencer's view of an outcome; none for a stop. -/
def outcomeView : Host.Outcome State Fault Refusal → Option SeqView
  | .next s => some (seqView s)
  | .fault _ => none
  | .refused _ => none

/-- A frame of one request, issued and answered `ok`. -/
def unitTurns : List Turn := [.block, .environment .ok]

/-- A control subcommand, each request issued and answered, the response word `v` low byte first (20_memory.md R55). -/
def subcommandTurns (v : Half) : List Turn :=
  unitTurns ++ unitTurns ++ [.block, .environment (.okData (lowByte v) (highByte v))]

/-- The turns of the unseal (42_calseq.md R127). -/
def unsealTurns : List Turn := unitTurns ++ unitTurns

/-- One iteration of the EnterCalibration loop: the response words of cal-enable, enter-cal and the status poll. -/
structure EnterRound where
  enable : Half
  enter : Half
  poll : Half
deriving DecidableEq, Repr

/-- One iteration of a loop that sends one subcommand, waits and polls: the response words of both. -/
structure CommandRound where
  command : Half
  poll : Half
deriving DecidableEq, Repr

/-- The turns of one EnterCalibration iteration. -/
def EnterRound.turns (r : EnterRound) : List Turn :=
  subcommandTurns r.enable ++ subcommandTurns r.enter ++ unitTurns ++ subcommandTurns r.poll

/-- The turns of one iteration of the exit loop or the set loop. -/
def CommandRound.turns (r : CommandRound) : List Turn :=
  subcommandTurns r.command ++ unitTurns ++ subcommandTurns r.poll

/-- The turns of one iteration of the clear loop, a wait and a poll. -/
def clearTurns (poll : Half) : List Turn := unitTurns ++ subcommandTurns poll

/-- The turns of the settle, reset, settle that end ExitCalibration. -/
def settleTurns (resetWord : Half) : List Turn := unitTurns ++ subcommandTurns resetWord ++ unitTurns

/-- The three requests of subcommand `k`, with the spec's own literals (30_encoding.md R80). -/
def subcommandRequests (k : Half) : List Request :=
  [.write 0x55 [0x00, lowByte k, highByte k], .write 0x55 [0x00], .read 0x55 2]

/-- The two requests of the unseal with the keys `k` (42_calseq.md R127). -/
def unsealRequests (k : Word) : List Request :=
  [.write 0x55 [0x00, k.extractLsb' 0 8, k.extractLsb' 8 8], .write 0x55 [0x00, k.extractLsb' 16 8, k.extractLsb' 24 8]]

/-- The ten requests of one EnterCalibration iteration (42_calseq.md R141). -/
def enterRequests : List Request :=
  subcommandRequests 0x002D ++ subcommandRequests 0x0081 ++ [.sleep 1000] ++ subcommandRequests 0x0000

/-- The seven requests of one iteration of a loop that sends subcommand `k`, waits and polls (42_calseq.md R145, R149). -/
def commandLoopRequests (k : Half) : List Request :=
  subcommandRequests k ++ [.sleep 1000] ++ subcommandRequests 0x0000

/-- The four requests of one iteration of the clear loop (42_calseq.md R149). -/
def clearRequests : List Request := .sleep 1000 :: subcommandRequests 0x0000

/-- The five requests of settle, reset, settle (42_calseq.md R145). -/
def settleRequests : List Request := [.sleep 150] ++ subcommandRequests 0x0041 ++ [.sleep 150]

/-- `n` copies of a list, one after another. -/
def repeated {α : Type} (n : Nat) (l : List α) : List α := (List.replicate n l).flatten

end Sys2Proof.Machine
end

