-- ==== Sys2Proof/Certificates/Slice0/Obligations.lean ====
section
/-! DEFINITION. The statements for the provers. A statement whose conclusion is `exec i s = .next { s with … }` or
`step s = .next { s with … }` is a result, a completion and a frame in one: every field it does not name, every byte of
BLK among them, is as in `s`. -/
open Sys2Proof Sys2Proof.Machine

/-! ## Encodings -/

/-- A word decodes to a command exactly when it is that command's encoding (30_encoding.md R70, R71): no bit of the
encoding is dropped and no other word is taken for it. -/
def Obligations.DecodeAndEncodeAgree : Prop :=
  ∀ (i : Instr) (w : Word), decode w = .ok i ↔ w = encode i

/-- R73: decoding is total, and every word is a command of R71, ABORT, or illegal, by its RSV and OP fields. -/
def Obligations.DecodingIsTotal : Prop :=
  ∀ w : Word,
    ((∃ i, i ≠ Instr.abort ∧ decode w = .ok i)
      ↔ w.extractLsb' 4 28 = 0 ∧ (w.extractLsb' 0 4).toNat ∈ [0x1, 0x2, 0x3, 0x4, 0x8, 0x9, 0xA, 0xB])
    ∧ (decode w = .ok .abort ↔ w = 0x0000000F)
    ∧ ((∃ e, decode w = .error e)
      ↔ w.extractLsb' 4 28 ≠ 0 ∨ (w.extractLsb' 0 4).toNat ∈ [0x0, 0x5, 0x6, 0x7, 0xC, 0xD, 0xE])

/-- The nine words of the table of R71, written out, decode to their commands; the neighbours 0x0000001F and 0x80000001
do not. A sanity statement. -/
def Obligations.TableWordsDecode : Prop :=
  decode 0b00000000000000000000000000000001 = .ok .csumGen
  ∧ decode 0b00000000000000000000000000000010 = .ok .csumCheck
  ∧ decode 0b00000000000000000000000000000011 = .ok .xdec
  ∧ decode 0b00000000000000000000000000000100 = .ok .xenc
  ∧ decode 0b00000000000000000000000000001000 = .ok .calEnter
  ∧ decode 0b00000000000000000000000000001001 = .ok .calExit
  ∧ decode 0b00000000000000000000000000001010 = .ok .calCcOffset
  ∧ decode 0b00000000000000000000000000001011 = .ok .calBoardOffset
  ∧ decode 0b00000000000000000000000000001111 = .ok .abort
  ∧ decode 0x0000001F = .error .rsvNotZero
  ∧ decode 0x80000001 = .error .rsvNotZero
  ∧ decode 0x00000005 = .error (.reservedOp 0x5)

/-- The access of each kind of line, and that a line and its triple determine each other (30_encoding.md R82); every
line's access is well-formed. -/
def Obligations.HostLinesRoundTrip : Prop :=
  (∀ (off : Offset) (v : Word) (b : Byte),
    lineAccess (.sw off v) = .write off 4 v ∧ lineAccess (.sb off b) = .write off 1 (BitVec.ofNat 32 b.toNat)
    ∧ lineAccess (.lw off) = .read off 4 ∧ lineAccess (.lb off) = .read off 1
    ∧ lineEncode (.sw off v) = ⟨.w4, off, some v⟩ ∧ lineEncode (.sb off b) = ⟨.w1, off, some (BitVec.ofNat 32 b.toNat)⟩
    ∧ lineEncode (.lw off) = ⟨.r4, off, none⟩ ∧ lineEncode (.lb off) = ⟨.r1, off, none⟩)
  ∧ (∀ l : HostLine, (lineEncode l).wf = true ∧ lineDecode (lineEncode l) = some l ∧ (lineAccess l).wf = true)
  ∧ ∀ (c : LineCode) (l : HostLine), lineDecode c = some l → lineEncode l = c

/-- What the pseudo-instructions of 30_encoding.md R83 do. `ld.blk b0..b31`: its eight writes leave `BLK[i] = b[i]` for
every `i`, each answered `ok`, and nothing else changed. `li.opa64`, `li.opa` and `ack`: their writes, one Host move each.
A command's: `exec` of the command, the access answered. `wait`: a pass reads STATUS and stays at the loop while BUSY is
1, and a run gets past the loop only by a pass that finds BUSY = 0. The expansions are R83's. How a program runs, in all
clauses but the first, is the model's choice: `runMove` and `runProgram` take the order of moves as an argument, and a
loop that has not ended stays at the program's head (log 19). That a command's line is `exec` of the command, which holds
the whole of submit, is the model's choice too (log 20). -/
def Obligations.PseudoInstructionsRun : Prop :=
  (∀ (b : Vector Byte 32) (s : State) (rest : List Turn),
    s.blk.wf = true → s.schedule = lineTurns (expandPseudo (.ldBlk b)) ++ rest →
    ∃ m : Memory, m.wf = true ∧ (∀ i : Fin 32, Memory.read m (0x40 + i.val) = b[i])
      ∧ (Sys2Proof.core.run 8 s : Host.Outcome State Fault Refusal)
        = .next { s with blk := m, schedule := rest, answers := s.answers ++ List.replicate 8 .ok })
  ∧ (∀ (s : State) (d : DWord),
    runProgram [.program, .program] (expandPseudo (.liOpa64 d)) s = .next ([], { s with
      opaLo := d.extractLsb' 0 32, opaHi := d.extractLsb' 32 32, answers := s.answers ++ [.ok, .ok] }))
  ∧ (∀ (s : State) (w : Word),
    runProgram [.program] (expandPseudo (.liOpa w)) s = .next ([], { s with
      opaLo := w, answers := s.answers ++ [.ok] }))
  ∧ (∀ s : State, runProgram [.program] (expandPseudo .ack) s = .next ([], { s with
      done := false, ovr := false, irq := false, answers := s.answers ++ [.ok] }))
  ∧ (∀ c ∈ [(Pseudo.csumGen, Instr.csumGen), (.csumChk, .csumCheck), (.xdec, .xdec), (.xenc, .xenc),
        (.calEnter, .calEnter), (.calExit, .calExit), (.calCcoff, .calCcOffset), (.calBoardoff, .calBoardOffset),
        (.abort, .abort)],
      ∀ s : State, ∃ t, exec c.2 { s with answers := s.answers ++ [.ok] } = .next t
        ∧ runProgram [.program] (expandPseudo c.1) s = .next ([], t))
  ∧ (∀ (s : State) (rest : List HostStep),
    runMove .program (expandPseudo .wait ++ rest) s = .next
      (if s.busy then expandPseudo .wait ++ rest else rest,
        { s with answers := s.answers ++ [.data4 (statusWord s)] }))
  ∧ ∀ (moves : List Move) (s t : State), runProgram moves (expandPseudo .wait) s = .next ([], t) →
      ∃ before later u, moves = before ++ .program :: later ∧ u.busy = false
        ∧ runProgram before (expandPseudo .wait) s = .next (expandPseudo .wait, u)

/-! ## A step and the submission of a word -/

/-- A step whose turn is the Host's write of a command's word to CMD is `exec` of that command, on the state with the
turn taken and the access answered `ok` (30_encoding.md R74). That `exec` holds the whole of R74's submit is the model's
choice (log 20), and so is the second clause: `withFetchWord` places exactly that turn, standing for the Host's access
(log 2). -/
def Obligations.StepRunsTheDecodedCommand : Prop :=
  (∀ (s : State) (rest : List Turn) (w : Word) (i : Instr),
    s.schedule = .host (.write 0x00 4 w) :: rest → decode w = .ok i →
    step s = exec i { s with schedule := rest, answers := s.answers ++ [.ok] })
  ∧ ∀ (s : State) (w : Word) (i : Instr), decode w = .ok i →
    step (s.withFetchWord 32 w.toNat) = exec i { s with answers := s.answers ++ [.ok] }

/-- An illegal word accepted with BUSY = 0 ends at once with ILLEGAL_CMD (60_exceptions.md R166), with the effects of
acceptance (30_encoding.md R74) and of error termination (R171): OP records its OP field, and RES and every operand are as
before. That PHASE and SUB are as before too is the model's reading (log 8). -/
def Obligations.IllegalWordEndsWithIllegalCmd : Prop :=
  ∀ (s : State) (rest : List Turn) (w : Word), s.busy = false → s.schedule = .host (.write 0x00 4 w) :: rest →
    (w.extractLsb' 4 28 ≠ 0 ∨ (w.extractLsb' 0 4).toNat ∈ [0x0, 0x5, 0x6, 0x7, 0xC, 0xD, 0xE]) →
    step s = .next { s with
      schedule := rest, answers := s.answers ++ [.ok], done := true, err := true, errcode := .illegalCmd,
      op := w.extractLsb' 0 4, busy := false, abortPending := false, reqOut := false, irq := s.ie }

/-- R27: a word other than exactly 0x0000000F that arrives while BUSY = 1 sets OVR and does nothing else, and only a
write of STATUS with bit 3 set clears OVR (or reset, which clears everything, R190). -/
def Obligations.WordIsDroppedWhileBusy : Prop :=
  (∀ (s : State) (rest : List Turn) (w : Word), s.busy = true → w ≠ 0x0000000F →
    s.schedule = .host (.write 0x00 4 w) :: rest →
    step s = .next { s with schedule := rest, answers := s.answers ++ [.ok], ovr := true })
  ∧ ∀ s t : State, step s = .next t → s.ovr = true → t.ovr = false →
    s.schedule.head? = some .assertReset
      ∨ ∃ v : Word, s.schedule.head? = some (.host (.write 0x04 4 v)) ∧ v.getLsbD 3 = true

/-! ## CSUM -/

/-- CSUM_GEN completes, from every state with BUSY = 0, with RES_LO the checksum of the 32 bytes (40_checksum.md R96);
BLK and OPA are unchanged. That PHASE and SUB are unchanged is the model's reading (log 8). -/
def Obligations.CsumGenWritesTheChecksum : Prop :=
  ∀ s : State, s.busy = false →
    exec .csumGen s = .next { s with
      resLo := BitVec.ofNat 32 (255 - (∑ i ∈ Finset.range 32, (s.blk.read (0x40 + i)).toNat) % 256), resHi := 0,
      done := true, err := false, errcode := .none, op := 0x1, irq := s.ie }

/-- CSUM_CHECK completes, from every state with BUSY = 0, with RES_LO the checksum in bits 15:8 and `valid` in bit 0
(40_checksum.md R97); a mismatch sets no error. That PHASE and SUB are unchanged is the model's reading (log 8). -/
def Obligations.CsumCheckWritesValid : Prop :=
  ∀ s : State, s.busy = false →
    exec .csumCheck s = .next { s with
      resLo := BitVec.ofNat 32
        ((255 - (∑ i ∈ Finset.range 32, (s.blk.read (0x40 + i)).toNat) % 256) * 256
          + (if ((∑ i ∈ Finset.range 32, (s.blk.read (0x40 + i)).toNat) % 256 + s.opaLo.toNat % 256) % 256 = 255
            then 1 else 0)),
      resHi := 0, done := true, err := false, errcode := .none, op := 0x2, irq := s.ie }

/-- R95: the checksum of a block is 255 less the exact sum mod 256, the sum being at most 8160; it is the ones'
complement of the sum in an 8-bit wrapping adder. -/
def Obligations.ChecksumIsOnesComplementOfTheSum : Prop :=
  ∀ b : Vector Byte 32,
    (checksum b.toList).toNat = 255 - (∑ i : Fin 32, (b[i]).toNat) % 256
    ∧ ∑ i : Fin 32, (b[i]).toNat ≤ 8160
    ∧ checksum b.toList = ~~~(b.toList.foldl (fun a x => a + x) 0)

/-- R98: the four laws of the checksum. -/
def Obligations.ChecksumLaws : Prop :=
  ∀ b : Vector Byte 32,
    (byteSum b.toList + (checksum b.toList).toNat) % 256 = 255
    ∧ (∀ c : Vector Byte 32, b.toList.Perm c.toList → checksum b.toList = checksum c.toList)
    ∧ (checksum b.toList = 0xFF ↔ byteSum b.toList % 256 = 0)
    ∧ ∀ (i : Fin 32) (k : Byte), checksum (b.set i (b[i] + k)).toList = checksum b.toList - k

/-- CSUM_CHECK's `valid` holds of exactly one candidate, the checksum (40_checksum.md R97, corner cases). -/
def Obligations.ValidExactlyForTheChecksum : Prop :=
  ∀ (b : List Byte) (c : Byte), checksumValid b c = true ↔ c = checksum b

/-! ## XCODEC -/

/-- XDEC completes, from every state with BUSY = 0, with RES the 64 bits of R106's formula for OPA_LO, written as sums
of the fields at their places. That PHASE and SUB are unchanged is the model's reading (log 8). -/
def Obligations.XdecWritesTheBinary64 : Prop :=
  ∀ s : State, s.busy = false →
    let r : DWord := BitVec.ofNat 64
      ((s.opaLo.getLsbD 23).toNat * 2 ^ 63 + ((s.opaLo.extractLsb' 24 8).toNat + 894) * 2 ^ 52
        + (s.opaLo.extractLsb' 0 23).toNat * 2 ^ 29)
    exec .xdec s = .next { s with
      resHi := r.extractLsb' 32 32, resLo := r.extractLsb' 0 32, done := true, err := false, errcode := .none,
      op := 0x3, irq := s.ie }

/-- XDEC's result is a normal binary64 that denotes exactly `dval` of the word (41_xemics.md R105, R106). The reading of
the sign is the spec's (log 14). -/
def Obligations.XdecIsExact : Prop :=
  ∀ x : Word, 894 ≤ f64Exp (xdecBits x) ∧ f64Exp (xdecBits x) ≤ 1149 ∧ f64Value (xdecBits x) = xemicsValue x

/-- R107: the three laws of `dval`: bounds, sign, and one-to-one. -/
def Obligations.XemicsValueLaws : Prop :=
  (∀ x : Word, xemicsValue x ≠ 0 ∧ (2 : ℚ) ^ (-129 : ℤ) ≤ |xemicsValue x|
    ∧ |xemicsValue x| ≤ (2 ^ 24 - 1) * 2 ^ 103)
  ∧ (∀ x : Word, xemicsValue (x ^^^ 0x00800000) = -xemicsValue x)
  ∧ ∀ x y : Word, xemicsValue x = xemicsValue y → x = y

/-- R109: for a finite non-zero binary64 of value `v`, `a = |v|` and `2^k <= a < 2^(k+1)`, XENC's function is the
source's formula in exact rationals; and for the in-range inputs, all of them normal, it is the bit form. -/
def Obligations.XencFollowsTheFormula : Prop :=
  (∀ (d : DWord) (k : ℤ), f64Exp d ≠ 2047 → f64Value d ≠ 0 →
    (2 : ℚ) ^ k ≤ |f64Value d| → |f64Value d| < (2 : ℚ) ^ (k + 1) →
    let a := |f64Value d|
    let e : ℤ := k + (if 1 < a then 1 else 0)
    xenc d =
      if e + 128 < 0 ∨ 255 < e + 128 then none
      else some (BitVec.ofNat 32
        ((e + 128).toNat * 2 ^ 24 + (⌊a * (2 : ℚ) ^ (24 - e)⌋.toNat % 2 ^ 23)
          + (if f64Value d < 0 then 2 ^ 23 else 0))))
  ∧ ∀ (d : DWord) (w : Word), f64Exp d ≠ 2047 → f64Value d ≠ 0 → xenc d = some w →
    let k : ℤ := (f64Exp d : ℤ) - 1023
    let gt1 : Prop := 0 < k ∨ (k = 0 ∧ f64Frac d ≠ 0)
    1 ≤ f64Exp d
    ∧ (gt1 → w = BitVec.ofNat 32
        ((k + 1 + 128).toNat * 2 ^ 24 + ((2 ^ 52 + f64Frac d) >>> 29) % 2 ^ 23 + (f64Sign d).toNat * 2 ^ 23))
    ∧ (¬ gt1 → w = BitVec.ofNat 32
        ((k + 128).toNat * 2 ^ 24 + ((2 ^ 52 + f64Frac d) >>> 28) % 2 ^ 23 + (f64Sign d).toNat * 2 ^ 23))

/-- R111 and R108: from every state with BUSY = 0, XENC ends with XEMICS_DOMAIN for a zero, an infinity or a NaN, with
XEMICS_RANGE for a finite non-zero magnitude outside `2^-128 <= a < 2^127`, every subnormal among them, and with the
word of `xenc` in RES for every other; an error leaves RES unchanged. That PHASE and SUB are unchanged at success is the
model's reading (log 8). -/
def Obligations.XencEndsByItsDomain : Prop :=
  ∀ s : State, s.busy = false →
    let d : DWord := (s.opaHi ++ s.opaLo : BitVec 64)
    let a := |f64Value d|
    ((f64Exp d = 2047 ∨ (f64Exp d = 0 ∧ f64Frac d = 0)) →
      exec .xenc s = .next { s with
        err := true, errcode := .xemicsDomain, done := true, op := 0x4, abortPending := false, reqOut := false,
        busy := false, irq := s.ie })
    ∧ (f64Exp d ≠ 2047 → ¬ (f64Exp d = 0 ∧ f64Frac d = 0) → ¬ ((2 : ℚ) ^ (-128 : ℤ) ≤ a ∧ a < 2 ^ 127) →
      exec .xenc s = .next { s with
        err := true, errcode := .xemicsRange, done := true, op := 0x4, abortPending := false, reqOut := false,
        busy := false, irq := s.ie })
    ∧ (f64Exp d ≠ 2047 → (2 : ℚ) ^ (-128 : ℤ) ≤ a → a < 2 ^ 127 →
      ∃ w, xenc d = some w ∧ exec .xenc s = .next { s with
        resLo := w, resHi := 0, done := true, err := false, errcode := .none, op := 0x4, irq := s.ie })
    ∧ (f64Exp d = 0 → a < (2 : ℚ) ^ (-1022 : ℤ))

/-- R112: for `1 < |v| < 2^127` the round trip is truncation toward zero to 24 significant bits, with relative error
below 2^-23, and it is exact when `v` has at most 24 significant bits. -/
def Obligations.XencRoundTripAboveOne : Prop :=
  ∀ (d : DWord) (k : ℤ), f64Exp d ≠ 2047 → 1 < |f64Value d| → |f64Value d| < 2 ^ 127 →
    (2 : ℚ) ^ k ≤ |f64Value d| → |f64Value d| < (2 : ℚ) ^ (k + 1) →
    ∃ w, xenc d = some w
      ∧ xemicsValue w
        = (if f64Value d < 0 then -1 else 1) * (⌊|f64Value d| * (2 : ℚ) ^ (23 - k)⌋ : ℚ) * (2 : ℚ) ^ (k - 23)
      ∧ |f64Value d - xemicsValue w| < (2 : ℚ) ^ (k - 23)
      ∧ (2 : ℚ) ^ (k - 23) ≤ |f64Value d| * (2 : ℚ) ^ (-23 : ℤ)
      ∧ ((∃ n m : ℤ, |n| < 2 ^ 24 ∧ f64Value d = n * (2 : ℚ) ^ m) → xemicsValue w = f64Value d)

/-- R113: for `2^-128 <= |v| <= 1` the formula does not round-trip: the decoded magnitude lies in
`2^(k-1) <= . < 2^k`, below `a`, with the sign kept; with the rule's examples 1.0, 0.75 and 0.4768. -/
def Obligations.XencAnomalyUpToOne : Prop :=
  (∀ (d : DWord) (k : ℤ), f64Exp d ≠ 2047 → (2 : ℚ) ^ (-128 : ℤ) ≤ |f64Value d| → |f64Value d| ≤ 1 →
    (2 : ℚ) ^ k ≤ |f64Value d| → |f64Value d| < (2 : ℚ) ^ (k + 1) →
    let m : ℤ := ⌊|f64Value d| * (2 : ℚ) ^ (24 - k)⌋
    2 ^ 24 ≤ m ∧ m < 2 ^ 25
    ∧ ∃ w, xenc d = some w
      ∧ |xemicsValue w| = (2 ^ 23 + ((m % 2 ^ 23 : ℤ) : ℚ)) * (2 : ℚ) ^ (k - 24)
      ∧ (2 : ℚ) ^ (k - 1) ≤ |xemicsValue w| ∧ |xemicsValue w| < (2 : ℚ) ^ k
      ∧ |xemicsValue w| < |f64Value d|
      ∧ (xemicsValue w < 0 ↔ f64Value d < 0))
  ∧ (xenc 0x3FF0000000000000 = some 0x80000000 ∧ xemicsValue 0x80000000 = 1 / 2)
  ∧ (xenc 0x3FE8000000000000 = some 0x7F000000 ∧ xemicsValue 0x7F000000 = 1 / 4)
  ∧ (xenc 0x3FDE83E425AEE632 = some 0x7E683E42
    ∧ 0.2267999947 ≤ xemicsValue 0x7E683E42 ∧ xemicsValue 0x7E683E42 < 0.2267999948)

/-! ## CALSEQ commands -/

/-- From every state with BUSY = 0 each CALSEQ command starts: its operands are latched, the poll count and the pending
bits are cleared, BUSY is set and the position is the command's entry (30_encoding.md R74, 42_calseq.md R133). -/
def Obligations.CalCommandsStart : Prop :=
  ∀ s : State, s.busy = false →
    ∀ c ∈ [(Instr.calEnter, (0x8 : BitVec 4), Phase.unseal1), (Instr.calExit, 0x9, Phase.exExit),
        (Instr.calCcOffset, 0xA, Phase.unseal1), (Instr.calBoardOffset, 0xB, Phase.unseal1)],
      exec c.1 s = .next { s with
        op := c.2.1, phase := c.2.2, sub := .s0, busy := true, done := false, err := false, errcode := .none,
        latMaxpoll := s.maxpoll, latKeys := s.keys, loopcnt := 0, abortPending := false, reqOut := false,
        irq := false }

/-- ABORT while BUSY sets `abort_pending` alone, and while idle has no effect (42_calseq.md R160). -/
def Obligations.AbortSetsAbortPending : Prop :=
  (∀ s : State, s.busy = true → exec .abort s = .next { s with abortPending := true })
  ∧ ∀ s : State, s.busy = false → exec .abort s = .next s

/-! ## The sequencer, step by step -/

/-- What each position sends (42_calseq.md R126, R127, R129, R134), every request written out. -/
def Obligations.RequestsOfThePositions : Prop :=
  ∀ s : State,
    (s.phase = .unseal1 → s.sub = .s0 →
      currentRequest s = some (.write 0x55 [0x00, s.latKeys.extractLsb' 0 8, s.latKeys.extractLsb' 8 8]))
    ∧ (s.phase = .unseal2 → s.sub = .s0 →
      currentRequest s = some (.write 0x55 [0x00, s.latKeys.extractLsb' 16 8, s.latKeys.extractLsb' 24 8]))
    ∧ (∀ c ∈ [(Phase.enWait, 1000), (Phase.exWait, 1000), (Phase.ofWait1, 1000), (Phase.ofWait2, 1000),
        (Phase.exSettle1, 150), (Phase.exSettle2, 150)],
        s.phase = c.1 → s.sub = .s0 → currentRequest s = some (.sleep c.2))
    ∧ (∀ c ∈ [(Phase.enCalen, (0x2D : Byte)), (Phase.enEnter, 0x81), (Phase.enPoll, 0x00), (Phase.exExit, 0x80),
        (Phase.exPoll, 0x00), (Phase.exReset, 0x41), (Phase.ofPoll1, 0x00), (Phase.ofPoll2, 0x00),
        (Phase.ofSave, 0x0B)], s.phase = c.1 →
        (s.sub = .s0 → currentRequest s = some (.write 0x55 [0x00, c.2, 0x00]))
        ∧ (s.sub = .s1 → currentRequest s = some (.write 0x55 [0x00]))
        ∧ (s.sub = .s2 → currentRequest s = some (.read 0x55 2)))
    ∧ ∀ c ∈ [((0xA : BitVec 4), (0x0A : Byte)), (0xB, 0x09)], s.phase = .ofCmd → s.op = c.1 →
        (s.sub = .s0 → currentRequest s = some (.write 0x55 [0x00, c.2, 0x00]))
        ∧ (s.sub = .s1 → currentRequest s = some (.write 0x55 [0x00]))
        ∧ (s.sub = .s2 → currentRequest s = some (.read 0x55 2))

/-- The issue step (42_calseq.md R130): BUSY, nothing outstanding and no abort pending, the Block sends its position's
request, on its turn or when no turn is left (log 1), and changes nothing but `req_out`. -/
def Obligations.IssueStepSendsTheRequest : Prop :=
  ∀ (s : State) (q : Request), s.busy = true → s.reqOut = false → s.abortPending = false →
    currentRequest s = some q →
    (s.schedule = [] → step s = .next { s with reqOut := true, requests := s.requests ++ [q] })
    ∧ ∀ rest, s.schedule = .block :: rest →
      step s = .next { s with reqOut := true, requests := s.requests ++ [q], schedule := rest }

/-- With an abort pending and no request outstanding, the Block's turn is the abort step, which ends the command with
ABORTED and the effects of error termination, no request sent (42_calseq.md R136, R130, 60_exceptions.md R171); it is
never taken while a request is outstanding. That the Block's turn then leaves everything as it was, a step the spec does
not name, is the model's reading (log 5). -/
def Obligations.AbortStepOnlyBetweenRequests : Prop :=
  (∀ (s : State) (rest : List Turn), s.busy = true → s.reqOut = false → s.abortPending = true →
    s.schedule = .block :: rest →
    step s = .next { s with
      schedule := rest, err := true, errcode := .aborted, busy := false, done := true, abortPending := false,
      reqOut := false, irq := s.ie })
  ∧ ∀ (s : State) (rest : List Turn), s.reqOut = true → s.schedule = .block :: rest →
    step s = .next { s with schedule := rest }

/-- A `bus_error` to a WRITE or READ, or a response of the wrong form for the outstanding request, ends the command with
BUS_ERROR at its position (60_exceptions.md R167), in the response step of 42_calseq.md R130 and with the effects of R171,
no request sent; a `bus_error` to a SLEEP is U17's. That `rsp_val` keeps its value is the model's reading (log 21). -/
def Obligations.WrongResponseEndsWithBusError : Prop :=
  ∀ (s : State) (rest : List Turn) (q : Request) (r : Response), s.busy = true → s.reqOut = true →
    currentRequest s = some q → s.schedule = .environment r :: rest →
    (r = .busError ∨ (q ≠ .read 0x55 2 ∧ ∃ b0 b1, r = .okData b0 b1) ∨ (q = .read 0x55 2 ∧ r = .ok)) →
    step s = .next { s with
      schedule := rest, err := true, errcode := .busError, busy := false, done := true, abortPending := false,
      reqOut := false, irq := s.ie }

/-- A response to an earlier SUB of a three-request phase only moves SUB on (42_calseq.md R126, R135). -/
def Obligations.EarlierSubMovesOn : Prop :=
  ∀ (s : State) (rest : List Turn), s.busy = true → s.reqOut = true → currentRequest s ≠ none →
    threeRequestPhase s.phase = true → s.schedule = .environment .ok :: rest →
    (s.sub = .s0 → step s = .next { s with schedule := rest, reqOut := false, sub := .s1 })
    ∧ (s.sub = .s1 → step s = .next { s with schedule := rest, reqOut := false, sub := .s2 })

/-- The rows of R135 for the phases of one request: the `ok` moves to the next phase, and that of EX_SETTLE2 completes
the command (R132). -/
def Obligations.OneRequestRows : Prop :=
  ∀ (s : State) (rest : List Turn), s.busy = true → s.reqOut = true → s.sub = .s0 →
    s.schedule = .environment .ok :: rest →
    (∀ c ∈ [(Phase.unseal1, Phase.unseal2), (Phase.unseal2, Phase.enCalen), (Phase.enWait, Phase.enPoll),
        (Phase.exWait, Phase.exPoll), (Phase.exSettle1, Phase.exReset), (Phase.ofWait1, Phase.ofPoll1),
        (Phase.ofWait2, Phase.ofPoll2)],
      s.phase = c.1 → step s = .next { s with schedule := rest, reqOut := false, phase := c.2 })
    ∧ (s.phase = .exSettle2 → step s = .next { s with
        schedule := rest, reqOut := false, resLo := s.csw.setWidth 32, resHi := 0, busy := false, done := true,
        phase := .idle, abortPending := false, irq := s.ie })

/-- The rows of R135 for the subcommand phases: the READ's response goes to `rsp_val` low byte first, and the position
to the next phase; that of OF_SAVE enters the exit loop with `loopcnt` 0. -/
def Obligations.SubcommandRows : Prop :=
  ∀ (s : State) (rest : List Turn) (b0 b1 : Byte), s.busy = true → s.reqOut = true → s.sub = .s2 →
    s.schedule = .environment (.okData b0 b1) :: rest →
    (∀ c ∈ [(Phase.enCalen, Phase.enEnter), (Phase.enEnter, Phase.enWait), (Phase.exExit, Phase.exWait),
        (Phase.exReset, Phase.exSettle2)],
      s.phase = c.1 → step s = .next { s with
        schedule := rest, reqOut := false, rspVal := (b1 ++ b0 : BitVec 16), phase := c.2, sub := .s0 })
    ∧ (s.phase = .ofCmd → s.op = 0xA ∨ s.op = 0xB → step s = .next { s with
        schedule := rest, reqOut := false, rspVal := (b1 ++ b0 : BitVec 16), phase := .ofWait1, sub := .s0 })
    ∧ (s.phase = .ofSave → step s = .next { s with
        schedule := rest, reqOut := false, rspVal := (b1 ++ b0 : BitVec 16), phase := .exExit, sub := .s0,
        loopcnt := 0 })

/-- The rows of R135 for a status poll whose until-condition holds: CSW takes the word received, and CAL_ENTER completes
(R132), or the next phase is entered, with `loopcnt` 0 at each new loop. -/
def Obligations.MetPollRows : Prop :=
  ∀ (s : State) (rest : List Turn) (b0 b1 : Byte), s.busy = true → s.reqOut = true → s.sub = .s2 →
    s.schedule = .environment (.okData b0 b1) :: rest →
    let v : Half := (b1 ++ b0 : BitVec 16)
    let p : State := { s with schedule := rest, reqOut := false, rspVal := v, csw := v, sub := .s0 }
    (s.phase = .enPoll → s.op = 0x8 → v.getLsbD 12 = true → step s = .next { p with
        resLo := v.setWidth 32, resHi := 0, busy := false, done := true, phase := .idle, abortPending := false,
        irq := s.ie })
    ∧ (s.phase = .enPoll → s.op = 0xA ∨ s.op = 0xB → v.getLsbD 12 = true →
        step s = .next { p with phase := .ofCmd, loopcnt := 0 })
    ∧ (s.phase = .exPoll → v.getLsbD 12 = false → step s = .next { p with phase := .exSettle1 })
    ∧ (s.phase = .ofPoll1 → s.op = 0xA → v.getLsbD 11 = true →
        step s = .next { p with phase := .ofWait2, loopcnt := 0 })
    ∧ (s.phase = .ofPoll1 → s.op = 0xB → (v.getLsbD 11 = true ∨ v.getLsbD 10 = true) →
        step s = .next { p with phase := .ofWait2, loopcnt := 0 })
    ∧ (s.phase = .ofPoll2 → s.op = 0xA → v.getLsbD 11 = false → step s = .next { p with phase := .ofSave })
    ∧ (s.phase = .ofPoll2 → s.op = 0xB → v.getLsbD 11 = false → v.getLsbD 10 = false →
        step s = .next { p with phase := .ofSave })

/-- The rows of R135 for a status poll whose until-condition fails, with the failed-poll step of R138: CSW takes the
word, `loopcnt` goes up by one and saturates at 0xFFFF; at a set bound the command ends with CAL_TIMEOUT at the poll,
SUB 2, and below it the loop starts again at its head. -/
def Obligations.FailedPollRows : Prop :=
  ∀ (s : State) (rest : List Turn) (b0 b1 : Byte), s.busy = true → s.reqOut = true → s.sub = .s2 →
    s.schedule = .environment (.okData b0 b1) :: rest →
    let v : Half := (b1 ++ b0 : BitVec 16)
    let n : Nat := min (s.loopcnt.toNat + 1) 0xFFFF
    let p : State :=
      { s with schedule := rest, reqOut := false, rspVal := v, csw := v, loopcnt := BitVec.ofNat 16 n }
    ∀ c ∈ [(Phase.enPoll, Phase.enCalen, v.getLsbD 12 = false), (Phase.exPoll, Phase.exExit, v.getLsbD 12 = true),
        (Phase.ofPoll1, Phase.ofCmd, (s.op = 0xA ∧ v.getLsbD 11 = false)
          ∨ (s.op = 0xB ∧ v.getLsbD 11 = false ∧ v.getLsbD 10 = false)),
        (Phase.ofPoll2, Phase.ofWait2, (s.op = 0xA ∧ v.getLsbD 11 = true)
          ∨ (s.op = 0xB ∧ (v.getLsbD 11 = true ∨ v.getLsbD 10 = true)))],
      s.phase = c.1 → c.2.2 →
      (s.latMaxpoll.toNat ≠ 0 ∧ s.latMaxpoll.toNat ≤ n → step s = .next { p with
        err := true, errcode := .calTimeout, busy := false, done := true, abortPending := false, irq := s.ie })
      ∧ (s.latMaxpoll.toNat = 0 ∨ n < s.latMaxpoll.toNat → step s = .next { p with phase := c.2.1, sub := .s0 })

/-! ## The sequencer, whole runs -/

/-- CAL_ENTER with CALEN first set at poll `n` (`n - 1` polls fail, below a set bound): it completes, having sent exactly
the unseal and `n` times the ten requests of an iteration, `2 + 10n` in all (42_calseq.md R141, R142). -/
def Obligations.CalEnterCompletes : Prop :=
  ∀ (s : State) (failed : List EnterRound) (last : EnterRound) (rest : List Turn), s.busy = false →
    (∀ r ∈ failed, r.poll.getLsbD 12 = false) → last.poll.getLsbD 12 = true →
    (s.maxpoll.toNat = 0 ∨ failed.length < s.maxpoll.toNat) →
    s.schedule = .host (.write 0x00 4 0x00000008)
      :: (unsealTurns ++ (failed ++ [last]).flatMap EnterRound.turns ++ rest) →
    (Sys2Proof.core.run (1 + 2 * (2 + 10 * (failed.length + 1))) s : Host.Outcome State Fault Refusal)
      = .next { s with
        busy := false, done := true, err := false, errcode := .none, phase := .idle, sub := .s0, op := 0x8,
        resLo := last.poll.setWidth 32, resHi := 0, csw := last.poll, rspVal := last.poll,
        loopcnt := BitVec.ofNat 16 (min failed.length 0xFFFF), latMaxpoll := s.maxpoll, latKeys := s.keys,
        reqOut := false, abortPending := false, irq := s.ie, schedule := rest,
        requests := s.requests ++ unsealRequests s.keys ++ repeated (failed.length + 1) enterRequests,
        answers := s.answers ++ [.ok] }

/-- CAL_ENTER with MAXPOLL = `N > 0` and CALEN clear at every poll ends with CAL_TIMEOUT at the `N`th failed poll, at
EN_POLL, SUB 2, after `2 + 10N` requests; RES keeps its value (42_calseq.md R139, R141). -/
def Obligations.CalEnterTimesOut : Prop :=
  ∀ (s : State) (failed : List EnterRound) (last : EnterRound) (rest : List Turn), s.busy = false →
    (∀ r ∈ failed, r.poll.getLsbD 12 = false) → last.poll.getLsbD 12 = false →
    s.maxpoll.toNat = failed.length + 1 →
    s.schedule = .host (.write 0x00 4 0x00000008)
      :: (unsealTurns ++ (failed ++ [last]).flatMap EnterRound.turns ++ rest) →
    (Sys2Proof.core.run (1 + 2 * (2 + 10 * (failed.length + 1))) s : Host.Outcome State Fault Refusal)
      = .next { s with
        busy := false, done := true, err := true, errcode := .calTimeout, phase := .enPoll, sub := .s2, op := 0x8,
        csw := last.poll, rspVal := last.poll, loopcnt := s.maxpoll, latMaxpoll := s.maxpoll, latKeys := s.keys,
        reqOut := false, abortPending := false, irq := s.ie, schedule := rest,
        requests := s.requests ++ unsealRequests s.keys ++ repeated (failed.length + 1) enterRequests,
        answers := s.answers ++ [.ok] }

/-- CAL_EXIT with CALEN first clear at poll `n`: it completes, having sent exactly `n` times the seven requests of an
iteration and then settle, reset, settle, `7n + 5` in all, and no unseal (42_calseq.md R142, R145). -/
def Obligations.CalExitCompletes : Prop :=
  ∀ (s : State) (failed : List CommandRound) (last : CommandRound) (resetWord : Half) (rest : List Turn),
    s.busy = false → (∀ r ∈ failed, r.poll.getLsbD 12 = true) → last.poll.getLsbD 12 = false →
    (s.maxpoll.toNat = 0 ∨ failed.length < s.maxpoll.toNat) →
    s.schedule = .host (.write 0x00 4 0x00000009)
      :: ((failed ++ [last]).flatMap CommandRound.turns ++ settleTurns resetWord ++ rest) →
    (Sys2Proof.core.run (1 + 2 * (7 * (failed.length + 1) + 5)) s : Host.Outcome State Fault Refusal)
      = .next { s with
        busy := false, done := true, err := false, errcode := .none, phase := .idle, sub := .s0, op := 0x9,
        resLo := last.poll.setWidth 32, resHi := 0, csw := last.poll, rspVal := resetWord,
        loopcnt := BitVec.ofNat 16 (min failed.length 0xFFFF), latMaxpoll := s.maxpoll, latKeys := s.keys,
        reqOut := false, abortPending := false, irq := s.ie, schedule := rest,
        requests := s.requests ++ repeated (failed.length + 1) (commandLoopRequests 0x0080) ++ settleRequests,
        answers := s.answers ++ [.ok] }

/-- CAL_CC_OFFSET and CAL_BOARD_OFFSET with their four loops met at polls `n1`, `n2`, `n3`, `n4`, each below a set
bound: the command completes, having sent exactly the requests of R149 and R153 in order,
`10 + 10·n1 + 7·n2 + 4·n3 + 7·n4` in all (42_calseq.md R142). -/
def Obligations.OffsetCommandsComplete : Prop :=
  ∀ (s : State) (op : BitVec 4) (code mask : Half) (en : List EnterRound) (enLast : EnterRound)
    (set : List CommandRound) (setLast : CommandRound) (clear : List Half) (clearLast : Half) (saveWord : Half)
    (ex : List CommandRound) (exLast : CommandRound) (resetWord : Half) (rest : List Turn), s.busy = false →
    ((op = 0xA ∧ code = 0x000A ∧ mask = 0x0800) ∨ (op = 0xB ∧ code = 0x0009 ∧ mask = 0x0C00)) →
    (∀ r ∈ en, r.poll.getLsbD 12 = false) → enLast.poll.getLsbD 12 = true →
    (∀ r ∈ set, r.poll &&& mask = 0) → setLast.poll &&& mask ≠ 0 →
    (∀ v ∈ clear, v &&& mask ≠ 0) → clearLast &&& mask = 0 →
    (∀ r ∈ ex, r.poll.getLsbD 12 = true) → exLast.poll.getLsbD 12 = false →
    (s.maxpoll.toNat = 0 ∨ (en.length < s.maxpoll.toNat ∧ set.length < s.maxpoll.toNat
      ∧ clear.length < s.maxpoll.toNat ∧ ex.length < s.maxpoll.toNat)) →
    s.schedule = .host (.write 0x00 4 (op.setWidth 32))
      :: (unsealTurns ++ (en ++ [enLast]).flatMap EnterRound.turns
        ++ (set ++ [setLast]).flatMap CommandRound.turns ++ (clear ++ [clearLast]).flatMap clearTurns
        ++ subcommandTurns saveWord
        ++ (ex ++ [exLast]).flatMap CommandRound.turns ++ settleTurns resetWord ++ rest) →
    (Sys2Proof.core.run (1 + 2 * (10 + 10 * (en.length + 1) + 7 * (set.length + 1) + 4 * (clear.length + 1)
        + 7 * (ex.length + 1))) s : Host.Outcome State Fault Refusal)
      = .next { s with
        busy := false, done := true, err := false, errcode := .none, phase := .idle, sub := .s0, op := op,
        resLo := exLast.poll.setWidth 32, resHi := 0, csw := exLast.poll, rspVal := resetWord,
        loopcnt := BitVec.ofNat 16 (min ex.length 0xFFFF), latMaxpoll := s.maxpoll, latKeys := s.keys,
        reqOut := false, abortPending := false, irq := s.ie, schedule := rest,
        requests := s.requests ++ unsealRequests s.keys ++ repeated (en.length + 1) enterRequests
          ++ repeated (set.length + 1) (commandLoopRequests code) ++ repeated (clear.length + 1) clearRequests
          ++ subcommandRequests 0x000B ++ repeated (ex.length + 1) (commandLoopRequests 0x0080) ++ settleRequests,
        answers := s.answers ++ [.ok] }

/-- The request counts of 42_calseq.md R142, of what the runs themselves append to the requests: CAL_ENTER with CALEN
first set at poll `n`, CAL_EXIT with CALEN first clear at poll `n`, and the offset commands with their loops met at polls
`n1` to `n4`; in all, and the SLEEP(1000) and SLEEP(150) among them. -/
def Obligations.RequestCounts : Prop :=
  (∀ (s : State) (failed : List EnterRound) (last : EnterRound) (rest : List Turn), s.busy = false →
    (∀ r ∈ failed, r.poll.getLsbD 12 = false) → last.poll.getLsbD 12 = true →
    (s.maxpoll.toNat = 0 ∨ failed.length < s.maxpoll.toNat) →
    s.schedule = .host (.write 0x00 4 0x00000008)
      :: (unsealTurns ++ (failed ++ [last]).flatMap EnterRound.turns ++ rest) →
    let n := failed.length + 1
    ∃ (t : State) (q : List Request),
      (Sys2Proof.core.run (1 + 2 * (2 + 10 * n)) s : Host.Outcome State Fault Refusal) = .next t
      ∧ t.busy = false ∧ t.done = true ∧ t.err = false ∧ t.requests = s.requests ++ q
      ∧ q.length = 2 + 10 * n ∧ q.count (.sleep 1000) = n ∧ q.count (.sleep 150) = 0)
  ∧ (∀ (s : State) (failed : List CommandRound) (last : CommandRound) (resetWord : Half) (rest : List Turn),
    s.busy = false → (∀ r ∈ failed, r.poll.getLsbD 12 = true) → last.poll.getLsbD 12 = false →
    (s.maxpoll.toNat = 0 ∨ failed.length < s.maxpoll.toNat) →
    s.schedule = .host (.write 0x00 4 0x00000009)
      :: ((failed ++ [last]).flatMap CommandRound.turns ++ settleTurns resetWord ++ rest) →
    let n := failed.length + 1
    ∃ (t : State) (q : List Request),
      (Sys2Proof.core.run (1 + 2 * (7 * n + 5)) s : Host.Outcome State Fault Refusal) = .next t
      ∧ t.busy = false ∧ t.done = true ∧ t.err = false ∧ t.requests = s.requests ++ q
      ∧ q.length = 7 * n + 5 ∧ q.count (.sleep 1000) = n ∧ q.count (.sleep 150) = 2)
  ∧ ∀ (s : State) (op : BitVec 4) (mask : Half) (en : List EnterRound) (enLast : EnterRound)
    (set : List CommandRound) (setLast : CommandRound) (clear : List Half) (clearLast : Half) (saveWord : Half)
    (ex : List CommandRound) (exLast : CommandRound) (resetWord : Half) (rest : List Turn), s.busy = false →
    ((op = 0xA ∧ mask = 0x0800) ∨ (op = 0xB ∧ mask = 0x0C00)) →
    (∀ r ∈ en, r.poll.getLsbD 12 = false) → enLast.poll.getLsbD 12 = true →
    (∀ r ∈ set, r.poll &&& mask = 0) → setLast.poll &&& mask ≠ 0 →
    (∀ v ∈ clear, v &&& mask ≠ 0) → clearLast &&& mask = 0 →
    (∀ r ∈ ex, r.poll.getLsbD 12 = true) → exLast.poll.getLsbD 12 = false →
    (s.maxpoll.toNat = 0 ∨ (en.length < s.maxpoll.toNat ∧ set.length < s.maxpoll.toNat
      ∧ clear.length < s.maxpoll.toNat ∧ ex.length < s.maxpoll.toNat)) →
    s.schedule = .host (.write 0x00 4 (op.setWidth 32))
      :: (unsealTurns ++ (en ++ [enLast]).flatMap EnterRound.turns
        ++ (set ++ [setLast]).flatMap CommandRound.turns ++ (clear ++ [clearLast]).flatMap clearTurns
        ++ subcommandTurns saveWord
        ++ (ex ++ [exLast]).flatMap CommandRound.turns ++ settleTurns resetWord ++ rest) →
    let n1 := en.length + 1
    let n2 := set.length + 1
    let n3 := clear.length + 1
    let n4 := ex.length + 1
    ∃ (t : State) (q : List Request),
      (Sys2Proof.core.run (1 + 2 * (10 + 10 * n1 + 7 * n2 + 4 * n3 + 7 * n4)) s : Host.Outcome State Fault Refusal)
        = .next t
      ∧ t.busy = false ∧ t.done = true ∧ t.err = false ∧ t.requests = s.requests ++ q
      ∧ q.length = 10 + 10 * n1 + 7 * n2 + 4 * n3 + 7 * n4
      ∧ q.count (.sleep 1000) = n1 + n2 + n3 + n4 ∧ q.count (.sleep 150) = 2

/-! ## The host port -/

/-- R52: an access is legal exactly in the two cases of the rule; an illegal one is answered `access_error` and changes
no state of BQCORE, and a legal one is never so answered. -/
def Obligations.IllegalAccessChangesNothing : Prop :=
  ∀ (s : State) (a : HostAccess) (off : Offset) (n : Nat) (rest : List Turn),
    (a = .read off n ∨ ∃ v, a = .write off n v) → s.schedule = .host a :: rest →
    (¬ ((n = 4 ∧ off.toNat % 4 = 0) ∨ (n = 1 ∧ 0x40 ≤ off.toNat ∧ off.toNat ≤ 0x5F)) →
      step s = .next { s with schedule := rest, answers := s.answers ++ [.accessError] })
    ∧ (((n = 4 ∧ off.toNat % 4 = 0) ∨ (n = 1 ∧ 0x40 ≤ off.toNat ∧ off.toNat ≤ 0x5F)) →
      ∃ t x, step s = .next t ∧ t.answers = s.answers ++ [x] ∧ x ≠ .accessError)

/-- No read has a side effect (20_memory.md R57): a read of any offset and width takes its turn, is answered, and changes
nothing else. -/
def Obligations.ReadsHaveNoSideEffect : Prop :=
  ∀ (s : State) (off : Offset) (n : Nat) (rest : List Turn), s.schedule = .host (.read off n) :: rest →
    ∃ x, step s = .next { s with schedule := rest, answers := s.answers ++ [x] }

/-- What a 4-byte read of each register returns (20_memory.md R61, R53, R54), the reserved offsets among them. -/
def Obligations.ReadsReturnTheRegisters : Prop :=
  ∀ (s : State) (rest : List Turn) (off : Offset), s.schedule = .host (.read off 4) :: rest →
    let answered (v : Word) : Prop := step s = .next { s with schedule := rest, answers := s.answers ++ [.data4 v] }
    (off = 0x00 → answered 0) ∧ (off = 0x04 → answered (statusWord s))
    ∧ (off = 0x08 → answered s.opaLo) ∧ (off = 0x0C → answered s.opaHi)
    ∧ (off = 0x10 → answered s.resLo) ∧ (off = 0x14 → answered s.resHi)
    ∧ (off = 0x18 → answered (BitVec.ofNat 32 (s.ie.toNat * 2 ^ 16 + s.maxpoll.toNat)))
    ∧ (off = 0x1C → answered (BitVec.ofNat 32 s.csw.toNat)) ∧ (off = 0x20 → answered s.keys)
    ∧ (off = 0x24 → answered (BitVec.ofNat 32 s.loopcnt.toNat))
    ∧ (off.toNat % 4 = 0 → (0x28 ≤ off.toNat ∧ off.toNat ≤ 0x3F) ∨ 0x60 ≤ off.toNat → answered 0)
    ∧ (off.toNat % 4 = 0 → 0x40 ≤ off.toNat → off.toNat ≤ 0x5C →
      answered (BitVec.ofNat 32 ((s.blk.read off.toNat).toNat + (s.blk.read (off.toNat + 1)).toNat * 2 ^ 8
        + (s.blk.read (off.toNat + 2)).toNat * 2 ^ 16 + (s.blk.read (off.toNat + 3)).toNat * 2 ^ 24)))

/-- The layout of STATUS (10_state.md R23), with the codes of PHASE, SUB and ERRCODE (42_calseq.md R134,
60_exceptions.md R165) and REQ and ABRTP as mirrors (R29). -/
def Obligations.StatusLayout : Prop :=
  (∀ s : State,
    let v := statusWord s
    v.getLsbD 0 = s.busy ∧ v.getLsbD 1 = s.done ∧ v.getLsbD 2 = s.err ∧ v.getLsbD 3 = s.ovr
    ∧ v.extractLsb' 4 4 = s.errcode.code ∧ v.extractLsb' 8 8 = s.phase.code ∧ v.extractLsb' 16 2 = s.sub.code
    ∧ v.getLsbD 18 = s.abortPending ∧ v.getLsbD 19 = s.reqOut ∧ v.extractLsb' 20 4 = 0
    ∧ v.extractLsb' 24 4 = s.op ∧ v.extractLsb' 28 4 = 0)
  ∧ [Phase.idle, .unseal1, .unseal2, .enCalen, .enEnter, .enWait, .enPoll, .exExit, .exWait, .exPoll, .exSettle1,
      .exReset, .exSettle2, .ofCmd, .ofWait1, .ofPoll1, .ofWait2, .ofPoll2, .ofSave].map (fun p => p.code.toNat)
    = [0x00, 0x01, 0x02, 0x10, 0x11, 0x12, 0x13, 0x20, 0x21, 0x22, 0x23, 0x24, 0x25, 0x30, 0x31, 0x32, 0x33, 0x34, 0x35]
  ∧ [SubStep.s0, .s1, .s2].map (fun b => b.code.toNat) = [0, 1, 2]
  ∧ [ErrorCode.none, .illegalCmd, .xemicsDomain, .xemicsRange, .busError, .calTimeout, .aborted].map
      (fun c => c.code.toNat) = [0, 1, 2, 3, 4, 5, 6]

/-- What a 4-byte write of each register but CMD and BLK does (20_memory.md R61): write-1-to-clear in STATUS, the
fields of CTRL with IRQ in the same step, plain OPA and KEYS, and no effect on read-only registers and reserved
offsets. -/
def Obligations.RegisterWrites : Prop :=
  ∀ (s : State) (rest : List Turn) (off : Offset) (v : Word), s.schedule = .host (.write off 4 v) :: rest →
    let p : State := { s with schedule := rest, answers := s.answers ++ [.ok] }
    (off = 0x04 → step s = .next { p with
      done := s.done && !v.getLsbD 1, ovr := s.ovr && !v.getLsbD 3, irq := (s.done && !v.getLsbD 1) && s.ie })
    ∧ (off = 0x08 → step s = .next { p with opaLo := v }) ∧ (off = 0x0C → step s = .next { p with opaHi := v })
    ∧ (off = 0x18 → step s = .next { p with
      maxpoll := v.extractLsb' 0 16, ie := v.getLsbD 16, irq := s.done && v.getLsbD 16 })
    ∧ (off = 0x20 → step s = .next { p with keys := v })
    ∧ (off ∈ [0x10, 0x14, 0x1C, 0x24] → step s = .next p)
    ∧ (off.toNat % 4 = 0 → (0x28 ≤ off.toNat ∧ off.toNat ≤ 0x3F) ∨ 0x60 ≤ off.toNat → step s = .next p)

/-- A word write in the BLK window (20_memory.md R53): byte `BLK[4j + i]` takes bits `8i+7 : 8i`, every other byte is as
before, a read back gives the word, and nothing but BLK changes. The premise is the canonical form of BLK. -/
def Obligations.BlkWordWriteIsLittleEndian : Prop :=
  ∀ (s : State) (rest : List Turn) (j : Fin 8) (v : Word), s.blk.wf = true →
    s.schedule = .host (.write (BitVec.ofNat 7 (0x40 + 4 * j.val)) 4 v) :: rest →
    ∃ m : Memory, step s = .next { s with schedule := rest, answers := s.answers ++ [.ok], blk := m }
      ∧ m.wf = true ∧ m.readWord (0x40 + 4 * j.val) = v
      ∧ (∀ i : Fin 4, Memory.read m (0x40 + 4 * j.val + i.val) = v.extractLsb' (8 * i.val) 8)
      ∧ ∀ a, a < 0x40 + 4 * j.val ∨ 0x40 + 4 * j.val + 3 < a → Memory.read m a = s.blk.read a

/-- A byte access in the BLK window (20_memory.md R61): a write changes that byte alone to `v[7:0]`, and a read returns
it. The premise is the canonical form of BLK. -/
def Obligations.BlkByteAccess : Prop :=
  ∀ (s : State) (rest : List Turn) (i : Fin 32), s.blk.wf = true →
    (∀ v : Word, s.schedule = .host (.write (BitVec.ofNat 7 (0x40 + i.val)) 1 v) :: rest →
      ∃ m : Memory, step s = .next { s with schedule := rest, answers := s.answers ++ [.ok], blk := m }
        ∧ m.wf = true ∧ ∀ a, Memory.read m a = if a = 0x40 + i.val then v.extractLsb' 0 8 else s.blk.read a)
    ∧ (s.schedule = .host (.read (BitVec.ofNat 7 (0x40 + i.val)) 1) :: rest →
      step s = .next { s with
        schedule := rest, answers := s.answers ++ [.data1 (s.blk.read (0x40 + i.val))] })

/-! ## Reset -/

/-- R191: the reset event sets every element of BQCORE to its reset value, KEYS and `lat_keys` to `P_KEYS_RESET`, from
whatever state; and the state after reset has those values. The turns to come and what was observed are kept (log 11). -/
def Obligations.ResetValues : Prop :=
  (∀ (s : State) (rest : List Turn), s.schedule = .assertReset :: rest →
    step s = .next { State.reset with schedule := rest, requests := s.requests, answers := s.answers })
  ∧ statusWord State.reset = 0x00000000
  ∧ State.reset.busy = false ∧ State.reset.done = false ∧ State.reset.err = false ∧ State.reset.ovr = false
  ∧ State.reset.errcode = .none ∧ State.reset.phase = .idle ∧ State.reset.sub = .s0 ∧ State.reset.op = 0
  ∧ State.reset.opaLo = 0 ∧ State.reset.opaHi = 0 ∧ State.reset.resLo = 0 ∧ State.reset.resHi = 0
  ∧ State.reset.maxpoll = 0 ∧ State.reset.ie = false ∧ State.reset.csw = 0
  ∧ State.reset.keys = Config.keysReset ∧ State.reset.latKeys = Config.keysReset
  ∧ State.reset.loopcnt = 0 ∧ State.reset.latMaxpoll = 0 ∧ State.reset.rspVal = 0
  ∧ State.reset.reqOut = false ∧ State.reset.abortPending = false ∧ State.reset.irq = false
  ∧ ∀ i : Fin 32, State.reset.blk.read (0x40 + i.val) = 0x00

/-- A response that arrives while no request is outstanding is discarded with no effect (10_state.md R41), so one that
arrives after a reset is (70_reset_and_hazards.md R192). That a reset keeps the turns to come and what was observed, in
the second clause, is the model's choice (log 11). -/
def Obligations.LateResponseIsDiscarded : Prop :=
  (∀ (s : State) (r : Response) (rest : List Turn), s.reqOut = false → s.schedule = .environment r :: rest →
    step s = .next { s with schedule := rest })
  ∧ ∀ (s : State) (r : Response) (rest : List Turn), s.schedule = .assertReset :: .environment r :: rest →
    (Sys2Proof.core.run 2 s : Host.Outcome State Fault Refusal)
      = .next { State.reset with schedule := rest, requests := s.requests, answers := s.answers }

/-! ## Rules of the whole machine -/

/-- The state after reset has the invariant of Safety.lean. -/
def Obligations.ResetHasTheInvariant : Prop := State.reset.Inv

/-- Every step keeps the invariant: BLK's canonical form, IRQ = DONE & IE, ERR with ERRCODE, SUB 0 outside the phases of
three requests, a running command at a phase of its own and not ended, requests and aborts only while BUSY, the
outstanding request the last one issued and that of the position, and failed polls below a set bound. -/
def Obligations.StepKeepsTheInvariant : Prop := ∀ s t : State, s.Inv → step s = .next t → t.Inv

/-- Every run from a state with the invariant goes on for ever, whatever the Host, the Environment and RST do
(20_memory.md R58): every step answers a next state. The positions for which the table of R135 has no row are never met
(42_calseq.md R134, log 6). That a turn with nothing enabled is a next state (log 5), and that a run goes on after an
illegal host access (log 9), are the model's readings. -/
def Obligations.RunsNeverStop : Prop := ∀ s : State, s.Inv → SafeFrom s

/-- A step sends at most one request, only while BUSY with none outstanding and no abort pending, and only to control
address 0x00 of bus address 0x55, a 2-byte read, or a sleep (20_memory.md R51, R63, 10_state.md R40). -/
def Obligations.OneRequestAtATimeToControl : Prop :=
  ∀ s t : State, step s = .next t →
    (t.requests = s.requests ∧ (s.reqOut = false → t.reqOut = false))
    ∨ ∃ q, t.requests = s.requests ++ [q] ∧ controlOnly q = true ∧ s.busy = true ∧ s.reqOut = false
      ∧ s.abortPending = false ∧ t.reqOut = true ∧ t.busy = true ∧ t.phase = s.phase ∧ t.sub = s.sub

/-- A step with no command running and no command word submitted sends no request, starts nothing and ends nothing, so
an idle BQCORE does nothing until the Host writes CMD (70_reset_and_hazards.md R193); so does every run of such steps. -/
def Obligations.IdleBlockSendsNothing : Prop :=
  ∀ (k : Nat) (s t : State), s.busy = false →
    (∀ u ∈ s.schedule, ∀ w, u ≠ .host (.write 0x00 4 w)) →
    (Sys2Proof.core.run k s : Host.Outcome State Fault Refusal) = .next t →
    t.busy = false ∧ t.requests = s.requests ∧ (t.done = true → s.done = true)

/-- CSW changes only in reset, or in the response step of a status poll's READ, where it takes the word received
(10_state.md R34, 42_calseq.md R128). -/
def Obligations.CswWrittenOnlyByStatusPolls : Prop :=
  ∀ s t : State, step s = .next t → t.csw ≠ s.csw →
    s.schedule.head? = some .assertReset
    ∨ ∃ b0 b1, s.schedule.head? = some (.environment (.okData b0 b1)) ∧ pollPhase s.phase = true ∧ s.sub = .s2
      ∧ s.busy = true ∧ s.reqOut = true ∧ t.csw = (b1 ++ b0 : BitVec 16)

/-- The Host never writes the position (10_state.md R45): among its accesses only the submission of a CALSEQ command while
idle moves it. R45 says that accepting a command changes it; that the acceptance of a CSUM, an XCODEC or an illegal word
does not is the model's reading (log 8). -/
def Obligations.HostMovesThePositionOnlyByStarting : Prop :=
  ∀ (s t : State) (a : HostAccess), s.schedule.head? = some (.host a) → step s = .next t →
    (t.phase ≠ s.phase ∨ t.sub ≠ s.sub) →
    s.busy = false ∧ t.busy = true
      ∧ ∃ w ∈ [(0x00000008 : Word), 0x00000009, 0x0000000A, 0x0000000B], a = .write 0x00 4 w

/-- No command, no sequencer step and no response writes BLK, OPA, CTRL or KEYS: a step that changes one of them is a
Host write that is not of CMD, or reset (10_state.md R31, R37, 42_calseq.md R125). -/
def Obligations.OperandsWrittenOnlyByTheHost : Prop :=
  ∀ s t : State, step s = .next t →
    (t.blk ≠ s.blk ∨ t.opaLo ≠ s.opaLo ∨ t.opaHi ≠ s.opaHi ∨ t.maxpoll ≠ s.maxpoll ∨ t.ie ≠ s.ie
      ∨ t.keys ≠ s.keys) →
    s.schedule.head? = some .assertReset
    ∨ ∃ off n v, s.schedule.head? = some (.host (.write off n v)) ∧ off ≠ 0x00

/-- R42: IRQ is DONE & IE after every step from a state in which it is, and is 0 at reset. -/
def Obligations.IrqFollowsDoneAndIe : Prop :=
  (∀ s t : State, s.irq = (s.done && s.ie) → step s = .next t → t.irq = (t.done && t.ie))
  ∧ State.reset.irq = false

/-- R28: OP is set to `w[3:0]` when a word other than ABORT is accepted, illegal words among them, and nothing but that
and reset changes it. -/
def Obligations.OpRecordsAcceptedWords : Prop :=
  ∀ s t : State, step s = .next t →
    (∀ w : Word, s.schedule.head? = some (.host (.write 0x00 4 w)) → s.busy = false → w ≠ 0x0000000F →
      t.op = w.extractLsb' 0 4)
    ∧ (t.op ≠ s.op → s.schedule.head? = some .assertReset
      ∨ ∃ w : Word, s.schedule.head? = some (.host (.write 0x00 4 w)) ∧ s.busy = false ∧ w ≠ 0x0000000F)

/-- RES changes only in the step in which a command ends without an error, or in reset (10_state.md R32, 20_memory.md
R64): with a command running, in the response step that completes it, which leaves ERR as it was, so 0 in every state
with the invariant; with none, in the step of the write to CMD of one of the four words of CSUM and XCODEC. -/
def Obligations.ResWrittenOnlyAtSuccess : Prop :=
  ∀ s t : State, step s = .next t → (t.resLo ≠ s.resLo ∨ t.resHi ≠ s.resHi) →
    s.schedule.head? = some .assertReset ∨ (t.done = true ∧ t.busy = false
      ∧ ((s.busy = true ∧ s.reqOut = true ∧ (∃ r, s.schedule.head? = some (.environment r)) ∧ t.phase = .idle
          ∧ t.sub = .s0 ∧ t.err = s.err ∧ (s.Inv → t.err = false))
        ∨ (s.busy = false ∧ t.err = false ∧ t.errcode = .none
          ∧ ∃ w ∈ [(0x00000001 : Word), 0x00000002, 0x00000003, 0x00000004],
            s.schedule.head? = some (.host (.write 0x00 4 w)))))

/-- BUSY goes up only in the step that accepts a CALSEQ word, and goes down only in a step that ends the command, with
DONE set, or in reset; while it stays 1 the latched operands and OP are kept (10_state.md R24, R38,
70_reset_and_hazards.md R207). -/
def Obligations.BusyFromAcceptanceToEnd : Prop :=
  ∀ s t : State, step s = .next t →
    (s.busy = false → t.busy = true →
      ∃ w ∈ [(0x00000008 : Word), 0x00000009, 0x0000000A, 0x0000000B],
        s.schedule.head? = some (.host (.write 0x00 4 w)))
    ∧ (s.busy = true → t.busy = false →
      s.schedule.head? = some .assertReset ∨ (t.done = true ∧ t.reqOut = false ∧ t.abortPending = false))
    ∧ (s.busy = true → t.busy = true →
      t.latMaxpoll = s.latMaxpoll ∧ t.latKeys = s.latKeys ∧ t.op = s.op)

/-- DONE is set only in a step that ends an accepted command, and cleared only by accepting a word other than ABORT, by
a write of STATUS with bit 1 set, or by reset; a submitted ABORT never changes it (10_state.md R25). -/
def Obligations.DoneSetAndCleared : Prop :=
  ∀ s t : State, step s = .next t →
    (s.done = false → t.done = true → t.busy = false
      ∧ (s.busy = true ∨ ∃ w : Word, s.schedule.head? = some (.host (.write 0x00 4 w)) ∧ w ≠ 0x0000000F))
    ∧ (s.done = true → t.done = false → s.schedule.head? = some .assertReset
      ∨ (∃ v : Word, s.schedule.head? = some (.host (.write 0x04 4 v)) ∧ v.getLsbD 1 = true)
      ∨ ∃ w : Word, s.schedule.head? = some (.host (.write 0x00 4 w)) ∧ s.busy = false ∧ w ≠ 0x0000000F)
    ∧ (s.schedule.head? = some (.host (.write 0x00 4 0x0000000F)) → t.done = s.done)

/-- A sequencer step is a function of the sequencer's own view alone: two states that differ only in OVR, OPA, CTRL,
KEYS, BLK, IRQ, the answers and the turns after the next take the same Block or Environment turn to the same view, the
same request sent (42_calseq.md R125, 20_memory.md R66). -/
def Obligations.SequencerSeesOnlyItsOwnState : Prop :=
  ∀ (s s' : State) (u : Turn) (rest rest' : List Turn), (u = .block ∨ ∃ r, u = .environment r) →
    seqView s = seqView s' → s.schedule = u :: rest → s'.schedule = u :: rest' →
    outcomeView (step s) = outcomeView (step s')

/-- While a command runs, no access of the Host but the submission of ABORT changes anything the sequencer sees, from
every state with the invariant (10_state.md R24, 70_reset_and_hazards.md R204, R207). -/
def Obligations.HostCannotDisturbARunningCommand : Prop :=
  ∀ (s t : State) (a : HostAccess), s.Inv → s.busy = true → s.schedule.head? = some (.host a) →
    a ≠ .write 0x00 4 0x0000000F → step s = .next t → seqView t = seqView s
end

