-- ==== Sys2Proof/Laws/State.lean ====
section
/-! SUPPORT. One lemma per field per named update of State (Machine/Flags.lean, Machine/Ops.lean, Machine/Sequencer.lean,
Machine/HostPort.lean), true by rfl, so that no later proof unfolds a record update. -/
namespace Sys2Proof.Machine

/-! `State.driveIrq` -/

@[simp] theorem driveIrq_busy (s : State) : (s.driveIrq).busy = s.busy := rfl
@[simp] theorem driveIrq_done (s : State) : (s.driveIrq).done = s.done := rfl
@[simp] theorem driveIrq_err (s : State) : (s.driveIrq).err = s.err := rfl
@[simp] theorem driveIrq_ovr (s : State) : (s.driveIrq).ovr = s.ovr := rfl
@[simp] theorem driveIrq_errcode (s : State) : (s.driveIrq).errcode = s.errcode := rfl
@[simp] theorem driveIrq_phase (s : State) : (s.driveIrq).phase = s.phase := rfl
@[simp] theorem driveIrq_sub (s : State) : (s.driveIrq).sub = s.sub := rfl
@[simp] theorem driveIrq_op (s : State) : (s.driveIrq).op = s.op := rfl
@[simp] theorem driveIrq_opaLo (s : State) : (s.driveIrq).opaLo = s.opaLo := rfl
@[simp] theorem driveIrq_opaHi (s : State) : (s.driveIrq).opaHi = s.opaHi := rfl
@[simp] theorem driveIrq_resLo (s : State) : (s.driveIrq).resLo = s.resLo := rfl
@[simp] theorem driveIrq_resHi (s : State) : (s.driveIrq).resHi = s.resHi := rfl
@[simp] theorem driveIrq_maxpoll (s : State) : (s.driveIrq).maxpoll = s.maxpoll := rfl
@[simp] theorem driveIrq_ie (s : State) : (s.driveIrq).ie = s.ie := rfl
@[simp] theorem driveIrq_csw (s : State) : (s.driveIrq).csw = s.csw := rfl
@[simp] theorem driveIrq_keys (s : State) : (s.driveIrq).keys = s.keys := rfl
@[simp] theorem driveIrq_loopcnt (s : State) : (s.driveIrq).loopcnt = s.loopcnt := rfl
@[simp] theorem driveIrq_blk (s : State) : (s.driveIrq).blk = s.blk := rfl
@[simp] theorem driveIrq_latMaxpoll (s : State) : (s.driveIrq).latMaxpoll = s.latMaxpoll := rfl
@[simp] theorem driveIrq_latKeys (s : State) : (s.driveIrq).latKeys = s.latKeys := rfl
@[simp] theorem driveIrq_reqOut (s : State) : (s.driveIrq).reqOut = s.reqOut := rfl
@[simp] theorem driveIrq_abortPending (s : State) : (s.driveIrq).abortPending = s.abortPending := rfl
@[simp] theorem driveIrq_rspVal (s : State) : (s.driveIrq).rspVal = s.rspVal := rfl
@[simp] theorem driveIrq_irq (s : State) : (s.driveIrq).irq = (s.done && s.ie) := rfl
@[simp] theorem driveIrq_schedule (s : State) : (s.driveIrq).schedule = s.schedule := rfl
@[simp] theorem driveIrq_requests (s : State) : (s.driveIrq).requests = s.requests := rfl
@[simp] theorem driveIrq_answers (s : State) : (s.driveIrq).answers = s.answers := rfl

/-! `dropWord` -/

@[simp] theorem dropWord_busy (s : State) : (dropWord s).busy = s.busy := rfl
@[simp] theorem dropWord_done (s : State) : (dropWord s).done = s.done := rfl
@[simp] theorem dropWord_err (s : State) : (dropWord s).err = s.err := rfl
@[simp] theorem dropWord_ovr (s : State) : (dropWord s).ovr = true := rfl
@[simp] theorem dropWord_errcode (s : State) : (dropWord s).errcode = s.errcode := rfl
@[simp] theorem dropWord_phase (s : State) : (dropWord s).phase = s.phase := rfl
@[simp] theorem dropWord_sub (s : State) : (dropWord s).sub = s.sub := rfl
@[simp] theorem dropWord_op (s : State) : (dropWord s).op = s.op := rfl
@[simp] theorem dropWord_opaLo (s : State) : (dropWord s).opaLo = s.opaLo := rfl
@[simp] theorem dropWord_opaHi (s : State) : (dropWord s).opaHi = s.opaHi := rfl
@[simp] theorem dropWord_resLo (s : State) : (dropWord s).resLo = s.resLo := rfl
@[simp] theorem dropWord_resHi (s : State) : (dropWord s).resHi = s.resHi := rfl
@[simp] theorem dropWord_maxpoll (s : State) : (dropWord s).maxpoll = s.maxpoll := rfl
@[simp] theorem dropWord_ie (s : State) : (dropWord s).ie = s.ie := rfl
@[simp] theorem dropWord_csw (s : State) : (dropWord s).csw = s.csw := rfl
@[simp] theorem dropWord_keys (s : State) : (dropWord s).keys = s.keys := rfl
@[simp] theorem dropWord_loopcnt (s : State) : (dropWord s).loopcnt = s.loopcnt := rfl
@[simp] theorem dropWord_blk (s : State) : (dropWord s).blk = s.blk := rfl
@[simp] theorem dropWord_latMaxpoll (s : State) : (dropWord s).latMaxpoll = s.latMaxpoll := rfl
@[simp] theorem dropWord_latKeys (s : State) : (dropWord s).latKeys = s.latKeys := rfl
@[simp] theorem dropWord_reqOut (s : State) : (dropWord s).reqOut = s.reqOut := rfl
@[simp] theorem dropWord_abortPending (s : State) : (dropWord s).abortPending = s.abortPending := rfl
@[simp] theorem dropWord_rspVal (s : State) : (dropWord s).rspVal = s.rspVal := rfl
@[simp] theorem dropWord_irq (s : State) : (dropWord s).irq = s.irq := rfl
@[simp] theorem dropWord_schedule (s : State) : (dropWord s).schedule = s.schedule := rfl
@[simp] theorem dropWord_requests (s : State) : (dropWord s).requests = s.requests := rfl
@[simp] theorem dropWord_answers (s : State) : (dropWord s).answers = s.answers := rfl

/-! `acceptWord` -/

@[simp] theorem acceptWord_busy (op : BitVec 4) (s : State) : (acceptWord op s).busy = s.busy := rfl
@[simp] theorem acceptWord_done (op : BitVec 4) (s : State) : (acceptWord op s).done = false := rfl
@[simp] theorem acceptWord_err (op : BitVec 4) (s : State) : (acceptWord op s).err = false := rfl
@[simp] theorem acceptWord_ovr (op : BitVec 4) (s : State) : (acceptWord op s).ovr = s.ovr := rfl
@[simp] theorem acceptWord_errcode (op : BitVec 4) (s : State) : (acceptWord op s).errcode = .none := rfl
@[simp] theorem acceptWord_phase (op : BitVec 4) (s : State) : (acceptWord op s).phase = s.phase := rfl
@[simp] theorem acceptWord_sub (op : BitVec 4) (s : State) : (acceptWord op s).sub = s.sub := rfl
@[simp] theorem acceptWord_op (op : BitVec 4) (s : State) : (acceptWord op s).op = op := rfl
@[simp] theorem acceptWord_opaLo (op : BitVec 4) (s : State) : (acceptWord op s).opaLo = s.opaLo := rfl
@[simp] theorem acceptWord_opaHi (op : BitVec 4) (s : State) : (acceptWord op s).opaHi = s.opaHi := rfl
@[simp] theorem acceptWord_resLo (op : BitVec 4) (s : State) : (acceptWord op s).resLo = s.resLo := rfl
@[simp] theorem acceptWord_resHi (op : BitVec 4) (s : State) : (acceptWord op s).resHi = s.resHi := rfl
@[simp] theorem acceptWord_maxpoll (op : BitVec 4) (s : State) : (acceptWord op s).maxpoll = s.maxpoll := rfl
@[simp] theorem acceptWord_ie (op : BitVec 4) (s : State) : (acceptWord op s).ie = s.ie := rfl
@[simp] theorem acceptWord_csw (op : BitVec 4) (s : State) : (acceptWord op s).csw = s.csw := rfl
@[simp] theorem acceptWord_keys (op : BitVec 4) (s : State) : (acceptWord op s).keys = s.keys := rfl
@[simp] theorem acceptWord_loopcnt (op : BitVec 4) (s : State) : (acceptWord op s).loopcnt = s.loopcnt := rfl
@[simp] theorem acceptWord_blk (op : BitVec 4) (s : State) : (acceptWord op s).blk = s.blk := rfl
@[simp] theorem acceptWord_latMaxpoll (op : BitVec 4) (s : State) : (acceptWord op s).latMaxpoll = s.latMaxpoll := rfl
@[simp] theorem acceptWord_latKeys (op : BitVec 4) (s : State) : (acceptWord op s).latKeys = s.latKeys := rfl
@[simp] theorem acceptWord_reqOut (op : BitVec 4) (s : State) : (acceptWord op s).reqOut = s.reqOut := rfl
@[simp] theorem acceptWord_abortPending (op : BitVec 4) (s : State) : (acceptWord op s).abortPending = s.abortPending := rfl
@[simp] theorem acceptWord_rspVal (op : BitVec 4) (s : State) : (acceptWord op s).rspVal = s.rspVal := rfl
@[simp] theorem acceptWord_irq (op : BitVec 4) (s : State) : (acceptWord op s).irq = s.irq := rfl
@[simp] theorem acceptWord_schedule (op : BitVec 4) (s : State) : (acceptWord op s).schedule = s.schedule := rfl
@[simp] theorem acceptWord_requests (op : BitVec 4) (s : State) : (acceptWord op s).requests = s.requests := rfl
@[simp] theorem acceptWord_answers (op : BitVec 4) (s : State) : (acceptWord op s).answers = s.answers := rfl

/-! `raiseError` -/

@[simp] theorem raiseError_busy (code : ErrorCode) (s : State) : (raiseError code s).busy = false := rfl
@[simp] theorem raiseError_done (code : ErrorCode) (s : State) : (raiseError code s).done = true := rfl
@[simp] theorem raiseError_err (code : ErrorCode) (s : State) : (raiseError code s).err = true := rfl
@[simp] theorem raiseError_ovr (code : ErrorCode) (s : State) : (raiseError code s).ovr = s.ovr := rfl
@[simp] theorem raiseError_errcode (code : ErrorCode) (s : State) : (raiseError code s).errcode = code := rfl
@[simp] theorem raiseError_phase (code : ErrorCode) (s : State) : (raiseError code s).phase = s.phase := rfl
@[simp] theorem raiseError_sub (code : ErrorCode) (s : State) : (raiseError code s).sub = s.sub := rfl
@[simp] theorem raiseError_op (code : ErrorCode) (s : State) : (raiseError code s).op = s.op := rfl
@[simp] theorem raiseError_opaLo (code : ErrorCode) (s : State) : (raiseError code s).opaLo = s.opaLo := rfl
@[simp] theorem raiseError_opaHi (code : ErrorCode) (s : State) : (raiseError code s).opaHi = s.opaHi := rfl
@[simp] theorem raiseError_resLo (code : ErrorCode) (s : State) : (raiseError code s).resLo = s.resLo := rfl
@[simp] theorem raiseError_resHi (code : ErrorCode) (s : State) : (raiseError code s).resHi = s.resHi := rfl
@[simp] theorem raiseError_maxpoll (code : ErrorCode) (s : State) : (raiseError code s).maxpoll = s.maxpoll := rfl
@[simp] theorem raiseError_ie (code : ErrorCode) (s : State) : (raiseError code s).ie = s.ie := rfl
@[simp] theorem raiseError_csw (code : ErrorCode) (s : State) : (raiseError code s).csw = s.csw := rfl
@[simp] theorem raiseError_keys (code : ErrorCode) (s : State) : (raiseError code s).keys = s.keys := rfl
@[simp] theorem raiseError_loopcnt (code : ErrorCode) (s : State) : (raiseError code s).loopcnt = s.loopcnt := rfl
@[simp] theorem raiseError_blk (code : ErrorCode) (s : State) : (raiseError code s).blk = s.blk := rfl
@[simp] theorem raiseError_latMaxpoll (code : ErrorCode) (s : State) : (raiseError code s).latMaxpoll = s.latMaxpoll := rfl
@[simp] theorem raiseError_latKeys (code : ErrorCode) (s : State) : (raiseError code s).latKeys = s.latKeys := rfl
@[simp] theorem raiseError_reqOut (code : ErrorCode) (s : State) : (raiseError code s).reqOut = false := rfl
@[simp] theorem raiseError_abortPending (code : ErrorCode) (s : State) : (raiseError code s).abortPending = false := rfl
@[simp] theorem raiseError_rspVal (code : ErrorCode) (s : State) : (raiseError code s).rspVal = s.rspVal := rfl
@[simp] theorem raiseError_irq (code : ErrorCode) (s : State) : (raiseError code s).irq = s.ie := rfl
@[simp] theorem raiseError_schedule (code : ErrorCode) (s : State) : (raiseError code s).schedule = s.schedule := rfl
@[simp] theorem raiseError_requests (code : ErrorCode) (s : State) : (raiseError code s).requests = s.requests := rfl
@[simp] theorem raiseError_answers (code : ErrorCode) (s : State) : (raiseError code s).answers = s.answers := rfl

/-! `endWithResult` -/

@[simp] theorem endWithResult_busy (hi lo : Word) (s : State) : (endWithResult hi lo s).busy = s.busy := rfl
@[simp] theorem endWithResult_done (hi lo : Word) (s : State) : (endWithResult hi lo s).done = true := rfl
@[simp] theorem endWithResult_err (hi lo : Word) (s : State) : (endWithResult hi lo s).err = s.err := rfl
@[simp] theorem endWithResult_ovr (hi lo : Word) (s : State) : (endWithResult hi lo s).ovr = s.ovr := rfl
@[simp] theorem endWithResult_errcode (hi lo : Word) (s : State) : (endWithResult hi lo s).errcode = s.errcode := rfl
@[simp] theorem endWithResult_phase (hi lo : Word) (s : State) : (endWithResult hi lo s).phase = s.phase := rfl
@[simp] theorem endWithResult_sub (hi lo : Word) (s : State) : (endWithResult hi lo s).sub = s.sub := rfl
@[simp] theorem endWithResult_op (hi lo : Word) (s : State) : (endWithResult hi lo s).op = s.op := rfl
@[simp] theorem endWithResult_opaLo (hi lo : Word) (s : State) : (endWithResult hi lo s).opaLo = s.opaLo := rfl
@[simp] theorem endWithResult_opaHi (hi lo : Word) (s : State) : (endWithResult hi lo s).opaHi = s.opaHi := rfl
@[simp] theorem endWithResult_resLo (hi lo : Word) (s : State) : (endWithResult hi lo s).resLo = lo := rfl
@[simp] theorem endWithResult_resHi (hi lo : Word) (s : State) : (endWithResult hi lo s).resHi = hi := rfl
@[simp] theorem endWithResult_maxpoll (hi lo : Word) (s : State) : (endWithResult hi lo s).maxpoll = s.maxpoll := rfl
@[simp] theorem endWithResult_ie (hi lo : Word) (s : State) : (endWithResult hi lo s).ie = s.ie := rfl
@[simp] theorem endWithResult_csw (hi lo : Word) (s : State) : (endWithResult hi lo s).csw = s.csw := rfl
@[simp] theorem endWithResult_keys (hi lo : Word) (s : State) : (endWithResult hi lo s).keys = s.keys := rfl
@[simp] theorem endWithResult_loopcnt (hi lo : Word) (s : State) : (endWithResult hi lo s).loopcnt = s.loopcnt := rfl
@[simp] theorem endWithResult_blk (hi lo : Word) (s : State) : (endWithResult hi lo s).blk = s.blk := rfl
@[simp] theorem endWithResult_latMaxpoll (hi lo : Word) (s : State) : (endWithResult hi lo s).latMaxpoll = s.latMaxpoll := rfl
@[simp] theorem endWithResult_latKeys (hi lo : Word) (s : State) : (endWithResult hi lo s).latKeys = s.latKeys := rfl
@[simp] theorem endWithResult_reqOut (hi lo : Word) (s : State) : (endWithResult hi lo s).reqOut = s.reqOut := rfl
@[simp] theorem endWithResult_abortPending (hi lo : Word) (s : State) : (endWithResult hi lo s).abortPending = s.abortPending := rfl
@[simp] theorem endWithResult_rspVal (hi lo : Word) (s : State) : (endWithResult hi lo s).rspVal = s.rspVal := rfl
@[simp] theorem endWithResult_irq (hi lo : Word) (s : State) : (endWithResult hi lo s).irq = s.ie := rfl
@[simp] theorem endWithResult_schedule (hi lo : Word) (s : State) : (endWithResult hi lo s).schedule = s.schedule := rfl
@[simp] theorem endWithResult_requests (hi lo : Word) (s : State) : (endWithResult hi lo s).requests = s.requests := rfl
@[simp] theorem endWithResult_answers (hi lo : Word) (s : State) : (endWithResult hi lo s).answers = s.answers := rfl

/-! `completeSequence` -/

@[simp] theorem completeSequence_busy (s : State) : (completeSequence s).busy = false := rfl
@[simp] theorem completeSequence_done (s : State) : (completeSequence s).done = true := rfl
@[simp] theorem completeSequence_err (s : State) : (completeSequence s).err = s.err := rfl
@[simp] theorem completeSequence_ovr (s : State) : (completeSequence s).ovr = s.ovr := rfl
@[simp] theorem completeSequence_errcode (s : State) : (completeSequence s).errcode = s.errcode := rfl
@[simp] theorem completeSequence_phase (s : State) : (completeSequence s).phase = .idle := rfl
@[simp] theorem completeSequence_sub (s : State) : (completeSequence s).sub = .s0 := rfl
@[simp] theorem completeSequence_op (s : State) : (completeSequence s).op = s.op := rfl
@[simp] theorem completeSequence_opaLo (s : State) : (completeSequence s).opaLo = s.opaLo := rfl
@[simp] theorem completeSequence_opaHi (s : State) : (completeSequence s).opaHi = s.opaHi := rfl
@[simp] theorem completeSequence_resLo (s : State) : (completeSequence s).resLo = cswWord s := rfl
@[simp] theorem completeSequence_resHi (s : State) : (completeSequence s).resHi = 0 := rfl
@[simp] theorem completeSequence_maxpoll (s : State) : (completeSequence s).maxpoll = s.maxpoll := rfl
@[simp] theorem completeSequence_ie (s : State) : (completeSequence s).ie = s.ie := rfl
@[simp] theorem completeSequence_csw (s : State) : (completeSequence s).csw = s.csw := rfl
@[simp] theorem completeSequence_keys (s : State) : (completeSequence s).keys = s.keys := rfl
@[simp] theorem completeSequence_loopcnt (s : State) : (completeSequence s).loopcnt = s.loopcnt := rfl
@[simp] theorem completeSequence_blk (s : State) : (completeSequence s).blk = s.blk := rfl
@[simp] theorem completeSequence_latMaxpoll (s : State) : (completeSequence s).latMaxpoll = s.latMaxpoll := rfl
@[simp] theorem completeSequence_latKeys (s : State) : (completeSequence s).latKeys = s.latKeys := rfl
@[simp] theorem completeSequence_reqOut (s : State) : (completeSequence s).reqOut = s.reqOut := rfl
@[simp] theorem completeSequence_abortPending (s : State) : (completeSequence s).abortPending = false := rfl
@[simp] theorem completeSequence_rspVal (s : State) : (completeSequence s).rspVal = s.rspVal := rfl
@[simp] theorem completeSequence_irq (s : State) : (completeSequence s).irq = s.ie := rfl
@[simp] theorem completeSequence_schedule (s : State) : (completeSequence s).schedule = s.schedule := rfl
@[simp] theorem completeSequence_requests (s : State) : (completeSequence s).requests = s.requests := rfl
@[simp] theorem completeSequence_answers (s : State) : (completeSequence s).answers = s.answers := rfl

/-! `startSequence` -/

@[simp] theorem startSequence_busy (entry : Phase) (s : State) : (startSequence entry s).busy = true := rfl
@[simp] theorem startSequence_done (entry : Phase) (s : State) : (startSequence entry s).done = s.done := rfl
@[simp] theorem startSequence_err (entry : Phase) (s : State) : (startSequence entry s).err = s.err := rfl
@[simp] theorem startSequence_ovr (entry : Phase) (s : State) : (startSequence entry s).ovr = s.ovr := rfl
@[simp] theorem startSequence_errcode (entry : Phase) (s : State) : (startSequence entry s).errcode = s.errcode := rfl
@[simp] theorem startSequence_phase (entry : Phase) (s : State) : (startSequence entry s).phase = entry := rfl
@[simp] theorem startSequence_sub (entry : Phase) (s : State) : (startSequence entry s).sub = .s0 := rfl
@[simp] theorem startSequence_op (entry : Phase) (s : State) : (startSequence entry s).op = s.op := rfl
@[simp] theorem startSequence_opaLo (entry : Phase) (s : State) : (startSequence entry s).opaLo = s.opaLo := rfl
@[simp] theorem startSequence_opaHi (entry : Phase) (s : State) : (startSequence entry s).opaHi = s.opaHi := rfl
@[simp] theorem startSequence_resLo (entry : Phase) (s : State) : (startSequence entry s).resLo = s.resLo := rfl
@[simp] theorem startSequence_resHi (entry : Phase) (s : State) : (startSequence entry s).resHi = s.resHi := rfl
@[simp] theorem startSequence_maxpoll (entry : Phase) (s : State) : (startSequence entry s).maxpoll = s.maxpoll := rfl
@[simp] theorem startSequence_ie (entry : Phase) (s : State) : (startSequence entry s).ie = s.ie := rfl
@[simp] theorem startSequence_csw (entry : Phase) (s : State) : (startSequence entry s).csw = s.csw := rfl
@[simp] theorem startSequence_keys (entry : Phase) (s : State) : (startSequence entry s).keys = s.keys := rfl
@[simp] theorem startSequence_loopcnt (entry : Phase) (s : State) : (startSequence entry s).loopcnt = 0 := rfl
@[simp] theorem startSequence_blk (entry : Phase) (s : State) : (startSequence entry s).blk = s.blk := rfl
@[simp] theorem startSequence_latMaxpoll (entry : Phase) (s : State) : (startSequence entry s).latMaxpoll = s.maxpoll := rfl
@[simp] theorem startSequence_latKeys (entry : Phase) (s : State) : (startSequence entry s).latKeys = s.keys := rfl
@[simp] theorem startSequence_reqOut (entry : Phase) (s : State) : (startSequence entry s).reqOut = false := rfl
@[simp] theorem startSequence_abortPending (entry : Phase) (s : State) : (startSequence entry s).abortPending = false := rfl
@[simp] theorem startSequence_rspVal (entry : Phase) (s : State) : (startSequence entry s).rspVal = s.rspVal := rfl
@[simp] theorem startSequence_irq (entry : Phase) (s : State) : (startSequence entry s).irq = (s.done && s.ie) := rfl
@[simp] theorem startSequence_schedule (entry : Phase) (s : State) : (startSequence entry s).schedule = s.schedule := rfl
@[simp] theorem startSequence_requests (entry : Phase) (s : State) : (startSequence entry s).requests = s.requests := rfl
@[simp] theorem startSequence_answers (entry : Phase) (s : State) : (startSequence entry s).answers = s.answers := rfl

/-! `markAbort` -/

@[simp] theorem markAbort_busy (s : State) : (markAbort s).busy = s.busy := rfl
@[simp] theorem markAbort_done (s : State) : (markAbort s).done = s.done := rfl
@[simp] theorem markAbort_err (s : State) : (markAbort s).err = s.err := rfl
@[simp] theorem markAbort_ovr (s : State) : (markAbort s).ovr = s.ovr := rfl
@[simp] theorem markAbort_errcode (s : State) : (markAbort s).errcode = s.errcode := rfl
@[simp] theorem markAbort_phase (s : State) : (markAbort s).phase = s.phase := rfl
@[simp] theorem markAbort_sub (s : State) : (markAbort s).sub = s.sub := rfl
@[simp] theorem markAbort_op (s : State) : (markAbort s).op = s.op := rfl
@[simp] theorem markAbort_opaLo (s : State) : (markAbort s).opaLo = s.opaLo := rfl
@[simp] theorem markAbort_opaHi (s : State) : (markAbort s).opaHi = s.opaHi := rfl
@[simp] theorem markAbort_resLo (s : State) : (markAbort s).resLo = s.resLo := rfl
@[simp] theorem markAbort_resHi (s : State) : (markAbort s).resHi = s.resHi := rfl
@[simp] theorem markAbort_maxpoll (s : State) : (markAbort s).maxpoll = s.maxpoll := rfl
@[simp] theorem markAbort_ie (s : State) : (markAbort s).ie = s.ie := rfl
@[simp] theorem markAbort_csw (s : State) : (markAbort s).csw = s.csw := rfl
@[simp] theorem markAbort_keys (s : State) : (markAbort s).keys = s.keys := rfl
@[simp] theorem markAbort_loopcnt (s : State) : (markAbort s).loopcnt = s.loopcnt := rfl
@[simp] theorem markAbort_blk (s : State) : (markAbort s).blk = s.blk := rfl
@[simp] theorem markAbort_latMaxpoll (s : State) : (markAbort s).latMaxpoll = s.latMaxpoll := rfl
@[simp] theorem markAbort_latKeys (s : State) : (markAbort s).latKeys = s.latKeys := rfl
@[simp] theorem markAbort_reqOut (s : State) : (markAbort s).reqOut = s.reqOut := rfl
@[simp] theorem markAbort_abortPending (s : State) : (markAbort s).abortPending = true := rfl
@[simp] theorem markAbort_rspVal (s : State) : (markAbort s).rspVal = s.rspVal := rfl
@[simp] theorem markAbort_irq (s : State) : (markAbort s).irq = s.irq := rfl
@[simp] theorem markAbort_schedule (s : State) : (markAbort s).schedule = s.schedule := rfl
@[simp] theorem markAbort_requests (s : State) : (markAbort s).requests = s.requests := rfl
@[simp] theorem markAbort_answers (s : State) : (markAbort s).answers = s.answers := rfl

/-! `withSchedule` -/

@[simp] theorem withSchedule_busy (u : List Turn) (s : State) : (withSchedule u s).busy = s.busy := rfl
@[simp] theorem withSchedule_done (u : List Turn) (s : State) : (withSchedule u s).done = s.done := rfl
@[simp] theorem withSchedule_err (u : List Turn) (s : State) : (withSchedule u s).err = s.err := rfl
@[simp] theorem withSchedule_ovr (u : List Turn) (s : State) : (withSchedule u s).ovr = s.ovr := rfl
@[simp] theorem withSchedule_errcode (u : List Turn) (s : State) : (withSchedule u s).errcode = s.errcode := rfl
@[simp] theorem withSchedule_phase (u : List Turn) (s : State) : (withSchedule u s).phase = s.phase := rfl
@[simp] theorem withSchedule_sub (u : List Turn) (s : State) : (withSchedule u s).sub = s.sub := rfl
@[simp] theorem withSchedule_op (u : List Turn) (s : State) : (withSchedule u s).op = s.op := rfl
@[simp] theorem withSchedule_opaLo (u : List Turn) (s : State) : (withSchedule u s).opaLo = s.opaLo := rfl
@[simp] theorem withSchedule_opaHi (u : List Turn) (s : State) : (withSchedule u s).opaHi = s.opaHi := rfl
@[simp] theorem withSchedule_resLo (u : List Turn) (s : State) : (withSchedule u s).resLo = s.resLo := rfl
@[simp] theorem withSchedule_resHi (u : List Turn) (s : State) : (withSchedule u s).resHi = s.resHi := rfl
@[simp] theorem withSchedule_maxpoll (u : List Turn) (s : State) : (withSchedule u s).maxpoll = s.maxpoll := rfl
@[simp] theorem withSchedule_ie (u : List Turn) (s : State) : (withSchedule u s).ie = s.ie := rfl
@[simp] theorem withSchedule_csw (u : List Turn) (s : State) : (withSchedule u s).csw = s.csw := rfl
@[simp] theorem withSchedule_keys (u : List Turn) (s : State) : (withSchedule u s).keys = s.keys := rfl
@[simp] theorem withSchedule_loopcnt (u : List Turn) (s : State) : (withSchedule u s).loopcnt = s.loopcnt := rfl
@[simp] theorem withSchedule_blk (u : List Turn) (s : State) : (withSchedule u s).blk = s.blk := rfl
@[simp] theorem withSchedule_latMaxpoll (u : List Turn) (s : State) : (withSchedule u s).latMaxpoll = s.latMaxpoll := rfl
@[simp] theorem withSchedule_latKeys (u : List Turn) (s : State) : (withSchedule u s).latKeys = s.latKeys := rfl
@[simp] theorem withSchedule_reqOut (u : List Turn) (s : State) : (withSchedule u s).reqOut = s.reqOut := rfl
@[simp] theorem withSchedule_abortPending (u : List Turn) (s : State) : (withSchedule u s).abortPending = s.abortPending := rfl
@[simp] theorem withSchedule_rspVal (u : List Turn) (s : State) : (withSchedule u s).rspVal = s.rspVal := rfl
@[simp] theorem withSchedule_irq (u : List Turn) (s : State) : (withSchedule u s).irq = s.irq := rfl
@[simp] theorem withSchedule_schedule (u : List Turn) (s : State) : (withSchedule u s).schedule = u := rfl
@[simp] theorem withSchedule_requests (u : List Turn) (s : State) : (withSchedule u s).requests = s.requests := rfl
@[simp] theorem withSchedule_answers (u : List Turn) (s : State) : (withSchedule u s).answers = s.answers := rfl

/-! `sendRequest` -/

@[simp] theorem sendRequest_busy (q : Request) (s : State) : (sendRequest q s).busy = s.busy := rfl
@[simp] theorem sendRequest_done (q : Request) (s : State) : (sendRequest q s).done = s.done := rfl
@[simp] theorem sendRequest_err (q : Request) (s : State) : (sendRequest q s).err = s.err := rfl
@[simp] theorem sendRequest_ovr (q : Request) (s : State) : (sendRequest q s).ovr = s.ovr := rfl
@[simp] theorem sendRequest_errcode (q : Request) (s : State) : (sendRequest q s).errcode = s.errcode := rfl
@[simp] theorem sendRequest_phase (q : Request) (s : State) : (sendRequest q s).phase = s.phase := rfl
@[simp] theorem sendRequest_sub (q : Request) (s : State) : (sendRequest q s).sub = s.sub := rfl
@[simp] theorem sendRequest_op (q : Request) (s : State) : (sendRequest q s).op = s.op := rfl
@[simp] theorem sendRequest_opaLo (q : Request) (s : State) : (sendRequest q s).opaLo = s.opaLo := rfl
@[simp] theorem sendRequest_opaHi (q : Request) (s : State) : (sendRequest q s).opaHi = s.opaHi := rfl
@[simp] theorem sendRequest_resLo (q : Request) (s : State) : (sendRequest q s).resLo = s.resLo := rfl
@[simp] theorem sendRequest_resHi (q : Request) (s : State) : (sendRequest q s).resHi = s.resHi := rfl
@[simp] theorem sendRequest_maxpoll (q : Request) (s : State) : (sendRequest q s).maxpoll = s.maxpoll := rfl
@[simp] theorem sendRequest_ie (q : Request) (s : State) : (sendRequest q s).ie = s.ie := rfl
@[simp] theorem sendRequest_csw (q : Request) (s : State) : (sendRequest q s).csw = s.csw := rfl
@[simp] theorem sendRequest_keys (q : Request) (s : State) : (sendRequest q s).keys = s.keys := rfl
@[simp] theorem sendRequest_loopcnt (q : Request) (s : State) : (sendRequest q s).loopcnt = s.loopcnt := rfl
@[simp] theorem sendRequest_blk (q : Request) (s : State) : (sendRequest q s).blk = s.blk := rfl
@[simp] theorem sendRequest_latMaxpoll (q : Request) (s : State) : (sendRequest q s).latMaxpoll = s.latMaxpoll := rfl
@[simp] theorem sendRequest_latKeys (q : Request) (s : State) : (sendRequest q s).latKeys = s.latKeys := rfl
@[simp] theorem sendRequest_reqOut (q : Request) (s : State) : (sendRequest q s).reqOut = true := rfl
@[simp] theorem sendRequest_abortPending (q : Request) (s : State) : (sendRequest q s).abortPending = s.abortPending := rfl
@[simp] theorem sendRequest_rspVal (q : Request) (s : State) : (sendRequest q s).rspVal = s.rspVal := rfl
@[simp] theorem sendRequest_irq (q : Request) (s : State) : (sendRequest q s).irq = s.irq := rfl
@[simp] theorem sendRequest_schedule (q : Request) (s : State) : (sendRequest q s).schedule = s.schedule := rfl
@[simp] theorem sendRequest_requests (q : Request) (s : State) : (sendRequest q s).requests = s.requests ++ [q] := rfl
@[simp] theorem sendRequest_answers (q : Request) (s : State) : (sendRequest q s).answers = s.answers := rfl

/-! `clearRequest` -/

@[simp] theorem clearRequest_busy (s : State) : (clearRequest s).busy = s.busy := rfl
@[simp] theorem clearRequest_done (s : State) : (clearRequest s).done = s.done := rfl
@[simp] theorem clearRequest_err (s : State) : (clearRequest s).err = s.err := rfl
@[simp] theorem clearRequest_ovr (s : State) : (clearRequest s).ovr = s.ovr := rfl
@[simp] theorem clearRequest_errcode (s : State) : (clearRequest s).errcode = s.errcode := rfl
@[simp] theorem clearRequest_phase (s : State) : (clearRequest s).phase = s.phase := rfl
@[simp] theorem clearRequest_sub (s : State) : (clearRequest s).sub = s.sub := rfl
@[simp] theorem clearRequest_op (s : State) : (clearRequest s).op = s.op := rfl
@[simp] theorem clearRequest_opaLo (s : State) : (clearRequest s).opaLo = s.opaLo := rfl
@[simp] theorem clearRequest_opaHi (s : State) : (clearRequest s).opaHi = s.opaHi := rfl
@[simp] theorem clearRequest_resLo (s : State) : (clearRequest s).resLo = s.resLo := rfl
@[simp] theorem clearRequest_resHi (s : State) : (clearRequest s).resHi = s.resHi := rfl
@[simp] theorem clearRequest_maxpoll (s : State) : (clearRequest s).maxpoll = s.maxpoll := rfl
@[simp] theorem clearRequest_ie (s : State) : (clearRequest s).ie = s.ie := rfl
@[simp] theorem clearRequest_csw (s : State) : (clearRequest s).csw = s.csw := rfl
@[simp] theorem clearRequest_keys (s : State) : (clearRequest s).keys = s.keys := rfl
@[simp] theorem clearRequest_loopcnt (s : State) : (clearRequest s).loopcnt = s.loopcnt := rfl
@[simp] theorem clearRequest_blk (s : State) : (clearRequest s).blk = s.blk := rfl
@[simp] theorem clearRequest_latMaxpoll (s : State) : (clearRequest s).latMaxpoll = s.latMaxpoll := rfl
@[simp] theorem clearRequest_latKeys (s : State) : (clearRequest s).latKeys = s.latKeys := rfl
@[simp] theorem clearRequest_reqOut (s : State) : (clearRequest s).reqOut = false := rfl
@[simp] theorem clearRequest_abortPending (s : State) : (clearRequest s).abortPending = s.abortPending := rfl
@[simp] theorem clearRequest_rspVal (s : State) : (clearRequest s).rspVal = s.rspVal := rfl
@[simp] theorem clearRequest_irq (s : State) : (clearRequest s).irq = s.irq := rfl
@[simp] theorem clearRequest_schedule (s : State) : (clearRequest s).schedule = s.schedule := rfl
@[simp] theorem clearRequest_requests (s : State) : (clearRequest s).requests = s.requests := rfl
@[simp] theorem clearRequest_answers (s : State) : (clearRequest s).answers = s.answers := rfl

/-! `saveResponse` -/

@[simp] theorem saveResponse_busy (b0 b1 : Byte) (s : State) : (saveResponse b0 b1 s).busy = s.busy := rfl
@[simp] theorem saveResponse_done (b0 b1 : Byte) (s : State) : (saveResponse b0 b1 s).done = s.done := rfl
@[simp] theorem saveResponse_err (b0 b1 : Byte) (s : State) : (saveResponse b0 b1 s).err = s.err := rfl
@[simp] theorem saveResponse_ovr (b0 b1 : Byte) (s : State) : (saveResponse b0 b1 s).ovr = s.ovr := rfl
@[simp] theorem saveResponse_errcode (b0 b1 : Byte) (s : State) : (saveResponse b0 b1 s).errcode = s.errcode := rfl
@[simp] theorem saveResponse_phase (b0 b1 : Byte) (s : State) : (saveResponse b0 b1 s).phase = s.phase := rfl
@[simp] theorem saveResponse_sub (b0 b1 : Byte) (s : State) : (saveResponse b0 b1 s).sub = s.sub := rfl
@[simp] theorem saveResponse_op (b0 b1 : Byte) (s : State) : (saveResponse b0 b1 s).op = s.op := rfl
@[simp] theorem saveResponse_opaLo (b0 b1 : Byte) (s : State) : (saveResponse b0 b1 s).opaLo = s.opaLo := rfl
@[simp] theorem saveResponse_opaHi (b0 b1 : Byte) (s : State) : (saveResponse b0 b1 s).opaHi = s.opaHi := rfl
@[simp] theorem saveResponse_resLo (b0 b1 : Byte) (s : State) : (saveResponse b0 b1 s).resLo = s.resLo := rfl
@[simp] theorem saveResponse_resHi (b0 b1 : Byte) (s : State) : (saveResponse b0 b1 s).resHi = s.resHi := rfl
@[simp] theorem saveResponse_maxpoll (b0 b1 : Byte) (s : State) : (saveResponse b0 b1 s).maxpoll = s.maxpoll := rfl
@[simp] theorem saveResponse_ie (b0 b1 : Byte) (s : State) : (saveResponse b0 b1 s).ie = s.ie := rfl
@[simp] theorem saveResponse_csw (b0 b1 : Byte) (s : State) : (saveResponse b0 b1 s).csw = s.csw := rfl
@[simp] theorem saveResponse_keys (b0 b1 : Byte) (s : State) : (saveResponse b0 b1 s).keys = s.keys := rfl
@[simp] theorem saveResponse_loopcnt (b0 b1 : Byte) (s : State) : (saveResponse b0 b1 s).loopcnt = s.loopcnt := rfl
@[simp] theorem saveResponse_blk (b0 b1 : Byte) (s : State) : (saveResponse b0 b1 s).blk = s.blk := rfl
@[simp] theorem saveResponse_latMaxpoll (b0 b1 : Byte) (s : State) : (saveResponse b0 b1 s).latMaxpoll = s.latMaxpoll := rfl
@[simp] theorem saveResponse_latKeys (b0 b1 : Byte) (s : State) : (saveResponse b0 b1 s).latKeys = s.latKeys := rfl
@[simp] theorem saveResponse_reqOut (b0 b1 : Byte) (s : State) : (saveResponse b0 b1 s).reqOut = s.reqOut := rfl
@[simp] theorem saveResponse_abortPending (b0 b1 : Byte) (s : State) : (saveResponse b0 b1 s).abortPending = s.abortPending := rfl
@[simp] theorem saveResponse_rspVal (b0 b1 : Byte) (s : State) : (saveResponse b0 b1 s).rspVal = (b1 ++ b0 : BitVec 16) := rfl
@[simp] theorem saveResponse_irq (b0 b1 : Byte) (s : State) : (saveResponse b0 b1 s).irq = s.irq := rfl
@[simp] theorem saveResponse_schedule (b0 b1 : Byte) (s : State) : (saveResponse b0 b1 s).schedule = s.schedule := rfl
@[simp] theorem saveResponse_requests (b0 b1 : Byte) (s : State) : (saveResponse b0 b1 s).requests = s.requests := rfl
@[simp] theorem saveResponse_answers (b0 b1 : Byte) (s : State) : (saveResponse b0 b1 s).answers = s.answers := rfl

/-! `saveStatus` -/

@[simp] theorem saveStatus_busy (s : State) : (saveStatus s).busy = s.busy := rfl
@[simp] theorem saveStatus_done (s : State) : (saveStatus s).done = s.done := rfl
@[simp] theorem saveStatus_err (s : State) : (saveStatus s).err = s.err := rfl
@[simp] theorem saveStatus_ovr (s : State) : (saveStatus s).ovr = s.ovr := rfl
@[simp] theorem saveStatus_errcode (s : State) : (saveStatus s).errcode = s.errcode := rfl
@[simp] theorem saveStatus_phase (s : State) : (saveStatus s).phase = s.phase := rfl
@[simp] theorem saveStatus_sub (s : State) : (saveStatus s).sub = s.sub := rfl
@[simp] theorem saveStatus_op (s : State) : (saveStatus s).op = s.op := rfl
@[simp] theorem saveStatus_opaLo (s : State) : (saveStatus s).opaLo = s.opaLo := rfl
@[simp] theorem saveStatus_opaHi (s : State) : (saveStatus s).opaHi = s.opaHi := rfl
@[simp] theorem saveStatus_resLo (s : State) : (saveStatus s).resLo = s.resLo := rfl
@[simp] theorem saveStatus_resHi (s : State) : (saveStatus s).resHi = s.resHi := rfl
@[simp] theorem saveStatus_maxpoll (s : State) : (saveStatus s).maxpoll = s.maxpoll := rfl
@[simp] theorem saveStatus_ie (s : State) : (saveStatus s).ie = s.ie := rfl
@[simp] theorem saveStatus_csw (s : State) : (saveStatus s).csw = s.rspVal := rfl
@[simp] theorem saveStatus_keys (s : State) : (saveStatus s).keys = s.keys := rfl
@[simp] theorem saveStatus_loopcnt (s : State) : (saveStatus s).loopcnt = s.loopcnt := rfl
@[simp] theorem saveStatus_blk (s : State) : (saveStatus s).blk = s.blk := rfl
@[simp] theorem saveStatus_latMaxpoll (s : State) : (saveStatus s).latMaxpoll = s.latMaxpoll := rfl
@[simp] theorem saveStatus_latKeys (s : State) : (saveStatus s).latKeys = s.latKeys := rfl
@[simp] theorem saveStatus_reqOut (s : State) : (saveStatus s).reqOut = s.reqOut := rfl
@[simp] theorem saveStatus_abortPending (s : State) : (saveStatus s).abortPending = s.abortPending := rfl
@[simp] theorem saveStatus_rspVal (s : State) : (saveStatus s).rspVal = s.rspVal := rfl
@[simp] theorem saveStatus_irq (s : State) : (saveStatus s).irq = s.irq := rfl
@[simp] theorem saveStatus_schedule (s : State) : (saveStatus s).schedule = s.schedule := rfl
@[simp] theorem saveStatus_requests (s : State) : (saveStatus s).requests = s.requests := rfl
@[simp] theorem saveStatus_answers (s : State) : (saveStatus s).answers = s.answers := rfl

/-! `moveSub` -/

@[simp] theorem moveSub_busy (b : SubStep) (s : State) : (moveSub b s).busy = s.busy := rfl
@[simp] theorem moveSub_done (b : SubStep) (s : State) : (moveSub b s).done = s.done := rfl
@[simp] theorem moveSub_err (b : SubStep) (s : State) : (moveSub b s).err = s.err := rfl
@[simp] theorem moveSub_ovr (b : SubStep) (s : State) : (moveSub b s).ovr = s.ovr := rfl
@[simp] theorem moveSub_errcode (b : SubStep) (s : State) : (moveSub b s).errcode = s.errcode := rfl
@[simp] theorem moveSub_phase (b : SubStep) (s : State) : (moveSub b s).phase = s.phase := rfl
@[simp] theorem moveSub_sub (b : SubStep) (s : State) : (moveSub b s).sub = b := rfl
@[simp] theorem moveSub_op (b : SubStep) (s : State) : (moveSub b s).op = s.op := rfl
@[simp] theorem moveSub_opaLo (b : SubStep) (s : State) : (moveSub b s).opaLo = s.opaLo := rfl
@[simp] theorem moveSub_opaHi (b : SubStep) (s : State) : (moveSub b s).opaHi = s.opaHi := rfl
@[simp] theorem moveSub_resLo (b : SubStep) (s : State) : (moveSub b s).resLo = s.resLo := rfl
@[simp] theorem moveSub_resHi (b : SubStep) (s : State) : (moveSub b s).resHi = s.resHi := rfl
@[simp] theorem moveSub_maxpoll (b : SubStep) (s : State) : (moveSub b s).maxpoll = s.maxpoll := rfl
@[simp] theorem moveSub_ie (b : SubStep) (s : State) : (moveSub b s).ie = s.ie := rfl
@[simp] theorem moveSub_csw (b : SubStep) (s : State) : (moveSub b s).csw = s.csw := rfl
@[simp] theorem moveSub_keys (b : SubStep) (s : State) : (moveSub b s).keys = s.keys := rfl
@[simp] theorem moveSub_loopcnt (b : SubStep) (s : State) : (moveSub b s).loopcnt = s.loopcnt := rfl
@[simp] theorem moveSub_blk (b : SubStep) (s : State) : (moveSub b s).blk = s.blk := rfl
@[simp] theorem moveSub_latMaxpoll (b : SubStep) (s : State) : (moveSub b s).latMaxpoll = s.latMaxpoll := rfl
@[simp] theorem moveSub_latKeys (b : SubStep) (s : State) : (moveSub b s).latKeys = s.latKeys := rfl
@[simp] theorem moveSub_reqOut (b : SubStep) (s : State) : (moveSub b s).reqOut = s.reqOut := rfl
@[simp] theorem moveSub_abortPending (b : SubStep) (s : State) : (moveSub b s).abortPending = s.abortPending := rfl
@[simp] theorem moveSub_rspVal (b : SubStep) (s : State) : (moveSub b s).rspVal = s.rspVal := rfl
@[simp] theorem moveSub_irq (b : SubStep) (s : State) : (moveSub b s).irq = s.irq := rfl
@[simp] theorem moveSub_schedule (b : SubStep) (s : State) : (moveSub b s).schedule = s.schedule := rfl
@[simp] theorem moveSub_requests (b : SubStep) (s : State) : (moveSub b s).requests = s.requests := rfl
@[simp] theorem moveSub_answers (b : SubStep) (s : State) : (moveSub b s).answers = s.answers := rfl

/-! `setLoopcnt` -/

@[simp] theorem setLoopcnt_busy (n : Half) (s : State) : (setLoopcnt n s).busy = s.busy := rfl
@[simp] theorem setLoopcnt_done (n : Half) (s : State) : (setLoopcnt n s).done = s.done := rfl
@[simp] theorem setLoopcnt_err (n : Half) (s : State) : (setLoopcnt n s).err = s.err := rfl
@[simp] theorem setLoopcnt_ovr (n : Half) (s : State) : (setLoopcnt n s).ovr = s.ovr := rfl
@[simp] theorem setLoopcnt_errcode (n : Half) (s : State) : (setLoopcnt n s).errcode = s.errcode := rfl
@[simp] theorem setLoopcnt_phase (n : Half) (s : State) : (setLoopcnt n s).phase = s.phase := rfl
@[simp] theorem setLoopcnt_sub (n : Half) (s : State) : (setLoopcnt n s).sub = s.sub := rfl
@[simp] theorem setLoopcnt_op (n : Half) (s : State) : (setLoopcnt n s).op = s.op := rfl
@[simp] theorem setLoopcnt_opaLo (n : Half) (s : State) : (setLoopcnt n s).opaLo = s.opaLo := rfl
@[simp] theorem setLoopcnt_opaHi (n : Half) (s : State) : (setLoopcnt n s).opaHi = s.opaHi := rfl
@[simp] theorem setLoopcnt_resLo (n : Half) (s : State) : (setLoopcnt n s).resLo = s.resLo := rfl
@[simp] theorem setLoopcnt_resHi (n : Half) (s : State) : (setLoopcnt n s).resHi = s.resHi := rfl
@[simp] theorem setLoopcnt_maxpoll (n : Half) (s : State) : (setLoopcnt n s).maxpoll = s.maxpoll := rfl
@[simp] theorem setLoopcnt_ie (n : Half) (s : State) : (setLoopcnt n s).ie = s.ie := rfl
@[simp] theorem setLoopcnt_csw (n : Half) (s : State) : (setLoopcnt n s).csw = s.csw := rfl
@[simp] theorem setLoopcnt_keys (n : Half) (s : State) : (setLoopcnt n s).keys = s.keys := rfl
@[simp] theorem setLoopcnt_loopcnt (n : Half) (s : State) : (setLoopcnt n s).loopcnt = n := rfl
@[simp] theorem setLoopcnt_blk (n : Half) (s : State) : (setLoopcnt n s).blk = s.blk := rfl
@[simp] theorem setLoopcnt_latMaxpoll (n : Half) (s : State) : (setLoopcnt n s).latMaxpoll = s.latMaxpoll := rfl
@[simp] theorem setLoopcnt_latKeys (n : Half) (s : State) : (setLoopcnt n s).latKeys = s.latKeys := rfl
@[simp] theorem setLoopcnt_reqOut (n : Half) (s : State) : (setLoopcnt n s).reqOut = s.reqOut := rfl
@[simp] theorem setLoopcnt_abortPending (n : Half) (s : State) : (setLoopcnt n s).abortPending = s.abortPending := rfl
@[simp] theorem setLoopcnt_rspVal (n : Half) (s : State) : (setLoopcnt n s).rspVal = s.rspVal := rfl
@[simp] theorem setLoopcnt_irq (n : Half) (s : State) : (setLoopcnt n s).irq = s.irq := rfl
@[simp] theorem setLoopcnt_schedule (n : Half) (s : State) : (setLoopcnt n s).schedule = s.schedule := rfl
@[simp] theorem setLoopcnt_requests (n : Half) (s : State) : (setLoopcnt n s).requests = s.requests := rfl
@[simp] theorem setLoopcnt_answers (n : Half) (s : State) : (setLoopcnt n s).answers = s.answers := rfl

/-! `writeStatus` -/

@[simp] theorem writeStatus_busy (v : Word) (s : State) : (writeStatus v s).busy = s.busy := rfl
@[simp] theorem writeStatus_done (v : Word) (s : State) : (writeStatus v s).done = (s.done && !v.getLsbD 1) := rfl
@[simp] theorem writeStatus_err (v : Word) (s : State) : (writeStatus v s).err = s.err := rfl
@[simp] theorem writeStatus_ovr (v : Word) (s : State) : (writeStatus v s).ovr = (s.ovr && !v.getLsbD 3) := rfl
@[simp] theorem writeStatus_errcode (v : Word) (s : State) : (writeStatus v s).errcode = s.errcode := rfl
@[simp] theorem writeStatus_phase (v : Word) (s : State) : (writeStatus v s).phase = s.phase := rfl
@[simp] theorem writeStatus_sub (v : Word) (s : State) : (writeStatus v s).sub = s.sub := rfl
@[simp] theorem writeStatus_op (v : Word) (s : State) : (writeStatus v s).op = s.op := rfl
@[simp] theorem writeStatus_opaLo (v : Word) (s : State) : (writeStatus v s).opaLo = s.opaLo := rfl
@[simp] theorem writeStatus_opaHi (v : Word) (s : State) : (writeStatus v s).opaHi = s.opaHi := rfl
@[simp] theorem writeStatus_resLo (v : Word) (s : State) : (writeStatus v s).resLo = s.resLo := rfl
@[simp] theorem writeStatus_resHi (v : Word) (s : State) : (writeStatus v s).resHi = s.resHi := rfl
@[simp] theorem writeStatus_maxpoll (v : Word) (s : State) : (writeStatus v s).maxpoll = s.maxpoll := rfl
@[simp] theorem writeStatus_ie (v : Word) (s : State) : (writeStatus v s).ie = s.ie := rfl
@[simp] theorem writeStatus_csw (v : Word) (s : State) : (writeStatus v s).csw = s.csw := rfl
@[simp] theorem writeStatus_keys (v : Word) (s : State) : (writeStatus v s).keys = s.keys := rfl
@[simp] theorem writeStatus_loopcnt (v : Word) (s : State) : (writeStatus v s).loopcnt = s.loopcnt := rfl
@[simp] theorem writeStatus_blk (v : Word) (s : State) : (writeStatus v s).blk = s.blk := rfl
@[simp] theorem writeStatus_latMaxpoll (v : Word) (s : State) : (writeStatus v s).latMaxpoll = s.latMaxpoll := rfl
@[simp] theorem writeStatus_latKeys (v : Word) (s : State) : (writeStatus v s).latKeys = s.latKeys := rfl
@[simp] theorem writeStatus_reqOut (v : Word) (s : State) : (writeStatus v s).reqOut = s.reqOut := rfl
@[simp] theorem writeStatus_abortPending (v : Word) (s : State) : (writeStatus v s).abortPending = s.abortPending := rfl
@[simp] theorem writeStatus_rspVal (v : Word) (s : State) : (writeStatus v s).rspVal = s.rspVal := rfl
@[simp] theorem writeStatus_irq (v : Word) (s : State) : (writeStatus v s).irq = ((s.done && !v.getLsbD 1) && s.ie) := rfl
@[simp] theorem writeStatus_schedule (v : Word) (s : State) : (writeStatus v s).schedule = s.schedule := rfl
@[simp] theorem writeStatus_requests (v : Word) (s : State) : (writeStatus v s).requests = s.requests := rfl
@[simp] theorem writeStatus_answers (v : Word) (s : State) : (writeStatus v s).answers = s.answers := rfl

/-! `writeCtrl` -/

@[simp] theorem writeCtrl_busy (v : Word) (s : State) : (writeCtrl v s).busy = s.busy := rfl
@[simp] theorem writeCtrl_done (v : Word) (s : State) : (writeCtrl v s).done = s.done := rfl
@[simp] theorem writeCtrl_err (v : Word) (s : State) : (writeCtrl v s).err = s.err := rfl
@[simp] theorem writeCtrl_ovr (v : Word) (s : State) : (writeCtrl v s).ovr = s.ovr := rfl
@[simp] theorem writeCtrl_errcode (v : Word) (s : State) : (writeCtrl v s).errcode = s.errcode := rfl
@[simp] theorem writeCtrl_phase (v : Word) (s : State) : (writeCtrl v s).phase = s.phase := rfl
@[simp] theorem writeCtrl_sub (v : Word) (s : State) : (writeCtrl v s).sub = s.sub := rfl
@[simp] theorem writeCtrl_op (v : Word) (s : State) : (writeCtrl v s).op = s.op := rfl
@[simp] theorem writeCtrl_opaLo (v : Word) (s : State) : (writeCtrl v s).opaLo = s.opaLo := rfl
@[simp] theorem writeCtrl_opaHi (v : Word) (s : State) : (writeCtrl v s).opaHi = s.opaHi := rfl
@[simp] theorem writeCtrl_resLo (v : Word) (s : State) : (writeCtrl v s).resLo = s.resLo := rfl
@[simp] theorem writeCtrl_resHi (v : Word) (s : State) : (writeCtrl v s).resHi = s.resHi := rfl
@[simp] theorem writeCtrl_maxpoll (v : Word) (s : State) : (writeCtrl v s).maxpoll = v.extractLsb' 0 16 := rfl
@[simp] theorem writeCtrl_ie (v : Word) (s : State) : (writeCtrl v s).ie = v.getLsbD 16 := rfl
@[simp] theorem writeCtrl_csw (v : Word) (s : State) : (writeCtrl v s).csw = s.csw := rfl
@[simp] theorem writeCtrl_keys (v : Word) (s : State) : (writeCtrl v s).keys = s.keys := rfl
@[simp] theorem writeCtrl_loopcnt (v : Word) (s : State) : (writeCtrl v s).loopcnt = s.loopcnt := rfl
@[simp] theorem writeCtrl_blk (v : Word) (s : State) : (writeCtrl v s).blk = s.blk := rfl
@[simp] theorem writeCtrl_latMaxpoll (v : Word) (s : State) : (writeCtrl v s).latMaxpoll = s.latMaxpoll := rfl
@[simp] theorem writeCtrl_latKeys (v : Word) (s : State) : (writeCtrl v s).latKeys = s.latKeys := rfl
@[simp] theorem writeCtrl_reqOut (v : Word) (s : State) : (writeCtrl v s).reqOut = s.reqOut := rfl
@[simp] theorem writeCtrl_abortPending (v : Word) (s : State) : (writeCtrl v s).abortPending = s.abortPending := rfl
@[simp] theorem writeCtrl_rspVal (v : Word) (s : State) : (writeCtrl v s).rspVal = s.rspVal := rfl
@[simp] theorem writeCtrl_irq (v : Word) (s : State) : (writeCtrl v s).irq = (s.done && v.getLsbD 16) := rfl
@[simp] theorem writeCtrl_schedule (v : Word) (s : State) : (writeCtrl v s).schedule = s.schedule := rfl
@[simp] theorem writeCtrl_requests (v : Word) (s : State) : (writeCtrl v s).requests = s.requests := rfl
@[simp] theorem writeCtrl_answers (v : Word) (s : State) : (writeCtrl v s).answers = s.answers := rfl

/-! `writeOpaLo` -/

@[simp] theorem writeOpaLo_busy (v : Word) (s : State) : (writeOpaLo v s).busy = s.busy := rfl
@[simp] theorem writeOpaLo_done (v : Word) (s : State) : (writeOpaLo v s).done = s.done := rfl
@[simp] theorem writeOpaLo_err (v : Word) (s : State) : (writeOpaLo v s).err = s.err := rfl
@[simp] theorem writeOpaLo_ovr (v : Word) (s : State) : (writeOpaLo v s).ovr = s.ovr := rfl
@[simp] theorem writeOpaLo_errcode (v : Word) (s : State) : (writeOpaLo v s).errcode = s.errcode := rfl
@[simp] theorem writeOpaLo_phase (v : Word) (s : State) : (writeOpaLo v s).phase = s.phase := rfl
@[simp] theorem writeOpaLo_sub (v : Word) (s : State) : (writeOpaLo v s).sub = s.sub := rfl
@[simp] theorem writeOpaLo_op (v : Word) (s : State) : (writeOpaLo v s).op = s.op := rfl
@[simp] theorem writeOpaLo_opaLo (v : Word) (s : State) : (writeOpaLo v s).opaLo = v := rfl
@[simp] theorem writeOpaLo_opaHi (v : Word) (s : State) : (writeOpaLo v s).opaHi = s.opaHi := rfl
@[simp] theorem writeOpaLo_resLo (v : Word) (s : State) : (writeOpaLo v s).resLo = s.resLo := rfl
@[simp] theorem writeOpaLo_resHi (v : Word) (s : State) : (writeOpaLo v s).resHi = s.resHi := rfl
@[simp] theorem writeOpaLo_maxpoll (v : Word) (s : State) : (writeOpaLo v s).maxpoll = s.maxpoll := rfl
@[simp] theorem writeOpaLo_ie (v : Word) (s : State) : (writeOpaLo v s).ie = s.ie := rfl
@[simp] theorem writeOpaLo_csw (v : Word) (s : State) : (writeOpaLo v s).csw = s.csw := rfl
@[simp] theorem writeOpaLo_keys (v : Word) (s : State) : (writeOpaLo v s).keys = s.keys := rfl
@[simp] theorem writeOpaLo_loopcnt (v : Word) (s : State) : (writeOpaLo v s).loopcnt = s.loopcnt := rfl
@[simp] theorem writeOpaLo_blk (v : Word) (s : State) : (writeOpaLo v s).blk = s.blk := rfl
@[simp] theorem writeOpaLo_latMaxpoll (v : Word) (s : State) : (writeOpaLo v s).latMaxpoll = s.latMaxpoll := rfl
@[simp] theorem writeOpaLo_latKeys (v : Word) (s : State) : (writeOpaLo v s).latKeys = s.latKeys := rfl
@[simp] theorem writeOpaLo_reqOut (v : Word) (s : State) : (writeOpaLo v s).reqOut = s.reqOut := rfl
@[simp] theorem writeOpaLo_abortPending (v : Word) (s : State) : (writeOpaLo v s).abortPending = s.abortPending := rfl
@[simp] theorem writeOpaLo_rspVal (v : Word) (s : State) : (writeOpaLo v s).rspVal = s.rspVal := rfl
@[simp] theorem writeOpaLo_irq (v : Word) (s : State) : (writeOpaLo v s).irq = s.irq := rfl
@[simp] theorem writeOpaLo_schedule (v : Word) (s : State) : (writeOpaLo v s).schedule = s.schedule := rfl
@[simp] theorem writeOpaLo_requests (v : Word) (s : State) : (writeOpaLo v s).requests = s.requests := rfl
@[simp] theorem writeOpaLo_answers (v : Word) (s : State) : (writeOpaLo v s).answers = s.answers := rfl

/-! `writeOpaHi` -/

@[simp] theorem writeOpaHi_busy (v : Word) (s : State) : (writeOpaHi v s).busy = s.busy := rfl
@[simp] theorem writeOpaHi_done (v : Word) (s : State) : (writeOpaHi v s).done = s.done := rfl
@[simp] theorem writeOpaHi_err (v : Word) (s : State) : (writeOpaHi v s).err = s.err := rfl
@[simp] theorem writeOpaHi_ovr (v : Word) (s : State) : (writeOpaHi v s).ovr = s.ovr := rfl
@[simp] theorem writeOpaHi_errcode (v : Word) (s : State) : (writeOpaHi v s).errcode = s.errcode := rfl
@[simp] theorem writeOpaHi_phase (v : Word) (s : State) : (writeOpaHi v s).phase = s.phase := rfl
@[simp] theorem writeOpaHi_sub (v : Word) (s : State) : (writeOpaHi v s).sub = s.sub := rfl
@[simp] theorem writeOpaHi_op (v : Word) (s : State) : (writeOpaHi v s).op = s.op := rfl
@[simp] theorem writeOpaHi_opaLo (v : Word) (s : State) : (writeOpaHi v s).opaLo = s.opaLo := rfl
@[simp] theorem writeOpaHi_opaHi (v : Word) (s : State) : (writeOpaHi v s).opaHi = v := rfl
@[simp] theorem writeOpaHi_resLo (v : Word) (s : State) : (writeOpaHi v s).resLo = s.resLo := rfl
@[simp] theorem writeOpaHi_resHi (v : Word) (s : State) : (writeOpaHi v s).resHi = s.resHi := rfl
@[simp] theorem writeOpaHi_maxpoll (v : Word) (s : State) : (writeOpaHi v s).maxpoll = s.maxpoll := rfl
@[simp] theorem writeOpaHi_ie (v : Word) (s : State) : (writeOpaHi v s).ie = s.ie := rfl
@[simp] theorem writeOpaHi_csw (v : Word) (s : State) : (writeOpaHi v s).csw = s.csw := rfl
@[simp] theorem writeOpaHi_keys (v : Word) (s : State) : (writeOpaHi v s).keys = s.keys := rfl
@[simp] theorem writeOpaHi_loopcnt (v : Word) (s : State) : (writeOpaHi v s).loopcnt = s.loopcnt := rfl
@[simp] theorem writeOpaHi_blk (v : Word) (s : State) : (writeOpaHi v s).blk = s.blk := rfl
@[simp] theorem writeOpaHi_latMaxpoll (v : Word) (s : State) : (writeOpaHi v s).latMaxpoll = s.latMaxpoll := rfl
@[simp] theorem writeOpaHi_latKeys (v : Word) (s : State) : (writeOpaHi v s).latKeys = s.latKeys := rfl
@[simp] theorem writeOpaHi_reqOut (v : Word) (s : State) : (writeOpaHi v s).reqOut = s.reqOut := rfl
@[simp] theorem writeOpaHi_abortPending (v : Word) (s : State) : (writeOpaHi v s).abortPending = s.abortPending := rfl
@[simp] theorem writeOpaHi_rspVal (v : Word) (s : State) : (writeOpaHi v s).rspVal = s.rspVal := rfl
@[simp] theorem writeOpaHi_irq (v : Word) (s : State) : (writeOpaHi v s).irq = s.irq := rfl
@[simp] theorem writeOpaHi_schedule (v : Word) (s : State) : (writeOpaHi v s).schedule = s.schedule := rfl
@[simp] theorem writeOpaHi_requests (v : Word) (s : State) : (writeOpaHi v s).requests = s.requests := rfl
@[simp] theorem writeOpaHi_answers (v : Word) (s : State) : (writeOpaHi v s).answers = s.answers := rfl

/-! `writeKeys` -/

@[simp] theorem writeKeys_busy (v : Word) (s : State) : (writeKeys v s).busy = s.busy := rfl
@[simp] theorem writeKeys_done (v : Word) (s : State) : (writeKeys v s).done = s.done := rfl
@[simp] theorem writeKeys_err (v : Word) (s : State) : (writeKeys v s).err = s.err := rfl
@[simp] theorem writeKeys_ovr (v : Word) (s : State) : (writeKeys v s).ovr = s.ovr := rfl
@[simp] theorem writeKeys_errcode (v : Word) (s : State) : (writeKeys v s).errcode = s.errcode := rfl
@[simp] theorem writeKeys_phase (v : Word) (s : State) : (writeKeys v s).phase = s.phase := rfl
@[simp] theorem writeKeys_sub (v : Word) (s : State) : (writeKeys v s).sub = s.sub := rfl
@[simp] theorem writeKeys_op (v : Word) (s : State) : (writeKeys v s).op = s.op := rfl
@[simp] theorem writeKeys_opaLo (v : Word) (s : State) : (writeKeys v s).opaLo = s.opaLo := rfl
@[simp] theorem writeKeys_opaHi (v : Word) (s : State) : (writeKeys v s).opaHi = s.opaHi := rfl
@[simp] theorem writeKeys_resLo (v : Word) (s : State) : (writeKeys v s).resLo = s.resLo := rfl
@[simp] theorem writeKeys_resHi (v : Word) (s : State) : (writeKeys v s).resHi = s.resHi := rfl
@[simp] theorem writeKeys_maxpoll (v : Word) (s : State) : (writeKeys v s).maxpoll = s.maxpoll := rfl
@[simp] theorem writeKeys_ie (v : Word) (s : State) : (writeKeys v s).ie = s.ie := rfl
@[simp] theorem writeKeys_csw (v : Word) (s : State) : (writeKeys v s).csw = s.csw := rfl
@[simp] theorem writeKeys_keys (v : Word) (s : State) : (writeKeys v s).keys = v := rfl
@[simp] theorem writeKeys_loopcnt (v : Word) (s : State) : (writeKeys v s).loopcnt = s.loopcnt := rfl
@[simp] theorem writeKeys_blk (v : Word) (s : State) : (writeKeys v s).blk = s.blk := rfl
@[simp] theorem writeKeys_latMaxpoll (v : Word) (s : State) : (writeKeys v s).latMaxpoll = s.latMaxpoll := rfl
@[simp] theorem writeKeys_latKeys (v : Word) (s : State) : (writeKeys v s).latKeys = s.latKeys := rfl
@[simp] theorem writeKeys_reqOut (v : Word) (s : State) : (writeKeys v s).reqOut = s.reqOut := rfl
@[simp] theorem writeKeys_abortPending (v : Word) (s : State) : (writeKeys v s).abortPending = s.abortPending := rfl
@[simp] theorem writeKeys_rspVal (v : Word) (s : State) : (writeKeys v s).rspVal = s.rspVal := rfl
@[simp] theorem writeKeys_irq (v : Word) (s : State) : (writeKeys v s).irq = s.irq := rfl
@[simp] theorem writeKeys_schedule (v : Word) (s : State) : (writeKeys v s).schedule = s.schedule := rfl
@[simp] theorem writeKeys_requests (v : Word) (s : State) : (writeKeys v s).requests = s.requests := rfl
@[simp] theorem writeKeys_answers (v : Word) (s : State) : (writeKeys v s).answers = s.answers := rfl

/-! `setBlk` -/

@[simp] theorem setBlk_busy (m : Memory) (s : State) : (setBlk m s).busy = s.busy := rfl
@[simp] theorem setBlk_done (m : Memory) (s : State) : (setBlk m s).done = s.done := rfl
@[simp] theorem setBlk_err (m : Memory) (s : State) : (setBlk m s).err = s.err := rfl
@[simp] theorem setBlk_ovr (m : Memory) (s : State) : (setBlk m s).ovr = s.ovr := rfl
@[simp] theorem setBlk_errcode (m : Memory) (s : State) : (setBlk m s).errcode = s.errcode := rfl
@[simp] theorem setBlk_phase (m : Memory) (s : State) : (setBlk m s).phase = s.phase := rfl
@[simp] theorem setBlk_sub (m : Memory) (s : State) : (setBlk m s).sub = s.sub := rfl
@[simp] theorem setBlk_op (m : Memory) (s : State) : (setBlk m s).op = s.op := rfl
@[simp] theorem setBlk_opaLo (m : Memory) (s : State) : (setBlk m s).opaLo = s.opaLo := rfl
@[simp] theorem setBlk_opaHi (m : Memory) (s : State) : (setBlk m s).opaHi = s.opaHi := rfl
@[simp] theorem setBlk_resLo (m : Memory) (s : State) : (setBlk m s).resLo = s.resLo := rfl
@[simp] theorem setBlk_resHi (m : Memory) (s : State) : (setBlk m s).resHi = s.resHi := rfl
@[simp] theorem setBlk_maxpoll (m : Memory) (s : State) : (setBlk m s).maxpoll = s.maxpoll := rfl
@[simp] theorem setBlk_ie (m : Memory) (s : State) : (setBlk m s).ie = s.ie := rfl
@[simp] theorem setBlk_csw (m : Memory) (s : State) : (setBlk m s).csw = s.csw := rfl
@[simp] theorem setBlk_keys (m : Memory) (s : State) : (setBlk m s).keys = s.keys := rfl
@[simp] theorem setBlk_loopcnt (m : Memory) (s : State) : (setBlk m s).loopcnt = s.loopcnt := rfl
@[simp] theorem setBlk_blk (m : Memory) (s : State) : (setBlk m s).blk = m := rfl
@[simp] theorem setBlk_latMaxpoll (m : Memory) (s : State) : (setBlk m s).latMaxpoll = s.latMaxpoll := rfl
@[simp] theorem setBlk_latKeys (m : Memory) (s : State) : (setBlk m s).latKeys = s.latKeys := rfl
@[simp] theorem setBlk_reqOut (m : Memory) (s : State) : (setBlk m s).reqOut = s.reqOut := rfl
@[simp] theorem setBlk_abortPending (m : Memory) (s : State) : (setBlk m s).abortPending = s.abortPending := rfl
@[simp] theorem setBlk_rspVal (m : Memory) (s : State) : (setBlk m s).rspVal = s.rspVal := rfl
@[simp] theorem setBlk_irq (m : Memory) (s : State) : (setBlk m s).irq = s.irq := rfl
@[simp] theorem setBlk_schedule (m : Memory) (s : State) : (setBlk m s).schedule = s.schedule := rfl
@[simp] theorem setBlk_requests (m : Memory) (s : State) : (setBlk m s).requests = s.requests := rfl
@[simp] theorem setBlk_answers (m : Memory) (s : State) : (setBlk m s).answers = s.answers := rfl

/-! `resetTurn` -/

@[simp] theorem resetTurn_busy (s : State) : (resetTurn s).busy = false := rfl
@[simp] theorem resetTurn_done (s : State) : (resetTurn s).done = false := rfl
@[simp] theorem resetTurn_err (s : State) : (resetTurn s).err = false := rfl
@[simp] theorem resetTurn_ovr (s : State) : (resetTurn s).ovr = false := rfl
@[simp] theorem resetTurn_errcode (s : State) : (resetTurn s).errcode = .none := rfl
@[simp] theorem resetTurn_phase (s : State) : (resetTurn s).phase = .idle := rfl
@[simp] theorem resetTurn_sub (s : State) : (resetTurn s).sub = .s0 := rfl
@[simp] theorem resetTurn_op (s : State) : (resetTurn s).op = 0 := rfl
@[simp] theorem resetTurn_opaLo (s : State) : (resetTurn s).opaLo = 0 := rfl
@[simp] theorem resetTurn_opaHi (s : State) : (resetTurn s).opaHi = 0 := rfl
@[simp] theorem resetTurn_resLo (s : State) : (resetTurn s).resLo = 0 := rfl
@[simp] theorem resetTurn_resHi (s : State) : (resetTurn s).resHi = 0 := rfl
@[simp] theorem resetTurn_maxpoll (s : State) : (resetTurn s).maxpoll = 0 := rfl
@[simp] theorem resetTurn_ie (s : State) : (resetTurn s).ie = false := rfl
@[simp] theorem resetTurn_csw (s : State) : (resetTurn s).csw = 0 := rfl
@[simp] theorem resetTurn_keys (s : State) : (resetTurn s).keys = Config.keysReset := rfl
@[simp] theorem resetTurn_loopcnt (s : State) : (resetTurn s).loopcnt = 0 := rfl
@[simp] theorem resetTurn_blk (s : State) : (resetTurn s).blk = [] := rfl
@[simp] theorem resetTurn_latMaxpoll (s : State) : (resetTurn s).latMaxpoll = 0 := rfl
@[simp] theorem resetTurn_latKeys (s : State) : (resetTurn s).latKeys = Config.keysReset := rfl
@[simp] theorem resetTurn_reqOut (s : State) : (resetTurn s).reqOut = false := rfl
@[simp] theorem resetTurn_abortPending (s : State) : (resetTurn s).abortPending = false := rfl
@[simp] theorem resetTurn_rspVal (s : State) : (resetTurn s).rspVal = 0 := rfl
@[simp] theorem resetTurn_irq (s : State) : (resetTurn s).irq = false := rfl
@[simp] theorem resetTurn_schedule (s : State) : (resetTurn s).schedule = s.schedule := rfl
@[simp] theorem resetTurn_requests (s : State) : (resetTurn s).requests = s.requests := rfl
@[simp] theorem resetTurn_answers (s : State) : (resetTurn s).answers = s.answers := rfl

/-! `State.reset` -/

@[simp] theorem reset_busy : (State.reset).busy = false := rfl
@[simp] theorem reset_done : (State.reset).done = false := rfl
@[simp] theorem reset_err : (State.reset).err = false := rfl
@[simp] theorem reset_ovr : (State.reset).ovr = false := rfl
@[simp] theorem reset_errcode : (State.reset).errcode = .none := rfl
@[simp] theorem reset_phase : (State.reset).phase = .idle := rfl
@[simp] theorem reset_sub : (State.reset).sub = .s0 := rfl
@[simp] theorem reset_op : (State.reset).op = 0 := rfl
@[simp] theorem reset_opaLo : (State.reset).opaLo = 0 := rfl
@[simp] theorem reset_opaHi : (State.reset).opaHi = 0 := rfl
@[simp] theorem reset_resLo : (State.reset).resLo = 0 := rfl
@[simp] theorem reset_resHi : (State.reset).resHi = 0 := rfl
@[simp] theorem reset_maxpoll : (State.reset).maxpoll = 0 := rfl
@[simp] theorem reset_ie : (State.reset).ie = false := rfl
@[simp] theorem reset_csw : (State.reset).csw = 0 := rfl
@[simp] theorem reset_keys : (State.reset).keys = Config.keysReset := rfl
@[simp] theorem reset_loopcnt : (State.reset).loopcnt = 0 := rfl
@[simp] theorem reset_blk : (State.reset).blk = [] := rfl
@[simp] theorem reset_latMaxpoll : (State.reset).latMaxpoll = 0 := rfl
@[simp] theorem reset_latKeys : (State.reset).latKeys = Config.keysReset := rfl
@[simp] theorem reset_reqOut : (State.reset).reqOut = false := rfl
@[simp] theorem reset_abortPending : (State.reset).abortPending = false := rfl
@[simp] theorem reset_rspVal : (State.reset).rspVal = 0 := rfl
@[simp] theorem reset_irq : (State.reset).irq = false := rfl
@[simp] theorem reset_schedule : (State.reset).schedule = [] := rfl
@[simp] theorem reset_requests : (State.reset).requests = [] := rfl
@[simp] theorem reset_answers : (State.reset).answers = [] := rfl

/-! `goto` -/

@[simp] theorem goto_busy (p : Phase) (s : State) : (goto p s).busy = s.busy := rfl
@[simp] theorem goto_done (p : Phase) (s : State) : (goto p s).done = s.done := rfl
@[simp] theorem goto_err (p : Phase) (s : State) : (goto p s).err = s.err := rfl
@[simp] theorem goto_ovr (p : Phase) (s : State) : (goto p s).ovr = s.ovr := rfl
@[simp] theorem goto_errcode (p : Phase) (s : State) : (goto p s).errcode = s.errcode := rfl
@[simp] theorem goto_phase (p : Phase) (s : State) : (goto p s).phase = p := rfl
@[simp] theorem goto_sub (p : Phase) (s : State) : (goto p s).sub = .s0 := rfl
@[simp] theorem goto_op (p : Phase) (s : State) : (goto p s).op = s.op := rfl
@[simp] theorem goto_opaLo (p : Phase) (s : State) : (goto p s).opaLo = s.opaLo := rfl
@[simp] theorem goto_opaHi (p : Phase) (s : State) : (goto p s).opaHi = s.opaHi := rfl
@[simp] theorem goto_resLo (p : Phase) (s : State) : (goto p s).resLo = s.resLo := rfl
@[simp] theorem goto_resHi (p : Phase) (s : State) : (goto p s).resHi = s.resHi := rfl
@[simp] theorem goto_maxpoll (p : Phase) (s : State) : (goto p s).maxpoll = s.maxpoll := rfl
@[simp] theorem goto_ie (p : Phase) (s : State) : (goto p s).ie = s.ie := rfl
@[simp] theorem goto_csw (p : Phase) (s : State) : (goto p s).csw = s.csw := rfl
@[simp] theorem goto_keys (p : Phase) (s : State) : (goto p s).keys = s.keys := rfl
@[simp] theorem goto_loopcnt (p : Phase) (s : State) : (goto p s).loopcnt = s.loopcnt := rfl
@[simp] theorem goto_blk (p : Phase) (s : State) : (goto p s).blk = s.blk := rfl
@[simp] theorem goto_latMaxpoll (p : Phase) (s : State) : (goto p s).latMaxpoll = s.latMaxpoll := rfl
@[simp] theorem goto_latKeys (p : Phase) (s : State) : (goto p s).latKeys = s.latKeys := rfl
@[simp] theorem goto_reqOut (p : Phase) (s : State) : (goto p s).reqOut = s.reqOut := rfl
@[simp] theorem goto_abortPending (p : Phase) (s : State) : (goto p s).abortPending = s.abortPending := rfl
@[simp] theorem goto_rspVal (p : Phase) (s : State) : (goto p s).rspVal = s.rspVal := rfl
@[simp] theorem goto_irq (p : Phase) (s : State) : (goto p s).irq = s.irq := rfl
@[simp] theorem goto_schedule (p : Phase) (s : State) : (goto p s).schedule = s.schedule := rfl
@[simp] theorem goto_requests (p : Phase) (s : State) : (goto p s).requests = s.requests := rfl
@[simp] theorem goto_answers (p : Phase) (s : State) : (goto p s).answers = s.answers := rfl

/-! `enterLoop` -/

@[simp] theorem enterLoop_busy (p : Phase) (s : State) : (enterLoop p s).busy = s.busy := rfl
@[simp] theorem enterLoop_done (p : Phase) (s : State) : (enterLoop p s).done = s.done := rfl
@[simp] theorem enterLoop_err (p : Phase) (s : State) : (enterLoop p s).err = s.err := rfl
@[simp] theorem enterLoop_ovr (p : Phase) (s : State) : (enterLoop p s).ovr = s.ovr := rfl
@[simp] theorem enterLoop_errcode (p : Phase) (s : State) : (enterLoop p s).errcode = s.errcode := rfl
@[simp] theorem enterLoop_phase (p : Phase) (s : State) : (enterLoop p s).phase = p := rfl
@[simp] theorem enterLoop_sub (p : Phase) (s : State) : (enterLoop p s).sub = .s0 := rfl
@[simp] theorem enterLoop_op (p : Phase) (s : State) : (enterLoop p s).op = s.op := rfl
@[simp] theorem enterLoop_opaLo (p : Phase) (s : State) : (enterLoop p s).opaLo = s.opaLo := rfl
@[simp] theorem enterLoop_opaHi (p : Phase) (s : State) : (enterLoop p s).opaHi = s.opaHi := rfl
@[simp] theorem enterLoop_resLo (p : Phase) (s : State) : (enterLoop p s).resLo = s.resLo := rfl
@[simp] theorem enterLoop_resHi (p : Phase) (s : State) : (enterLoop p s).resHi = s.resHi := rfl
@[simp] theorem enterLoop_maxpoll (p : Phase) (s : State) : (enterLoop p s).maxpoll = s.maxpoll := rfl
@[simp] theorem enterLoop_ie (p : Phase) (s : State) : (enterLoop p s).ie = s.ie := rfl
@[simp] theorem enterLoop_csw (p : Phase) (s : State) : (enterLoop p s).csw = s.csw := rfl
@[simp] theorem enterLoop_keys (p : Phase) (s : State) : (enterLoop p s).keys = s.keys := rfl
@[simp] theorem enterLoop_loopcnt (p : Phase) (s : State) : (enterLoop p s).loopcnt = 0 := rfl
@[simp] theorem enterLoop_blk (p : Phase) (s : State) : (enterLoop p s).blk = s.blk := rfl
@[simp] theorem enterLoop_latMaxpoll (p : Phase) (s : State) : (enterLoop p s).latMaxpoll = s.latMaxpoll := rfl
@[simp] theorem enterLoop_latKeys (p : Phase) (s : State) : (enterLoop p s).latKeys = s.latKeys := rfl
@[simp] theorem enterLoop_reqOut (p : Phase) (s : State) : (enterLoop p s).reqOut = s.reqOut := rfl
@[simp] theorem enterLoop_abortPending (p : Phase) (s : State) : (enterLoop p s).abortPending = s.abortPending := rfl
@[simp] theorem enterLoop_rspVal (p : Phase) (s : State) : (enterLoop p s).rspVal = s.rspVal := rfl
@[simp] theorem enterLoop_irq (p : Phase) (s : State) : (enterLoop p s).irq = s.irq := rfl
@[simp] theorem enterLoop_schedule (p : Phase) (s : State) : (enterLoop p s).schedule = s.schedule := rfl
@[simp] theorem enterLoop_requests (p : Phase) (s : State) : (enterLoop p s).requests = s.requests := rfl
@[simp] theorem enterLoop_answers (p : Phase) (s : State) : (enterLoop p s).answers = s.answers := rfl

/-! `answer` -/

@[simp] theorem answer_busy (a : HostAnswer) (s : State) : (answer a s).busy = s.busy := rfl
@[simp] theorem answer_done (a : HostAnswer) (s : State) : (answer a s).done = s.done := rfl
@[simp] theorem answer_err (a : HostAnswer) (s : State) : (answer a s).err = s.err := rfl
@[simp] theorem answer_ovr (a : HostAnswer) (s : State) : (answer a s).ovr = s.ovr := rfl
@[simp] theorem answer_errcode (a : HostAnswer) (s : State) : (answer a s).errcode = s.errcode := rfl
@[simp] theorem answer_phase (a : HostAnswer) (s : State) : (answer a s).phase = s.phase := rfl
@[simp] theorem answer_sub (a : HostAnswer) (s : State) : (answer a s).sub = s.sub := rfl
@[simp] theorem answer_op (a : HostAnswer) (s : State) : (answer a s).op = s.op := rfl
@[simp] theorem answer_opaLo (a : HostAnswer) (s : State) : (answer a s).opaLo = s.opaLo := rfl
@[simp] theorem answer_opaHi (a : HostAnswer) (s : State) : (answer a s).opaHi = s.opaHi := rfl
@[simp] theorem answer_resLo (a : HostAnswer) (s : State) : (answer a s).resLo = s.resLo := rfl
@[simp] theorem answer_resHi (a : HostAnswer) (s : State) : (answer a s).resHi = s.resHi := rfl
@[simp] theorem answer_maxpoll (a : HostAnswer) (s : State) : (answer a s).maxpoll = s.maxpoll := rfl
@[simp] theorem answer_ie (a : HostAnswer) (s : State) : (answer a s).ie = s.ie := rfl
@[simp] theorem answer_csw (a : HostAnswer) (s : State) : (answer a s).csw = s.csw := rfl
@[simp] theorem answer_keys (a : HostAnswer) (s : State) : (answer a s).keys = s.keys := rfl
@[simp] theorem answer_loopcnt (a : HostAnswer) (s : State) : (answer a s).loopcnt = s.loopcnt := rfl
@[simp] theorem answer_blk (a : HostAnswer) (s : State) : (answer a s).blk = s.blk := rfl
@[simp] theorem answer_latMaxpoll (a : HostAnswer) (s : State) : (answer a s).latMaxpoll = s.latMaxpoll := rfl
@[simp] theorem answer_latKeys (a : HostAnswer) (s : State) : (answer a s).latKeys = s.latKeys := rfl
@[simp] theorem answer_reqOut (a : HostAnswer) (s : State) : (answer a s).reqOut = s.reqOut := rfl
@[simp] theorem answer_abortPending (a : HostAnswer) (s : State) : (answer a s).abortPending = s.abortPending := rfl
@[simp] theorem answer_rspVal (a : HostAnswer) (s : State) : (answer a s).rspVal = s.rspVal := rfl
@[simp] theorem answer_irq (a : HostAnswer) (s : State) : (answer a s).irq = s.irq := rfl
@[simp] theorem answer_schedule (a : HostAnswer) (s : State) : (answer a s).schedule = s.schedule := rfl
@[simp] theorem answer_requests (a : HostAnswer) (s : State) : (answer a s).requests = s.requests := rfl
@[simp] theorem answer_answers (a : HostAnswer) (s : State) : (answer a s).answers = s.answers ++ [a] := rfl

/-! The frame and the request of a position depend on PHASE, SUB, OP and `lat_keys` alone. -/

@[simp] theorem frameOf_driveIrq (s : State) : frameOf (s.driveIrq) = frameOf s := rfl
@[simp] theorem currentRequest_driveIrq (s : State) : currentRequest (s.driveIrq) = currentRequest s := rfl
@[simp] theorem frameOf_dropWord (s : State) : frameOf (dropWord s) = frameOf s := rfl
@[simp] theorem currentRequest_dropWord (s : State) : currentRequest (dropWord s) = currentRequest s := rfl
@[simp] theorem frameOf_raiseError (code : ErrorCode) (s : State) : frameOf (raiseError code s) = frameOf s := rfl
@[simp] theorem currentRequest_raiseError (code : ErrorCode) (s : State) : currentRequest (raiseError code s) = currentRequest s := rfl
@[simp] theorem frameOf_endWithResult (hi lo : Word) (s : State) : frameOf (endWithResult hi lo s) = frameOf s := rfl
@[simp] theorem currentRequest_endWithResult (hi lo : Word) (s : State) : currentRequest (endWithResult hi lo s) = currentRequest s := rfl
@[simp] theorem frameOf_markAbort (s : State) : frameOf (markAbort s) = frameOf s := rfl
@[simp] theorem currentRequest_markAbort (s : State) : currentRequest (markAbort s) = currentRequest s := rfl
@[simp] theorem frameOf_withSchedule (u : List Turn) (s : State) : frameOf (withSchedule u s) = frameOf s := rfl
@[simp] theorem currentRequest_withSchedule (u : List Turn) (s : State) : currentRequest (withSchedule u s) = currentRequest s := rfl
@[simp] theorem frameOf_sendRequest (q : Request) (s : State) : frameOf (sendRequest q s) = frameOf s := rfl
@[simp] theorem currentRequest_sendRequest (q : Request) (s : State) : currentRequest (sendRequest q s) = currentRequest s := rfl
@[simp] theorem frameOf_clearRequest (s : State) : frameOf (clearRequest s) = frameOf s := rfl
@[simp] theorem currentRequest_clearRequest (s : State) : currentRequest (clearRequest s) = currentRequest s := rfl
@[simp] theorem frameOf_saveResponse (b0 b1 : Byte) (s : State) : frameOf (saveResponse b0 b1 s) = frameOf s := rfl
@[simp] theorem currentRequest_saveResponse (b0 b1 : Byte) (s : State) : currentRequest (saveResponse b0 b1 s) = currentRequest s := rfl
@[simp] theorem frameOf_saveStatus (s : State) : frameOf (saveStatus s) = frameOf s := rfl
@[simp] theorem currentRequest_saveStatus (s : State) : currentRequest (saveStatus s) = currentRequest s := rfl
@[simp] theorem frameOf_setLoopcnt (n : Half) (s : State) : frameOf (setLoopcnt n s) = frameOf s := rfl
@[simp] theorem currentRequest_setLoopcnt (n : Half) (s : State) : currentRequest (setLoopcnt n s) = currentRequest s := rfl
@[simp] theorem frameOf_writeStatus (v : Word) (s : State) : frameOf (writeStatus v s) = frameOf s := rfl
@[simp] theorem currentRequest_writeStatus (v : Word) (s : State) : currentRequest (writeStatus v s) = currentRequest s := rfl
@[simp] theorem frameOf_writeCtrl (v : Word) (s : State) : frameOf (writeCtrl v s) = frameOf s := rfl
@[simp] theorem currentRequest_writeCtrl (v : Word) (s : State) : currentRequest (writeCtrl v s) = currentRequest s := rfl
@[simp] theorem frameOf_writeOpaLo (v : Word) (s : State) : frameOf (writeOpaLo v s) = frameOf s := rfl
@[simp] theorem currentRequest_writeOpaLo (v : Word) (s : State) : currentRequest (writeOpaLo v s) = currentRequest s := rfl
@[simp] theorem frameOf_writeOpaHi (v : Word) (s : State) : frameOf (writeOpaHi v s) = frameOf s := rfl
@[simp] theorem currentRequest_writeOpaHi (v : Word) (s : State) : currentRequest (writeOpaHi v s) = currentRequest s := rfl
@[simp] theorem frameOf_writeKeys (v : Word) (s : State) : frameOf (writeKeys v s) = frameOf s := rfl
@[simp] theorem currentRequest_writeKeys (v : Word) (s : State) : currentRequest (writeKeys v s) = currentRequest s := rfl
@[simp] theorem frameOf_setBlk (m : Memory) (s : State) : frameOf (setBlk m s) = frameOf s := rfl
@[simp] theorem currentRequest_setBlk (m : Memory) (s : State) : currentRequest (setBlk m s) = currentRequest s := rfl
@[simp] theorem frameOf_answer (a : HostAnswer) (s : State) : frameOf (answer a s) = frameOf s := rfl
@[simp] theorem currentRequest_answer (a : HostAnswer) (s : State) : currentRequest (answer a s) = currentRequest s := rfl

end Sys2Proof.Machine
end

