-- ==== Sys2Proof/Laws/Memory.lean ====
section
/-! SUPPORT. The block buffer as memory: reading after writing, and every operation keeps the canonical form. -/
namespace Sys2Proof.Machine

@[simp] theorem Memory.read_nil (a : Nat) : Memory.read [] a = blkResetByte := rfl

@[simp] theorem Memory.read_cons (a' : Nat) (b : Byte) (m : Memory) (a : Nat) :
    Memory.read ((a', b) :: m) a = if a = a' then b else Memory.read m a := rfl

@[simp] theorem Memory.wfFrom_nil (lo : Nat) : Memory.wfFrom lo [] = true := rfl

theorem Memory.wfFrom_cons (lo a : Nat) (b : Byte) (m : Memory) :
    Memory.wfFrom lo ((a, b) :: m) = true
      ↔ lo ≤ a ∧ a < 0x60 ∧ b ≠ blkResetByte ∧ Memory.wfFrom (a + 1) m = true := by
  simp only [Memory.wfFrom, Bool.and_eq_true, decide_eq_true_eq, bne_iff_ne, ne_eq, and_assoc]
  exact Iff.rfl

/-- A memory in canonical form from an offset on is so from any lower offset on. -/
theorem Memory.wfFrom_mono {lo lo' : Nat} (h : lo' ≤ lo) {m : Memory} (hm : Memory.wfFrom lo m = true) :
    Memory.wfFrom lo' m = true := by
  cases m with
  | nil => rfl
  | cons c m =>
    obtain ⟨a, b⟩ := c
    rw [Memory.wfFrom_cons] at hm ⊢
    exact ⟨by omega, hm.2⟩

/-- Below its first offset a memory holds reset bytes. -/
theorem Memory.read_below {lo a : Nat} {m : Memory} (hm : Memory.wfFrom lo m = true) (h : a < lo) :
    m.read a = blkResetByte := by
  induction m generalizing lo with
  | nil => rfl
  | cons c m ih =>
    obtain ⟨a', b⟩ := c
    rw [Memory.wfFrom_cons] at hm
    rw [Memory.read_cons, if_neg (by omega), ih hm.2.2.2 (by omega)]

/-- Reading any offset after one byte is written. -/
theorem Memory.read_write {lo : Nat} {m : Memory} (hm : Memory.wfFrom lo m = true) (a : Nat) (b : Byte) (x : Nat) :
    (m.write a b).read x = if x = a then b else m.read x := by
  induction m generalizing lo with
  | nil => by_cases hb : b = blkResetByte <;> by_cases hx : x = a <;> simp [Memory.write, hb, hx]
  | cons c m ih =>
    obtain ⟨a', b'⟩ := c
    rw [Memory.wfFrom_cons] at hm
    have hlow : a ≤ a' → Memory.read m a = blkResetByte := fun h =>
      Memory.read_below hm.2.2.2 (Nat.lt_succ_of_le h)
    by_cases hx : x = a
    · subst hx
      rw [if_pos rfl]
      unfold Memory.write
      split_ifs with h1 h2 h3 h4
      · rw [Memory.read_cons, if_neg (by omega), hlow (by omega), h2]
      · rw [Memory.read_cons, if_pos rfl]
      · rw [hlow (by omega), h4]
      · rw [Memory.read_cons, if_pos rfl]
      · rw [Memory.read_cons, if_neg h3, ih hm.2.2.2, if_pos rfl]
    · rw [if_neg hx]
      unfold Memory.write
      split_ifs with h1 h2 h3 h4
      · rfl
      · rw [Memory.read_cons, if_neg hx]
      · rw [Memory.read_cons, if_neg (h3 ▸ hx)]
      · rw [Memory.read_cons, if_neg hx, Memory.read_cons, if_neg (h3 ▸ hx)]
      · rw [Memory.read_cons, Memory.read_cons, ih hm.2.2.2, if_neg hx]

/-- One written byte keeps the canonical form. -/
theorem Memory.wfFrom_write {lo : Nat} {m : Memory} (hm : Memory.wfFrom lo m = true) {a : Nat} (b : Byte)
    (hlo : lo ≤ a) (hhi : a < 0x60) : Memory.wfFrom lo (m.write a b) = true := by
  induction m generalizing lo with
  | nil => by_cases hb : b = blkResetByte <;> simp [Memory.write, hb, Memory.wfFrom_cons, hlo, hhi]
  | cons c m ih =>
    obtain ⟨a', b'⟩ := c
    have hm' := hm
    rw [Memory.wfFrom_cons] at hm
    have htail := Memory.wfFrom_mono (Nat.le_of_lt (Nat.lt_succ_of_le hm.1)) hm.2.2.2
    unfold Memory.write
    split_ifs with h1 h2 h3 h4
    · exact hm'
    · rw [Memory.wfFrom_cons, Memory.wfFrom_cons]
      exact ⟨hlo, hhi, h2, by omega, hm.2.1, hm.2.2⟩
    · exact htail
    · rw [Memory.wfFrom_cons]
      exact ⟨hlo, hhi, h4, h3 ▸ hm.2.2.2⟩
    · rw [Memory.wfFrom_cons]
      exact ⟨hm.1, hm.2.1, hm.2.2.1, ih hm.2.2.2 (by omega)⟩

/-- A byte written in the window keeps the canonical form. -/
theorem Memory.wf_write {m : Memory} (hm : m.wf = true) {a : Nat} (b : Byte) (hlo : 0x40 ≤ a) (hhi : a < 0x60) :
    (m.write a b).wf = true := Memory.wfFrom_write hm b hlo hhi

/-- A word written in the window keeps the canonical form. -/
theorem Memory.wf_writeWord {m : Memory} (hm : m.wf = true) {a : Nat} (v : Word) (hlo : 0x40 ≤ a)
    (hhi : a + 3 < 0x60) : (m.writeWord a v).wf = true :=
  Memory.wf_write (Memory.wf_write (Memory.wf_write (Memory.wf_write hm _ hlo (by omega)) _ (by omega) (by omega)) _
    (by omega) (by omega)) _ (by omega) hhi

/-- Reading any offset of a window in canonical form after one byte is written. -/
theorem Memory.read_write_of_wf {m : Memory} (hm : m.wf = true) (a : Nat) (b : Byte) (x : Nat) :
    (m.write a b).read x = if x = a then b else m.read x := Memory.read_write hm a b x

/-- Two memories in canonical form that read alike are equal. -/
theorem Memory.ext_of_wfFrom {lo : Nat} {m n : Memory} (hm : Memory.wfFrom lo m = true) (hn : Memory.wfFrom lo n = true)
    (h : ∀ a, m.read a = n.read a) : m = n := by
  induction m generalizing lo n with
  | nil =>
    cases n with
    | nil => rfl
    | cons c n =>
      obtain ⟨a, b⟩ := c
      rw [Memory.wfFrom_cons] at hn
      have := h a
      simp at this
      exact absurd this.symm hn.2.2.1
  | cons c m ih =>
    obtain ⟨a, b⟩ := c
    rw [Memory.wfFrom_cons] at hm
    cases n with
    | nil =>
      have := h a
      simp at this
      exact absurd this hm.2.2.1
    | cons c' n =>
      obtain ⟨a', b'⟩ := c'
      rw [Memory.wfFrom_cons] at hn
      have haa : a = a' := by
        rcases Nat.lt_trichotomy a a' with hlt | heq | hlt
        · have := h a
          rw [Memory.read_cons, Memory.read_cons, if_pos rfl, if_neg (by omega),
            Memory.read_below hn.2.2.2 (by omega)] at this
          exact absurd this hm.2.2.1
        · exact heq
        · have := h a'
          rw [Memory.read_cons, Memory.read_cons, if_pos rfl, if_neg (by omega),
            Memory.read_below hm.2.2.2 (by omega)] at this
          exact absurd this.symm hn.2.2.1
      subst haa
      have hbb : b = b' := by simpa using h a
      subst hbb
      congr 1
      refine ih hm.2.2.2 hn.2.2.2 fun x => ?_
      by_cases hx : x = a
      · rw [hx, Memory.read_below hm.2.2.2 (by omega), Memory.read_below hn.2.2.2 (by omega)]
      · have := h x
        simpa [hx] using this

/-- The memory of the reset state is in canonical form. -/
theorem reset_blk_wf : State.reset.blk.wf = true := rfl

end Sys2Proof.Machine
end

