-- ==== Sys2Proof/Laws/Ops.lean ====
section
/-! SUPPORT. For each shared operation, once, everything it can do: the inversion lemmas that later proofs cite instead of
unfolding the operation. -/
namespace Sys2Proof.Machine

/-! Submitting a word -/

theorem submitWord_busy {op : BitVec 4} {run : State → State} {s : State} (h : s.busy = true) :
    submitWord op run s = dropWord s := by simp [submitWord, h]

theorem submitWord_idle {op : BitVec 4} {run : State → State} {s : State} (h : s.busy = false) :
    submitWord op run s = run (acceptWord op s) := by simp [submitWord, h]

/-- XENC ends with a result, or with one of its two errors (41_xemics.md R108). -/
theorem runXenc_cases (s : State) :
    (∃ w, runXenc s = endWithResult 0 w s) ∨ runXenc s = raiseError .xemicsDomain s
      ∨ runXenc s = raiseError .xemicsRange s := by
  unfold runXenc
  cases f64Class (opa s) <;> simp only [or_true, true_or]
  cases xenc (opa s) with
  | none => exact .inr (.inr rfl)
  | some w => exact .inl ⟨w, rfl⟩

/-- What an accepted word does to a state in which it was accepted: it ends with a result, ends with an error, or starts
a sequence at an entry position of its own. -/
inductive Accepted (op : BitVec 4) (s : State) : State → Prop where
  | result (hi lo : Word) : Accepted op s (endWithResult hi lo (acceptWord op s))
  | error (code : ErrorCode) (h : code ≠ .none) : Accepted op s (raiseError code (acceptWord op s))
  | start (entry : Phase) (h : phaseOfCommand op entry = true) : Accepted op s (startSequence entry (acceptWord op s))

/-- A command's meaning answers a next state: ABORT, a dropped word, or an accepted one (30_encoding.md R74). -/
theorem exec_cases {i : Instr} {s t : State} (h : exec i s = .next t) :
    (i = .abort ∧ s.busy = true ∧ t = markAbort s) ∨ (i = .abort ∧ s.busy = false ∧ t = s)
      ∨ (i ≠ .abort ∧ s.busy = true ∧ t = dropWord s)
      ∨ (i ≠ .abort ∧ s.busy = false ∧ Accepted i.op s t) := by
  cases hb : s.busy
  · cases i <;> simp only [exec, execCsumGen, execCsumCheck, execXdec, execXenc, execCalEnter, execCalExit,
      execCalCcOffset, execCalBoardOffset, execAbort, submitWord_idle hb, hb, Host.Outcome.next.injEq] at h <;> subst h
    case abort => simp
    case xenc =>
      refine .inr (.inr (.inr ⟨by simp, rfl, ?_⟩))
      obtain ⟨w, hw⟩ | hw | hw := runXenc_cases (acceptWord Instr.xenc.op s) <;> rw [hw]
      · exact .result _ _
      · exact .error _ (by simp)
      · exact .error _ (by simp)
    case csumGen => exact .inr (.inr (.inr ⟨by simp, rfl, .result _ _⟩))
    case csumCheck => exact .inr (.inr (.inr ⟨by simp, rfl, .result _ _⟩))
    case xdec => exact .inr (.inr (.inr ⟨by simp, rfl, .result _ _⟩))
    case calEnter => exact .inr (.inr (.inr ⟨by simp, rfl, .start _ rfl⟩))
    case calExit => exact .inr (.inr (.inr ⟨by simp, rfl, .start _ rfl⟩))
    case calCcOffset => exact .inr (.inr (.inr ⟨by simp, rfl, .start _ rfl⟩))
    case calBoardOffset => exact .inr (.inr (.inr ⟨by simp, rfl, .start _ rfl⟩))
  · cases i <;> simp [exec, execCsumGen, execCsumCheck, execXdec, execXenc, execCalEnter, execCalExit,
      execCalCcOffset, execCalBoardOffset, execAbort, submitWord_busy hb, hb] at h ⊢ <;> exact h.symm

/-- No command stops (30_encoding.md R74). -/
theorem exec_next (i : Instr) (s : State) : ∃ t, exec i s = .next t := by cases i <;> exact ⟨_, rfl⟩

/-- A submitted word answers a next state: ABORT, a dropped word, or an accepted one (30_encoding.md R74). -/
theorem submit_cases {w : Word} {s t : State} (h : submit w s = .next t) :
    (decode w = .ok .abort ∧ s.busy = true ∧ t = markAbort s)
      ∨ (decode w = .ok .abort ∧ s.busy = false ∧ t = s)
      ∨ (decode w ≠ .ok .abort ∧ s.busy = true ∧ t = dropWord s)
      ∨ (decode w ≠ .ok .abort ∧ s.busy = false ∧ ∃ op, Accepted op s t) := by
  unfold submit at h
  cases hd : decode w with
  | ok i =>
    rw [hd] at h
    obtain ⟨rfl, hb, ht⟩ | ⟨rfl, hb, ht⟩ | ⟨hi, hb, ht⟩ | ⟨hi, hb, ht⟩ := exec_cases h
    · exact .inl ⟨rfl, hb, ht⟩
    · exact .inr (.inl ⟨rfl, hb, ht⟩)
    · exact .inr (.inr (.inl ⟨by simpa using hi, hb, ht⟩))
    · exact .inr (.inr (.inr ⟨by simpa using hi, hb, _, ht⟩))
  | error e =>
    rw [hd] at h
    simp only [submitIllegal, Host.Outcome.next.injEq] at h
    cases hb : s.busy
    · rw [submitWord_idle hb] at h
      subst h
      exact .inr (.inr (.inr ⟨by simp, rfl, opField w, .error _ (by simp)⟩))
    · rw [submitWord_busy hb] at h
      exact .inr (.inr (.inl ⟨by simp, rfl, h.symm⟩))

/-- No submitted word stops the machine. -/
theorem submit_next (w : Word) (s : State) : ∃ t, submit w s = .next t := by
  unfold submit
  cases decode w with
  | ok i => exact exec_next i s
  | error e => exact ⟨_, rfl⟩

/-! The sequencer -/

theorem ofPosition_next {o : Option State} {t : State} : ofPosition o = .next t ↔ o = some t := by
  cases o <;> simp [ofPosition]

/-- The failed-poll step raises CAL_TIMEOUT at the bound and else goes to the head of the loop (42_calseq.md R138). -/
theorem failPoll_cases (L : Phase) (s : State) :
    (s.latMaxpoll ≠ 0 ∧ s.latMaxpoll ≤ bumpLoopcnt s.loopcnt
        ∧ failPoll L s = raiseError .calTimeout (setLoopcnt (bumpLoopcnt s.loopcnt) s))
      ∨ (¬ (s.latMaxpoll ≠ 0 ∧ s.latMaxpoll ≤ bumpLoopcnt s.loopcnt)
        ∧ failPoll L s = goto L (setLoopcnt (bumpLoopcnt s.loopcnt) s)) := by
  by_cases h : s.latMaxpoll ≠ 0 ∧ s.latMaxpoll ≤ bumpLoopcnt s.loopcnt
  · exact .inl ⟨h.1, h.2, if_pos h⟩
  · exact .inr ⟨h, if_neg h⟩

/-- What the end of a phase does (the table of 42_calseq.md R135): on to a phase, into a loop, to the end, or a failed
poll; from a phase of the running command to a phase of the same command. -/
inductive PhaseEnd (s : State) : State → Prop where
  | goto (p : Phase) (h : phaseOfCommand s.op s.phase = true → phaseOfCommand s.op p = true) : PhaseEnd s (goto p s)
  | enterLoop (p : Phase) (h : phaseOfCommand s.op s.phase = true → phaseOfCommand s.op p = true) :
      PhaseEnd s (enterLoop p s)
  | complete : PhaseEnd s (completeSequence s)
  | fail (p : Phase) (h : phaseOfCommand s.op s.phase = true → phaseOfCommand s.op p = true)
      (hp : pollPhase s.phase = true) : PhaseEnd s (failPoll p s)

/-- A phase of a command moves to a phase of the same command, if the two stand in the same procedures. -/
theorem phaseOfCommand_of_same {op : BitVec 4} {p q : Phase} (he : enterPhase p = enterPhase q)
    (hx : exitPhase p = exitPhase q) (ho : offsetPhase p = offsetPhase q) (h : phaseOfCommand op p = true) :
    phaseOfCommand op q = true := by
  unfold phaseOfCommand at *
  rw [← he, ← hx, ← ho]
  exact h

theorem phaseOfCommand_of_offset {op : BitVec 4} (h : op = Instr.calCcOffset.op ∨ op = Instr.calBoardOffset.op)
    {p : Phase} (hp : (enterPhase p || offsetPhase p || exitPhase p) = true) : phaseOfCommand op p = true := by
  rcases h with rfl | rfl <;> simpa [phaseOfCommand, Instr.op] using hp

/-- A command that has an offset phase is one of the two offset commands. -/
theorem offset_of_phaseOfCommand {op : BitVec 4} {p : Phase} (hp : offsetPhase p = true)
    (h : phaseOfCommand op p = true) : op = Instr.calCcOffset.op ∨ op = Instr.calBoardOffset.op := by
  have hx : enterPhase p = false ∧ exitPhase p = false := by cases p <;> simp_all [offsetPhase, enterPhase, exitPhase]
  unfold phaseOfCommand at h
  rw [hx.1, hx.2] at h
  split_ifs at h with h1 h2 h3 h4
  · exact .inl h3
  · exact .inr h4

theorem phaseDone_cases {s t : State} (h : phaseDone s = some t) : PhaseEnd s t := by
  unfold phaseDone at h
  cases hp : s.phase <;> rw [hp] at h <;> dsimp only at h
  case idle => cases h
  case enPoll =>
    split_ifs at h with hc
    · unfold enPollSeen at h
      split_ifs at h with h1 h2 h3 <;> cases h
      · exact .complete
      · exact .enterLoop _ fun _ => phaseOfCommand_of_offset (.inl h2) rfl
      · exact .enterLoop _ fun _ => phaseOfCommand_of_offset (.inr h3) rfl
    · cases h
      exact .fail _ (phaseOfCommand_of_same (by rw [hp]; rfl) (by rw [hp]; rfl) (by rw [hp]; rfl)) (by rw [hp]; rfl)
  case exPoll =>
    split_ifs at h <;> cases h
    · exact .fail _ (phaseOfCommand_of_same (by rw [hp]; rfl) (by rw [hp]; rfl) (by rw [hp]; rfl)) (by rw [hp]; rfl)
    · exact .goto _ (phaseOfCommand_of_same (by rw [hp]; rfl) (by rw [hp]; rfl) (by rw [hp]; rfl))
  case ofPoll1 =>
    split at h <;> cases h
    · exact .enterLoop _ (phaseOfCommand_of_same (by rw [hp]; rfl) (by rw [hp]; rfl) (by rw [hp]; rfl))
    · exact .fail _ (phaseOfCommand_of_same (by rw [hp]; rfl) (by rw [hp]; rfl) (by rw [hp]; rfl)) (by rw [hp]; rfl)
  case ofPoll2 =>
    split at h <;> cases h
    · exact .fail _ (phaseOfCommand_of_same (by rw [hp]; rfl) (by rw [hp]; rfl) (by rw [hp]; rfl)) (by rw [hp]; rfl)
    · exact .goto _ (phaseOfCommand_of_same (by rw [hp]; rfl) (by rw [hp]; rfl) (by rw [hp]; rfl))
  case exSettle2 => cases h; exact .complete
  case ofSave =>
    cases h
    exact .enterLoop _ fun hc => phaseOfCommand_of_offset (offset_of_phaseOfCommand (p := .ofSave) rfl (hp ▸ hc)) rfl
  all_goals
    cases h
    exact .goto _ (phaseOfCommand_of_same (by rw [hp]; rfl) (by rw [hp]; rfl) (by rw [hp]; rfl))

/-- What an `ok` that fits the request does (42_calseq.md R126, R128, R135): SUB moves on in a phase of three requests,
or the phase ends, a status poll having written CSW. -/
theorem afterOk_cases {f : Frame} {s t : State} (hf : frameOf s = some f) (h : afterOk f s = some t) :
    (∃ b, threeRequestPhase s.phase = true ∧ t = moveSub b s) ∨ PhaseEnd s t
      ∨ PhaseEnd (saveStatus s) t := by
  have h3 : ∀ k, f = .subcommand k ∨ f = .statusPoll → threeRequestPhase s.phase = true := by
    intro k hk
    unfold frameOf at hf
    cases hp : s.phase <;> rw [hp] at hf <;> rcases hk with rfl | rfl <;> simp_all [threeRequestPhase]
  unfold afterOk at h
  split at h
  · exact .inl ⟨_, h3 _ (.inl rfl), (Option.some.inj h).symm⟩
  · exact .inl ⟨_, h3 _ (.inl rfl), (Option.some.inj h).symm⟩
  · exact .inr (.inl (phaseDone_cases h))
  · exact .inl ⟨_, h3 0 (.inr rfl), (Option.some.inj h).symm⟩
  · exact .inl ⟨_, h3 0 (.inr rfl), (Option.some.inj h).symm⟩
  · exact .inr (.inr (phaseDone_cases h))
  · exact .inr (.inl (phaseDone_cases h))
  · exact .inr (.inl (phaseDone_cases h))

/-- Whether a response has the form its request asks for (10_state.md R41). -/
def fits : Request → Response → Bool
  | .write _ _, .ok => true
  | .sleep _, .ok => true
  | .read _ _, .okData _ _ => true
  | _, _ => false

/-- The response step: BUS_ERROR on a response that does not fit, else an advance, with `rsp_val` written by a READ's
response alone (42_calseq.md R130). -/
theorem responseStep_cases {r : Response} {s t : State} (h : responseStep r s = .next t) :
    ∃ f q, frameOf s = some f ∧ currentRequest s = some q
      ∧ ((fits q r = false ∧ t = raiseError .busError (clearRequest s))
        ∨ (fits q r = true ∧ r = .ok ∧ afterOk f (clearRequest s) = some t)
        ∨ (fits q r = true ∧ ∃ b0 b1, r = .okData b0 b1
            ∧ afterOk f (saveResponse b0 b1 (clearRequest s)) = some t)) := by
  unfold responseStep at h
  split at h
  · next f q hf hq =>
    refine ⟨f, q, hf, hq, ?_⟩
    cases q <;> cases r <;> simp only [ofPosition_next, Host.Outcome.next.injEq] at h <;>
      first
        | exact .inl ⟨rfl, h.symm⟩
        | exact .inr (.inl ⟨rfl, rfl, h⟩)
        | exact .inr (.inr ⟨rfl, _, _, rfl, h⟩)
  · cases h

/-- A turn of the Block: nothing, the abort step, or the issue step (42_calseq.md R130). -/
theorem blockTurn_cases {s t : State} (h : blockTurn s = .next t) :
    (¬ (s.busy = true ∧ s.reqOut = false) ∧ t = s)
      ∨ (s.busy = true ∧ s.reqOut = false ∧ s.abortPending = true ∧ t = raiseError .aborted s)
      ∨ (s.busy = true ∧ s.reqOut = false ∧ s.abortPending = false ∧ ∃ q, currentRequest s = some q
          ∧ t = sendRequest q s) := by
  unfold blockTurn at h
  cases hb : s.busy <;> cases hr : s.reqOut <;> cases ha : s.abortPending <;>
    simp only [hb, hr, ha, Bool.and_true, Bool.and_false, Bool.not_true, Bool.not_false, if_true,
      Bool.false_eq_true, if_false, Host.Outcome.next.injEq, issueStep, ofPosition_next, Option.map_eq_some_iff] at h
  case true.false.false =>
    obtain ⟨q, hq, ht⟩ := h
    exact .inr (.inr ⟨rfl, rfl, rfl, q, hq, ht.symm⟩)
  case true.false.true => exact .inr (.inl ⟨rfl, rfl, rfl, h.symm⟩)
  all_goals exact .inl ⟨by simp, h.symm⟩

/-- A turn of the Environment: a response step, or nothing (10_state.md R41). -/
theorem environmentTurn_cases {r : Response} {s t : State} (h : environmentTurn r s = .next t) :
    (¬ (s.busy = true ∧ s.reqOut = true) ∧ t = s)
      ∨ (s.busy = true ∧ s.reqOut = true ∧ responseStep r s = .next t) := by
  unfold environmentTurn at h
  cases hb : s.busy <;> cases hr : s.reqOut <;> simp [hb, hr] at h ⊢ <;> first | exact h.symm | exact h

/-! The host port -/

/-- What a legal 4-byte write that is not of CMD does to a state (20_memory.md R61). -/
inductive Written (off : Offset) (v : Word) (s : State) : State → Prop where
  | status : regAt off = .status → Written off v s (writeStatus v s)
  | opaLo : regAt off = .opaLo → Written off v s (writeOpaLo v s)
  | opaHi : regAt off = .opaHi → Written off v s (writeOpaHi v s)
  | ctrl : regAt off = .ctrl → Written off v s (writeCtrl v s)
  | keys : regAt off = .keys → Written off v s (writeKeys v s)
  | blk : regAt off = .blk → Written off v s (setBlk (s.blk.writeWord off.toNat v) s)
  | ignored : Written off v s s

theorem writeReg_cases {off : Offset} {v : Word} {s t : State} (h : writeReg off v s = .next t) :
    (regAt off = .cmd ∧ submit v s = .next t) ∨ (regAt off ≠ .cmd ∧ Written off v s t) := by
  unfold writeReg at h
  cases hr : regAt off <;> rw [hr] at h <;> simp only [Host.Outcome.next.injEq] at h
  case cmd => exact .inl ⟨rfl, h⟩
  all_goals refine .inr ⟨by simp, ?_⟩; subst h
  case status => exact .status hr
  case opaLo => exact .opaLo hr
  case opaHi => exact .opaHi hr
  case ctrl => exact .ctrl hr
  case keys => exact .keys hr
  case blk => exact .blk hr
  all_goals exact .ignored

theorem inBlk_iff (off : Offset) : inBlk off = true ↔ 0x40 ≤ off.toNat ∧ off.toNat ≤ 0x5F := by
  simp [inBlk]

theorem regAt_blk_iff (off : Offset) : regAt off = .blk ↔ inBlk off = true := by
  unfold regAt
  split_ifs with h
  · simp [h]
  · simp only [h]
    split <;> simp

theorem legalAt_iff (off : Offset) (n : Nat) :
    legalAt off n = true ↔ (n = 4 ∧ off.toNat % 4 = 0) ∨ (n = 1 ∧ inBlk off = true) := by
  simp [legalAt]

/-- What a turn of the Host does (10_state.md R39, 20_memory.md R52, R61). -/
inductive HostDone (s : State) : HostAccess → State → Prop where
  | illegal (a : HostAccess) (h : accessLegal a = false) : HostDone s a (answer .accessError s)
  | read (off : Offset) (n : Nat) (d : HostAnswer) (h : legalAt off n = true) :
      HostDone s (.read off n) (answer d s)
  | byte (off : Offset) (v : Word) (h : inBlk off = true) :
      HostDone s (.write off 1 v) (answer .ok (setBlk (s.blk.write off.toNat (v.extractLsb' 0 8)) s))
  | command (off : Offset) (v : Word) (h : regAt off = .cmd) (t : State)
      (ht : submit v (answer .ok s) = .next t) : HostDone s (.write off 4 v) t
  | word (off : Offset) (v : Word) (h : off.toNat % 4 = 0) (hr : regAt off ≠ .cmd) (t : State)
      (ht : Written off v (answer .ok s) t) : HostDone s (.write off 4 v) t

theorem hostTurn_cases {a : HostAccess} {s t : State} (h : hostTurn a s = .next t) : HostDone s a t := by
  unfold hostTurn at h
  cases hl : accessLegal a
  · simp only [hl, Bool.false_eq_true, if_false, Host.Outcome.next.injEq] at h
    exact h ▸ .illegal a hl
  · rw [if_pos hl] at h
    cases a with
    | read off n =>
      simp only [Host.Outcome.next.injEq] at h
      exact h ▸ .read off n _ hl
    | write off n v =>
      dsimp only at h
      obtain ⟨rfl, h4⟩ | ⟨rfl, h1⟩ := (legalAt_iff off n).1 hl
      · rw [if_pos rfl] at h
        obtain ⟨hr, hs⟩ | ⟨hr, hw⟩ := writeReg_cases h
        · exact .command off v hr t hs
        · exact .word off v h4 hr t hw
      · rw [if_neg (by decide)] at h
        simp only [Host.Outcome.next.injEq] at h
        exact h ▸ .byte off v h1

/-- No host access stops the machine (10_state.md R39). -/
theorem hostTurn_next (a : HostAccess) (s : State) : ∃ t, hostTurn a s = .next t := by
  unfold hostTurn
  split_ifs
  · cases a with
    | read off n => exact ⟨_, rfl⟩
    | write off n v =>
      dsimp only
      split_ifs
      · unfold writeReg
        cases regAt off <;> first | exact ⟨_, rfl⟩ | exact submit_next _ _
      · exact ⟨_, rfl⟩
  · exact ⟨_, rfl⟩

/-! A step -/

/-- A step takes the next turn of the schedule; with none left it is the Block's. -/
theorem step_nil {s : State} (h : s.schedule = []) : step s = blockTurn s := by
  simp [step, fetchTurn, h, runTurn]

theorem step_cons {s : State} {u : Turn} {rest : List Turn} (h : s.schedule = u :: rest) :
    step s = runTurn u (withSchedule rest s) := by simp [step, fetchTurn, h]

/-- A step that answers a next state is a turn of the Block, of the Environment, of the Host, or the reset event. -/
theorem step_cases {s t : State} (h : step s = .next t) :
    ∃ s', (s' = s ∨ ∃ u, s.schedule = u :: s'.schedule ∧ s' = withSchedule s'.schedule s)
      ∧ (blockTurn s' = .next t ∨ (∃ r, s.schedule.head? = some (.environment r) ∧ environmentTurn r s' = .next t)
        ∨ (∃ a, s.schedule.head? = some (.host a) ∧ HostDone s' a t)
        ∨ (s.schedule.head? = some .assertReset ∧ t = resetTurn s')) := by
  cases hs : s.schedule with
  | nil => exact ⟨s, .inl rfl, .inl (step_nil hs ▸ h)⟩
  | cons u rest =>
    rw [step_cons hs] at h
    refine ⟨withSchedule rest s, .inr ⟨u, rfl, rfl⟩, ?_⟩
    cases u with
    | block => exact .inl h
    | environment r => exact .inr (.inl ⟨r, rfl, h⟩)
    | host a => exact .inr (.inr (.inl ⟨a, rfl, hostTurn_cases h⟩))
    | assertReset => exact .inr (.inr (.inr ⟨rfl, (Host.Outcome.next.inj h).symm⟩))

end Sys2Proof.Machine
end

