-- ==== Sys2Proof/Laws/PerInstr.lean ====
section
/-! SUPPORT. The per-instruction family OpcodeIsItsOwn: what holds of each command as syntax, one lemma per command. -/
namespace Sys2Proof.Laws

/-- A command's word has RSV = 0, and its OP is no other command's and not one of the seven reserved values
(30_encoding.md R70 to R72). -/
def OpcodeIsItsOwn.Statement (i : Instr) : Prop :=
  rsvField (encode i) = 0 ∧ opField (encode i) = i.op ∧ (∀ j : Instr, j.op = i.op → j = i)
    ∧ i.op.toNat ∉ [0x0, 0x5, 0x6, 0x7, 0xC, 0xD, 0xE]

theorem OpcodeIsItsOwn.csumGen : OpcodeIsItsOwn.Statement .csumGen :=
  ⟨by decide, by decide, fun j h => by cases j <;> simp_all [Instr.op], by decide⟩

theorem OpcodeIsItsOwn.csumCheck : OpcodeIsItsOwn.Statement .csumCheck :=
  ⟨by decide, by decide, fun j h => by cases j <;> simp_all [Instr.op], by decide⟩

theorem OpcodeIsItsOwn.xdec : OpcodeIsItsOwn.Statement .xdec :=
  ⟨by decide, by decide, fun j h => by cases j <;> simp_all [Instr.op], by decide⟩

theorem OpcodeIsItsOwn.xenc : OpcodeIsItsOwn.Statement .xenc :=
  ⟨by decide, by decide, fun j h => by cases j <;> simp_all [Instr.op], by decide⟩

theorem OpcodeIsItsOwn.calEnter : OpcodeIsItsOwn.Statement .calEnter :=
  ⟨by decide, by decide, fun j h => by cases j <;> simp_all [Instr.op], by decide⟩

theorem OpcodeIsItsOwn.calExit : OpcodeIsItsOwn.Statement .calExit :=
  ⟨by decide, by decide, fun j h => by cases j <;> simp_all [Instr.op], by decide⟩

theorem OpcodeIsItsOwn.calCcOffset : OpcodeIsItsOwn.Statement .calCcOffset :=
  ⟨by decide, by decide, fun j h => by cases j <;> simp_all [Instr.op], by decide⟩

theorem OpcodeIsItsOwn.calBoardOffset : OpcodeIsItsOwn.Statement .calBoardOffset :=
  ⟨by decide, by decide, fun j h => by cases j <;> simp_all [Instr.op], by decide⟩

theorem OpcodeIsItsOwn.abort : OpcodeIsItsOwn.Statement .abort :=
  ⟨by decide, by decide, fun j h => by cases j <;> simp_all [Instr.op], by decide⟩

end Sys2Proof.Laws
end

