-- ==== Sys2Proof/Laws/Program.lean ====
section
/-! SUPPORT. A Host program run between the moves of the other agents: what one move can do, and runs of several. -/
namespace Sys2Proof.Machine

/-- A step on a turn runs that turn and leaves the schedule to the turn. -/
theorem stepOn_eq (u : Turn) (s : State) : stepOn u s = runTurn u s := rfl

@[simp] theorem withProgram_next (p : State → List HostStep) (s : State) :
    withProgram p (.next s) = .next (p s, s) := rfl

@[simp] theorem programAfter_line (l : HostLine) (rest : List HostStep) (s : State) :
    programAfter (.line l) rest s = rest := rfl

/-- A loop stays at the head until the last read ends it. -/
theorem programAfter_loop (l : HostLine) (rest : List HostStep) (s : State) :
    programAfter (.repeatUntilIdle l) rest s = if lastReadDone s then rest else .repeatUntilIdle l :: rest := rfl

/-- What the last 4-byte read says of the loop. -/
theorem lastReadDone_answer (v : Word) (s : State) : lastReadDone (answer (.data4 v) s) = waitDone v := by
  simp [lastReadDone, answer]

/-- A move of the program with an item left is the item's access. -/
theorem runMove_program (i : HostStep) (rest : List HostStep) (s : State) :
    runMove .program (i :: rest) s = withProgram (programAfter i rest) (hostTurn (lineAccess (lineOf i)) s) := rfl

/-- A move of a program with no item left changes nothing. -/
@[simp] theorem runMove_done (s : State) : runMove .program [] s = .next ([], s) := rfl

/-- A move of another agent leaves the program as it is. -/
theorem runMove_other {m : Move} {p q : List HostStep} {s t : State} (hm : m ≠ .program)
    (h : runMove m p s = .next (q, t)) : q = p := by
  cases m with
  | program => exact absurd rfl hm
  | block =>
    simp only [runMove] at h
    cases hs : stepOn .block s <;> rw [hs] at h <;> cases h
    rfl
  | environment r =>
    simp only [runMove] at h
    cases hs : stepOn (.environment r) s <;> rw [hs] at h <;> cases h
    rfl
  | assertReset =>
    simp only [runMove] at h
    cases hs : stepOn .assertReset s <;> rw [hs] at h <;> cases h
    rfl

@[simp] theorem runProgram_nil (p : List HostStep) (s : State) : runProgram [] p s = .next (p, s) := rfl

/-- One move at the head of a run. -/
theorem runProgram_cons {m : Move} {ms : List Move} {p q : List HostStep} {s t : State}
    (h : runMove m p s = .next (q, t)) : runProgram (m :: ms) p s = runProgram ms q t := by
  rw [runProgram, h]

/-- The first move of a run that answers a next state. -/
theorem runProgram_cons_inv {m : Move} {ms : List Move} {p : List HostStep} {s : State} {u : List HostStep × State}
    (h : runProgram (m :: ms) p s = .next u) : ∃ q t, runMove m p s = .next (q, t) ∧ runProgram ms q t = .next u := by
  rw [runProgram] at h
  split at h
  · exact ⟨_, _, by assumption, h⟩
  · cases h
  · cases h

end Sys2Proof.Machine
end

