-- ==== Sys2Proof/Laws/Run.lean ====
section
/-! SUPPORT. Runs of several steps: one step at the head of a run, and one run after another. -/
namespace Sys2Proof.Machine

/-- One step at the head of a run of any machine. -/
theorem runOf_succ {M : Host.Core} {k : Nat} {s t : M.State} (h : M.step s = .next t) :
    M.run (k + 1) s = M.run k t := by rw [Host.Core.run, h]

/-- One step at the head of a run that answers a next state. -/
theorem runOf_succ_inv {M : Host.Core} {k : Nat} {s u : M.State} (h : M.run (k + 1) s = .next u) :
    ∃ t, M.step s = .next t ∧ M.run k t = .next u := by
  rw [Host.Core.run] at h
  split at h
  · exact ⟨_, by assumption, h⟩
  · cases h
  · cases h

/-- Two runs of any machine, one after the other. -/
theorem runOf_add {M : Host.Core} {j k : Nat} {s t : M.State} (h : M.run j s = .next t) :
    M.run (j + k) s = M.run k t := by
  induction j generalizing s with
  | zero =>
    rw [Host.Core.run] at h
    cases h
    rw [Nat.zero_add]
  | succ j ih =>
    obtain ⟨u, hu, hr⟩ := runOf_succ_inv h
    rw [Nat.succ_add, runOf_succ hu, ih hr]

/-- One step at the head of a run. -/
theorem run_succ {k : Nat} {s t : State} (h : step s = .next t) :
    (Sys2Proof.core.run (k + 1) s : Host.Outcome State Fault Refusal) = Sys2Proof.core.run k t :=
  runOf_succ (M := Sys2Proof.core) h

/-- The first step of a run that answers a next state. -/
theorem run_succ_inv {k : Nat} {s u : State}
    (h : (Sys2Proof.core.run (k + 1) s : Host.Outcome State Fault Refusal) = .next u) :
    ∃ t, step s = .next t ∧ (Sys2Proof.core.run k t : Host.Outcome State Fault Refusal) = .next u :=
  runOf_succ_inv (M := Sys2Proof.core) h

/-- Two runs, one after the other. -/
theorem run_add {j k : Nat} {s t : State}
    (h : (Sys2Proof.core.run j s : Host.Outcome State Fault Refusal) = .next t) :
    (Sys2Proof.core.run (j + k) s : Host.Outcome State Fault Refusal) = Sys2Proof.core.run k t :=
  runOf_add (M := Sys2Proof.core) h

end Sys2Proof.Machine
end

