-- ==== Sys2Proof/Tests/Slice0.lean ====
section
/-! SUPPORT. Tests of one step each, with expected values from spec/95_test_vectors.md (sections named), and for every
obligation with hypotheses a witness: a concrete state and operands that meet them together. -/
namespace Sys2Proof.Tests
open Sys2Proof Sys2Proof.Machine

/-! ## States and outcomes for the tests -/

/-- An idle BQCORE with the example keys of 95_test_vectors.md. -/
def idle : State := { State.reset with keys := 0x36720414, latKeys := 0x36720414 }

/-- `idle` with turns to come. -/
def withTurns (u : List Turn) : State := { idle with schedule := u }

/-- `idle` with one access of the Host to come. -/
def access (a : HostAccess) : State := withTurns [.host a]

/-- `idle` with OPA = `hi : lo`. -/
def operands (hi lo : Word) : State := { idle with opaHi := hi, opaLo := lo }

/-- `idle` with BLK = 0x00, 0x01, ..., 0x1F. -/
def counted : State :=
  { idle with blk := (List.range 31).map fun i => (0x41 + i, BitVec.ofNat 8 (i + 1)) }

/-- A running command at a position, between requests. -/
def running (op : BitVec 4) (p : Phase) (b : SubStep) (u : List Turn) : State :=
  { idle with busy := true, op := op, phase := p, sub := b, schedule := u }

/-- A running command at a position, its request outstanding. -/
def waiting (op : BitVec 4) (p : Phase) (b : SubStep) (u : List Turn) : State :=
  { running op p b u with reqOut := true, requests := (currentRequest (running op p b u)).toList }

/-- A field of the next state; none for a stop. -/
def after {α : Type} (o : Host.Outcome State Fault Refusal) (f : State → α) : Option α :=
  match o with
  | .next t => some (f t)
  | .fault _ => none
  | .refused _ => none

/-! ## Well-formedness -/

theorem test_wf_refuses_width_2 : HostAccess.wf (.read 0x40 2) = false := by decide
theorem test_wf_refuses_width_8 : HostAccess.wf (.write 0x40 8 0) = false := by decide
theorem test_wf_refuses_wide_byte : HostAccess.wf (.write 0x40 1 0x100) = false := by decide
theorem test_wf_refuses_read_with_value : LineCode.wf ⟨.r4, 0x04, some 0⟩ = false := by decide
theorem test_wf_refuses_byte_read_with_value : LineCode.wf ⟨.r1, 0x40, some 0⟩ = false := by decide
theorem test_wf_refuses_write_without_value : LineCode.wf ⟨.w4, 0x04, none⟩ = false := by decide
theorem test_wf_refuses_byte_write_without_value : LineCode.wf ⟨.w1, 0x40, none⟩ = false := by decide
theorem test_wf_refuses_wide_byte_line : LineCode.wf ⟨.w1, 0x40, some 0x100⟩ = false := by decide
theorem test_wf_takes_widest_byte : LineCode.wf ⟨.w1, 0x40, some 0xFF⟩ = true := by decide
theorem test_wf_takes_every_command : Instr.wf .abort = true ∧ Instr.wf .csumGen = true := by decide

/-! ## Decoding: words written out from the table of 30_encoding.md R71 -/

theorem test_decode_csumGen : decode 0b0000000000000000000000000000_0001 = .ok .csumGen := by decide
theorem test_decode_csumCheck : decode 0b0000000000000000000000000000_0010 = .ok .csumCheck := by decide
theorem test_decode_xdec : decode 0b0000000000000000000000000000_0011 = .ok .xdec := by decide
theorem test_decode_xenc : decode 0b0000000000000000000000000000_0100 = .ok .xenc := by decide
theorem test_decode_calEnter : decode 0b0000000000000000000000000000_1000 = .ok .calEnter := by decide
theorem test_decode_calExit : decode 0b0000000000000000000000000000_1001 = .ok .calExit := by decide
theorem test_decode_calCcOffset : decode 0b0000000000000000000000000000_1010 = .ok .calCcOffset := by decide
theorem test_decode_calBoardOffset : decode 0b0000000000000000000000000000_1011 = .ok .calBoardOffset := by decide
theorem test_decode_abort : decode 0b0000000000000000000000000000_1111 = .ok .abort := by decide
theorem test_decode_refuses_0 : decode 0x00000000 = .error (.reservedOp 0) := by decide
theorem test_decode_refuses_1F : decode 0x0000001F = .error .rsvNotZero := by decide
theorem test_decode_table_word : decodeTableWord 32 0x0000000B = some .calBoardOffset := by decide
theorem test_fetch_runs_the_word :
    after (step (State.reset.withFetchWord 32 0x00000001)) statusWord = some 0x01000002 := by decide

/-! ## Commands (95_test_vectors.md 2.1, 2.2, 2.3) -/

theorem test_csumGen : after (exec .csumGen counted) (·.resLo) = some 0x0000000F := by decide
theorem test_csumGen_status : after (exec .csumGen idle) statusWord = some 0x01000002 := by decide
theorem test_csumCheck_valid :
    after (exec .csumCheck { counted with opaLo := 0x0000000F }) (·.resLo) = some 0x00000F01 := by decide
theorem test_csumCheck_invalid :
    after (exec .csumCheck { counted with opaLo := 0x00000010 }) (fun t => (t.resLo, statusWord t))
      = some (0x00000F00, 0x02000002) := by decide
theorem test_xdec : after (exec .xdec (operands 0 0x82C00000)) res = some 0xC008000000000000 := by decide
theorem test_xdec_sign_is_bit_23 :
    after (exec .xdec (operands 0 0x00FFFFFF)) res = some 0xB7EFFFFFE0000000 := by decide
theorem test_xenc : after (exec .xenc (operands 0x40153333 0x33333333)) res = some 0x0000000083299999 := by decide
theorem test_xenc_anomaly :
    after (exec .xenc (operands 0xBFF00000 0)) (fun t => (t.resLo, statusWord t))
      = some (0x80800000, 0x04000002) := by decide
theorem test_calEnter_start : after (exec .calEnter idle) statusWord = some 0x08000101 := by decide
theorem test_calExit_start : after (exec .calExit idle) statusWord = some 0x09002001 := by decide
theorem test_calCcOffset_start : after (exec .calCcOffset idle) statusWord = some 0x0A000101 := by decide
theorem test_calBoardOffset_start : after (exec .calBoardOffset idle) statusWord = some 0x0B000101 := by decide
theorem test_abort_idle : after (exec .abort State.reset) statusWord = some 0x00000000 := by decide
theorem test_abort_busy : after (exec .abort (waiting 0x9 .exWait .s0 [])) statusWord = some 0x090C2101 := by decide

/-! ## Sequencer steps (95_test_vectors.md 1.3, 2.4.5, 2.4.6, 2.4.9) -/

theorem test_first_request :
    after (step (running 0x8 .unseal1 .s0 [])) (·.requests) = some [.write 0x55 [0x00, 0x14, 0x04]] := by decide
theorem test_second_key :
    after (step (running 0x8 .unseal2 .s0 [])) (·.requests) = some [.write 0x55 [0x00, 0x72, 0x36]] := by decide
theorem test_low_byte_first :
    after (step (waiting 0x8 .enPoll .s2 [.environment (.okData 0x00 0x10)])) (fun t => (t.csw, t.resLo, statusWord t))
      = some (0x1000, 0x00001000, 0x08000002) := by decide
theorem test_bus_error :
    after (step (waiting 0x8 .enCalen .s2 [.environment .busError])) statusWord = some 0x08021046 := by decide
theorem test_wrong_form :
    after (step (waiting 0x9 .exExit .s2 [.environment .ok])) statusWord = some 0x09022046 := by decide
theorem test_abort_step :
    after (step { running 0x8 .enPoll .s0 [] with abortPending := true }) statusWord = some 0x08001366 := by decide
theorem test_fault_only_off_the_map :
    step (waiting 0x3 .ofCmd .s0 [.environment .ok]) = .fault .positionNeverProduced := rfl

/-! ## Host port (95_test_vectors.md 2.1, 2.5) -/

theorem test_illegal_word :
    after (step (access (.write 0x00 4 0x0000001F))) statusWord = some 0x0F000016 := by decide
theorem test_dropped_word :
    after (step (waiting 0x9 .exExit .s0 [.host (.write 0x00 4 0x00000001)])) statusWord = some 0x09082009 := by decide
theorem test_misaligned : after (step (access (.read 0x06 4))) (·.answers) = some [.accessError] := by decide
theorem test_byte_outside_blk :
    after (step { access (.write 0x04 1 0x02) with done := true }) (fun t => (t.answers, t.done))
      = some ([.accessError], true) := by decide
theorem test_last_byte_of_blk :
    after (step { counted with schedule := [.host (.read 0x5F 1)] }) (·.answers) = some [.data1 0x1F] := by decide
theorem test_reserved_reads_zero : after (step (access (.read 0x7C 4))) (·.answers) = some [.data4 0] := by decide
theorem test_ctrl_reserved_bits :
    after (step (access (.write 0x18 4 0xFFFFFFFF))) ctrlWord = some 0x0001FFFF := by decide
theorem test_ack :
    after (step { access (.write 0x04 4 0x0000000A) with done := true, ovr := true, ie := true, irq := true })
      (fun t => (statusWord t, t.irq)) = some (0, false) := by decide
theorem test_blk_little_endian :
    after (step (access (.write 0x40 4 0x03020100))) (·.blk) = some [(0x41, 1), (0x42, 2), (0x43, 3)] := by decide
theorem test_reset_blk_canonical : State.reset.blk.wf = true := by decide
theorem test_ld_blk_word :
    (expandPseudo (.ldBlk (Vector.ofFn fun i => BitVec.ofNat 8 i.val))).head?
      = some (.line (.sw 0x40 0x03020100)) := by decide

theorem test_wait_stays_while_busy :
    runMove .program (expandPseudo .wait) (waiting 0x9 .exWait .s0 [])
      = .next ([.repeatUntilIdle (.lw 0x04)], { waiting 0x9 .exWait .s0 [] with answers := [.data4 0x09082101] }) := rfl
theorem test_wait_ends_when_idle :
    runMove .program (expandPseudo .wait ++ [.line (.lw 0x10)]) idle
      = .next ([.line (.lw 0x10)], { idle with answers := [.data4 0x00000000] }) := rfl

/-! ## Witnesses: encodings -/

theorem witness_HostLinesRoundTrip : lineDecode ⟨.w1, 0x5F, some 0xFF⟩ = some (.sb 0x5F 0xFF) := by decide

theorem witness_PseudoInstructionsRun :
    ∃ (b : Vector Byte 32) (s : State) (rest : List Turn),
      s.blk.wf = true ∧ s.schedule = lineTurns (expandPseudo (.ldBlk b)) ++ rest :=
  ⟨Vector.ofFn fun i => BitVec.ofNat 8 i.val,
    { counted with schedule := lineTurns (expandPseudo (.ldBlk (Vector.ofFn fun i => BitVec.ofNat 8 i.val))) ++ [.block] },
    [.block], by decide, rfl⟩

theorem witness_PseudoInstructionsRun_wait :
    ∃ (moves : List Move) (s t : State), s.busy = true ∧ runProgram moves (expandPseudo .wait) s = .next ([], t) :=
  ⟨[.program, .environment .ok, .program], waiting 0x9 .exSettle2 .s0 [], _, rfl, rfl⟩

/-! ## Witnesses: a step and the submission of a word -/

theorem witness_StepRunsTheDecodedCommand :
    (access (.write 0x00 4 0x0000000F)).schedule = .host (.write 0x00 4 0x0000000F) :: []
    ∧ decode 0x0000000F = .ok .abort := ⟨rfl, rfl⟩

theorem witness_IllegalWordEndsWithIllegalCmd_rsv :
    idle.busy = false ∧ (access (.write 0x00 4 0x80000001)).schedule = .host (.write 0x00 4 0x80000001) :: []
    ∧ (0x80000001 : Word).extractLsb' 4 28 ≠ 0 := by decide

theorem witness_IllegalWordEndsWithIllegalCmd_op :
    idle.busy = false ∧ (access (.write 0x00 4 0x0000000E)).schedule = .host (.write 0x00 4 0x0000000E) :: []
    ∧ (0x0000000E : Word).extractLsb' 4 28 = 0
    ∧ ((0x0000000E : Word).extractLsb' 0 4).toNat ∈ [0x0, 0x5, 0x6, 0x7, 0xC, 0xD, 0xE] := by decide

theorem witness_WordIsDroppedWhileBusy :
    ∃ (s : State) (rest : List Turn) (w : Word), s.busy = true ∧ w ≠ 0x0000000F
      ∧ s.schedule = .host (.write 0x00 4 w) :: rest :=
  ⟨running 0x9 .exExit .s0 [.host (.write 0x00 4 0x0000001F)], [], 0x0000001F, rfl, by decide, rfl⟩

theorem witness_WordIsDroppedWhileBusy_clear :
    { access (.write 0x04 4 0x00000008) with ovr := true }.ovr = true
    ∧ ∃ t, step { access (.write 0x04 4 0x00000008) with ovr := true } = .next t ∧ t.ovr = false := ⟨rfl, _, rfl, rfl⟩

theorem witness_WordIsDroppedWhileBusy_reset :
    { withTurns [.assertReset] with ovr := true }.ovr = true
    ∧ ∃ t, step { withTurns [.assertReset] with ovr := true } = .next t ∧ t.ovr = false := ⟨rfl, _, rfl, rfl⟩

/-! ## Witnesses: CSUM and XCODEC -/

theorem witness_CsumGenWritesTheChecksum : counted.busy = false := rfl
theorem witness_CsumCheckWritesValid : counted.busy = false := rfl
theorem witness_XdecWritesTheBinary64 : (operands 0 0xFFFFFFFF).busy = false := rfl

theorem witness_ChecksumLaws :
    ([1, 2] ++ List.replicate 30 0 : List Byte).Perm ([2, 1] ++ List.replicate 30 0) :=
  List.Perm.swap _ _ _

theorem witness_XemicsValueLaws : xemicsValue 0x80000000 = xemicsValue 0x80000000 := rfl

/-- The value of 3.0. -/
theorem value_of_three : f64Value 0x4008000000000000 = 3 := by
  rw [f64Value, show f64Sign 0x4008000000000000 = false from rfl,
    show f64Num 0x4008000000000000 = 0x18000000000000 by decide, show f64Pow 0x4008000000000000 = -51 by decide]
  norm_num

/-- The value of 2^-128, the least magnitude that can be encoded. -/
theorem value_of_least : f64Value 0x37F0000000000000 = (2 : ℚ) ^ (-128 : ℤ) := by
  rw [f64Value, show f64Sign 0x37F0000000000000 = false from rfl,
    show f64Num 0x37F0000000000000 = 0x10000000000000 by decide, show f64Pow 0x37F0000000000000 = -180 by decide]
  norm_num

/-- The value of 2^127, the least magnitude too large to encode. -/
theorem value_of_too_large : f64Value 0x47E0000000000000 = 2 ^ 127 := by
  rw [f64Value, show f64Sign 0x47E0000000000000 = false from rfl,
    show f64Num 0x47E0000000000000 = 0x10000000000000 by decide, show f64Pow 0x47E0000000000000 = 75 by decide]
  norm_num

/-- The value of 1.0. -/
theorem value_of_one : f64Value 0x3FF0000000000000 = 1 := by
  rw [f64Value, show f64Sign 0x3FF0000000000000 = false from rfl,
    show f64Num 0x3FF0000000000000 = 0x10000000000000 by decide, show f64Pow 0x3FF0000000000000 = -52 by decide]
  norm_num

theorem witness_XencFollowsTheFormula :
    f64Exp 0x4008000000000000 ≠ 2047 ∧ f64Value 0x4008000000000000 ≠ 0
    ∧ (2 : ℚ) ^ (1 : ℤ) ≤ |f64Value 0x4008000000000000| ∧ |f64Value 0x4008000000000000| < (2 : ℚ) ^ (1 + 1 : ℤ) := by
  refine ⟨by decide, ?_, ?_, ?_⟩ <;> rw [value_of_three] <;> norm_num

theorem witness_XencFollowsTheFormula_bits : xenc 0x4008000000000000 = some 0x82400000 := by decide

theorem witness_XencEndsByItsDomain_zero :
    (operands 0x80000000 0).busy = false ∧ f64Exp 0x8000000000000000 = 0 ∧ f64Frac 0x8000000000000000 = 0
    ∧ f64Exp 0x7FF0000000000001 = 2047 := by decide

theorem witness_XencEndsByItsDomain_range :
    (operands 0x47E00000 0).busy = false ∧ f64Exp 0x47E0000000000000 ≠ 2047
    ∧ ¬ (f64Exp 0x47E0000000000000 = 0 ∧ f64Frac 0x47E0000000000000 = 0)
    ∧ ¬ ((2 : ℚ) ^ (-128 : ℤ) ≤ |f64Value 0x47E0000000000000| ∧ |f64Value 0x47E0000000000000| < 2 ^ 127) := by
  refine ⟨by decide, by decide, by decide, ?_⟩
  rw [value_of_too_large]
  norm_num

theorem witness_XencEndsByItsDomain_least :
    (operands 0x37F00000 0).busy = false ∧ f64Exp 0x37F0000000000000 ≠ 2047
    ∧ (2 : ℚ) ^ (-128 : ℤ) ≤ |f64Value 0x37F0000000000000| ∧ |f64Value 0x37F0000000000000| < 2 ^ 127 := by
  refine ⟨by decide, by decide, ?_, ?_⟩ <;> rw [value_of_least] <;> norm_num

theorem witness_XencEndsByItsDomain_subnormal : f64Exp 0x000FFFFFFFFFFFFF = 0 := by decide

theorem witness_XencRoundTripAboveOne :
    f64Exp 0x4008000000000000 ≠ 2047 ∧ 1 < |f64Value 0x4008000000000000| ∧ |f64Value 0x4008000000000000| < 2 ^ 127
    ∧ (2 : ℚ) ^ (1 : ℤ) ≤ |f64Value 0x4008000000000000| ∧ |f64Value 0x4008000000000000| < (2 : ℚ) ^ (1 + 1 : ℤ)
    ∧ ∃ n m : ℤ, |n| < 2 ^ 24 ∧ f64Value 0x4008000000000000 = n * (2 : ℚ) ^ m := by
  refine ⟨by decide, ?_, ?_, ?_, ?_, 3, 0, by norm_num, ?_⟩ <;> rw [value_of_three] <;> norm_num

theorem witness_XencAnomalyUpToOne :
    f64Exp 0x3FF0000000000000 ≠ 2047 ∧ (2 : ℚ) ^ (-128 : ℤ) ≤ |f64Value 0x3FF0000000000000|
    ∧ |f64Value 0x3FF0000000000000| ≤ 1
    ∧ (2 : ℚ) ^ (0 : ℤ) ≤ |f64Value 0x3FF0000000000000| ∧ |f64Value 0x3FF0000000000000| < (2 : ℚ) ^ (0 + 1 : ℤ) := by
  refine ⟨by decide, ?_, ?_, ?_, ?_⟩ <;> rw [value_of_one] <;> norm_num

/-! ## Witnesses: CALSEQ commands and the sequencer's steps -/

theorem witness_CalCommandsStart : idle.busy = false := rfl
theorem witness_AbortSetsAbortPending : (running 0x8 .unseal1 .s0 []).busy = true ∧ idle.busy = false := ⟨rfl, rfl⟩

theorem witness_RequestsOfThePositions :
    (running 0x8 .unseal1 .s0 []).phase = .unseal1 ∧ (running 0x8 .unseal1 .s0 []).sub = .s0
    ∧ (running 0xB .ofCmd .s2 []).phase = .ofCmd ∧ (running 0xB .ofCmd .s2 []).op = 0xB
    ∧ (running 0xB .ofCmd .s2 []).sub = .s2 := by decide

theorem witness_IssueStepSendsTheRequest :
    ∃ (s : State) (q : Request), s.busy = true ∧ s.reqOut = false ∧ s.abortPending = false
      ∧ currentRequest s = some q ∧ s.schedule = [] :=
  ⟨running 0x9 .exWait .s0 [], .sleep 1000, rfl, rfl, rfl, rfl, rfl⟩

theorem witness_IssueStepSendsTheRequest_turn :
    ∃ (s : State) (q : Request) (rest : List Turn), s.busy = true ∧ s.reqOut = false ∧ s.abortPending = false
      ∧ currentRequest s = some q ∧ s.schedule = .block :: rest :=
  ⟨running 0x9 .exPoll .s2 [.block], .read 0x55 2, [], rfl, rfl, rfl, rfl, rfl⟩

theorem witness_AbortStepOnlyBetweenRequests :
    ∃ (s : State) (rest : List Turn), s.busy = true ∧ s.reqOut = false ∧ s.abortPending = true
      ∧ s.schedule = .block :: rest :=
  ⟨{ running 0x8 .enPoll .s0 [.block] with abortPending := true }, [], rfl, rfl, rfl, rfl⟩

theorem witness_AbortStepOnlyBetweenRequests_waits :
    (waiting 0x8 .enPoll .s0 [.block]).reqOut = true ∧ (waiting 0x8 .enPoll .s0 [.block]).schedule = .block :: [] :=
  ⟨rfl, rfl⟩

theorem witness_WrongResponseEndsWithBusError :
    ∃ (s : State) (rest : List Turn) (q : Request) (r : Response), s.busy = true ∧ s.reqOut = true
      ∧ currentRequest s = some q ∧ s.schedule = .environment r :: rest ∧ q = .read 0x55 2 ∧ r = .ok :=
  ⟨waiting 0x9 .exExit .s2 [.environment .ok], [], _, _, rfl, rfl, rfl, rfl, rfl, rfl⟩

theorem witness_WrongResponseEndsWithBusError_bus :
    ∃ (s : State) (rest : List Turn) (q : Request) (r : Response), s.busy = true ∧ s.reqOut = true
      ∧ currentRequest s = some q ∧ s.schedule = .environment r :: rest ∧ r = .busError :=
  ⟨waiting 0x8 .unseal1 .s0 [.environment .busError], [], _, _, rfl, rfl, rfl, rfl, rfl⟩

theorem witness_WrongResponseEndsWithBusError_data :
    ∃ (s : State) (rest : List Turn) (q : Request) (r : Response), s.busy = true ∧ s.reqOut = true
      ∧ currentRequest s = some q ∧ s.schedule = .environment r :: rest ∧ q ≠ .read 0x55 2 ∧ ∃ b0 b1, r = .okData b0 b1 :=
  ⟨waiting 0x9 .exWait .s0 [.environment (.okData 0 0)], [], .sleep 1000, _, rfl, rfl, rfl, rfl, by decide, 0, 0, rfl⟩

theorem witness_EarlierSubMovesOn :
    ∃ (s : State) (rest : List Turn), s.busy = true ∧ s.reqOut = true ∧ currentRequest s ≠ none
      ∧ threeRequestPhase s.phase = true ∧ s.schedule = .environment .ok :: rest ∧ s.sub = .s1 :=
  ⟨waiting 0xA .ofCmd .s1 [.environment .ok], [], rfl, rfl, by decide, rfl, rfl, rfl⟩

theorem witness_OneRequestRows :
    ∃ (s : State) (rest : List Turn), s.busy = true ∧ s.reqOut = true ∧ s.sub = .s0
      ∧ s.schedule = .environment .ok :: rest ∧ s.phase = .exSettle2 :=
  ⟨waiting 0x9 .exSettle2 .s0 [.environment .ok], [], rfl, rfl, rfl, rfl, rfl⟩

theorem witness_SubcommandRows :
    ∃ (s : State) (rest : List Turn) (b0 b1 : Byte), s.busy = true ∧ s.reqOut = true ∧ s.sub = .s2
      ∧ s.schedule = .environment (.okData b0 b1) :: rest ∧ s.phase = .ofCmd ∧ s.op = 0xB :=
  ⟨waiting 0xB .ofCmd .s2 [.environment (.okData 0 0)], [], 0, 0, rfl, rfl, rfl, rfl, rfl, rfl⟩

theorem witness_MetPollRows :
    ∃ (s : State) (rest : List Turn) (b0 b1 : Byte), s.busy = true ∧ s.reqOut = true ∧ s.sub = .s2
      ∧ s.schedule = .environment (.okData b0 b1) :: rest ∧ s.phase = .ofPoll1 ∧ s.op = 0xB
      ∧ (b1 ++ b0 : BitVec 16).getLsbD 11 = false ∧ (b1 ++ b0 : BitVec 16).getLsbD 10 = true :=
  ⟨waiting 0xB .ofPoll1 .s2 [.environment (.okData 0xFF 0x07)], [], 0xFF, 0x07, rfl, rfl, rfl, rfl, rfl, rfl, by decide,
    by decide⟩

theorem witness_MetPollRows_exit :
    ∃ (s : State) (rest : List Turn) (b0 b1 : Byte), s.busy = true ∧ s.reqOut = true ∧ s.sub = .s2
      ∧ s.schedule = .environment (.okData b0 b1) :: rest ∧ s.phase = .exPoll
      ∧ (b1 ++ b0 : BitVec 16).getLsbD 12 = false :=
  ⟨waiting 0x9 .exPoll .s2 [.environment (.okData 0xFF 0xEF)], [], 0xFF, 0xEF, rfl, rfl, rfl, rfl, rfl, by decide⟩

theorem witness_FailedPollRows_bound :
    ∃ (s : State) (rest : List Turn) (b0 b1 : Byte), s.busy = true ∧ s.reqOut = true ∧ s.sub = .s2
      ∧ s.schedule = .environment (.okData b0 b1) :: rest ∧ s.phase = .enPoll
      ∧ (b1 ++ b0 : BitVec 16).getLsbD 12 = false ∧ s.latMaxpoll.toNat ≠ 0
      ∧ s.latMaxpoll.toNat ≤ min (s.loopcnt.toNat + 1) 0xFFFF :=
  ⟨{ waiting 0x8 .enPoll .s2 [.environment (.okData 0xFF 0xEF)] with latMaxpoll := 2, loopcnt := 1 }, [], 0xFF, 0xEF,
    rfl, rfl, rfl, rfl, rfl, by decide, by decide, by decide⟩

theorem witness_FailedPollRows_below :
    ∃ (s : State) (rest : List Turn) (b0 b1 : Byte), s.busy = true ∧ s.reqOut = true ∧ s.sub = .s2
      ∧ s.schedule = .environment (.okData b0 b1) :: rest ∧ s.phase = .ofPoll2 ∧ s.op = 0xB
      ∧ (b1 ++ b0 : BitVec 16).getLsbD 10 = true ∧ min (s.loopcnt.toNat + 1) 0xFFFF < s.latMaxpoll.toNat :=
  ⟨{ waiting 0xB .ofPoll2 .s2 [.environment (.okData 0x00 0x04)] with latMaxpoll := 3, loopcnt := 1 }, [], 0x00, 0x04,
    rfl, rfl, rfl, rfl, rfl, rfl, by decide, by decide⟩

theorem witness_FailedPollRows_saturated :
    after (step { waiting 0x8 .enPoll .s2 [.environment (.okData 0xFF 0xEF)] with loopcnt := 0xFFFF })
      (fun t => (t.loopcnt, t.phase, t.csw)) = some (0xFFFF, .enCalen, 0xEFFF) := by decide

/-! ## Witnesses: whole runs -/

/-- An iteration of the enter loop with a given poll. -/
def enterRound (poll : Half) : EnterRound := ⟨0, 0, poll⟩

/-- An iteration of a loop of one subcommand with a given poll. -/
def commandRound (poll : Half) : CommandRound := ⟨0, poll⟩

/-- `idle` with MAXPOLL and turns to come. -/
def bounded (n : Half) (u : List Turn) : State := { withTurns u with maxpoll := n }

theorem witness_CalEnterCompletes :
    ∃ (s : State) (failed : List EnterRound) (last : EnterRound) (rest : List Turn), s.busy = false
      ∧ (∀ r ∈ failed, r.poll.getLsbD 12 = false) ∧ last.poll.getLsbD 12 = true ∧ failed ≠ []
      ∧ failed.length < s.maxpoll.toNat ∧ s.schedule = .host (.write 0x00 4 0x00000008)
        :: (unsealTurns ++ (failed ++ [last]).flatMap EnterRound.turns ++ rest) :=
  ⟨bounded 2 (.host (.write 0x00 4 0x00000008)
      :: (unsealTurns ++ ([enterRound 0x0000] ++ [enterRound 0x1000]).flatMap EnterRound.turns ++ [])),
    [enterRound 0x0000], enterRound 0x1000, [], rfl, by decide, by decide, by decide, by decide, rfl⟩

theorem witness_CalEnterTimesOut :
    ∃ (s : State) (failed : List EnterRound) (last : EnterRound) (rest : List Turn), s.busy = false
      ∧ (∀ r ∈ failed, r.poll.getLsbD 12 = false) ∧ last.poll.getLsbD 12 = false
      ∧ s.maxpoll.toNat = failed.length + 1 ∧ s.schedule = .host (.write 0x00 4 0x00000008)
        :: (unsealTurns ++ (failed ++ [last]).flatMap EnterRound.turns ++ rest) :=
  ⟨bounded 2 (.host (.write 0x00 4 0x00000008)
      :: (unsealTurns ++ ([enterRound 0x0000] ++ [enterRound 0xEFFF]).flatMap EnterRound.turns ++ [])),
    [enterRound 0x0000], enterRound 0xEFFF, [], rfl, by decide, by decide, by decide, rfl⟩

theorem witness_CalExitCompletes :
    ∃ (s : State) (failed : List CommandRound) (last : CommandRound) (resetWord : Half) (rest : List Turn),
      s.busy = false ∧ (∀ r ∈ failed, r.poll.getLsbD 12 = true) ∧ last.poll.getLsbD 12 = false ∧ failed ≠ []
      ∧ s.maxpoll.toNat = 0 ∧ s.schedule = .host (.write 0x00 4 0x00000009)
        :: ((failed ++ [last]).flatMap CommandRound.turns ++ settleTurns resetWord ++ rest) :=
  ⟨bounded 0 (.host (.write 0x00 4 0x00000009)
      :: (([commandRound 0x1000] ++ [commandRound 0x0000]).flatMap CommandRound.turns ++ settleTurns 0 ++ [])),
    [commandRound 0x1000], commandRound 0x0000, 0, [], rfl, by decide, by decide, by decide, by decide, rfl⟩

theorem witness_OffsetCommandsComplete :
    ∃ (s : State) (op : BitVec 4) (code mask : Half) (en : List EnterRound) (enLast : EnterRound)
      (set : List CommandRound) (setLast : CommandRound) (clear : List Half) (clearLast : Half) (saveWord : Half)
      (ex : List CommandRound) (exLast : CommandRound) (resetWord : Half) (rest : List Turn), s.busy = false
      ∧ (op = 0xB ∧ code = 0x0009 ∧ mask = 0x0C00)
      ∧ (∀ r ∈ en, r.poll.getLsbD 12 = false) ∧ enLast.poll.getLsbD 12 = true
      ∧ (∀ r ∈ set, r.poll &&& mask = 0) ∧ setLast.poll &&& mask ≠ 0
      ∧ (∀ v ∈ clear, v &&& mask ≠ 0) ∧ clearLast &&& mask = 0
      ∧ (∀ r ∈ ex, r.poll.getLsbD 12 = true) ∧ exLast.poll.getLsbD 12 = false
      ∧ (en.length < s.maxpoll.toNat ∧ set.length < s.maxpoll.toNat ∧ clear.length < s.maxpoll.toNat
        ∧ ex.length < s.maxpoll.toNat)
      ∧ s.schedule = .host (.write 0x00 4 (op.setWidth 32))
        :: (unsealTurns ++ (en ++ [enLast]).flatMap EnterRound.turns
          ++ (set ++ [setLast]).flatMap CommandRound.turns ++ (clear ++ [clearLast]).flatMap clearTurns
          ++ subcommandTurns saveWord
          ++ (ex ++ [exLast]).flatMap CommandRound.turns ++ settleTurns resetWord ++ rest) :=
  ⟨bounded 2 _, 0xB, 0x0009, 0x0C00, [enterRound 0x0000], enterRound 0x1000, [commandRound 0x1300],
    commandRound 0x1400, [0x1800], 0x1000, 0, [commandRound 0x1000], commandRound 0x0000, 0, [], rfl, ⟨rfl, rfl, rfl⟩,
    by decide, by decide, by decide, by decide, by simp, by decide, by decide, by decide,
    ⟨by decide, by decide, by decide, by decide⟩, rfl⟩

theorem witness_RequestCounts_enter :
    ∃ (s : State) (failed : List EnterRound) (last : EnterRound) (rest : List Turn), s.busy = false
      ∧ (∀ r ∈ failed, r.poll.getLsbD 12 = false) ∧ last.poll.getLsbD 12 = true ∧ failed ≠ []
      ∧ failed.length < s.maxpoll.toNat ∧ s.schedule = .host (.write 0x00 4 0x00000008)
        :: (unsealTurns ++ (failed ++ [last]).flatMap EnterRound.turns ++ rest) :=
  witness_CalEnterCompletes

theorem witness_RequestCounts_exit :
    ∃ (s : State) (failed : List CommandRound) (last : CommandRound) (resetWord : Half) (rest : List Turn),
      s.busy = false ∧ (∀ r ∈ failed, r.poll.getLsbD 12 = true) ∧ last.poll.getLsbD 12 = false ∧ failed ≠ []
      ∧ s.maxpoll.toNat = 0 ∧ s.schedule = .host (.write 0x00 4 0x00000009)
        :: ((failed ++ [last]).flatMap CommandRound.turns ++ settleTurns resetWord ++ rest) :=
  witness_CalExitCompletes

theorem witness_RequestCounts_offset :
    ∃ (s : State) (op : BitVec 4) (mask : Half) (en : List EnterRound) (enLast : EnterRound)
      (set : List CommandRound) (setLast : CommandRound) (clear : List Half) (clearLast : Half) (saveWord : Half)
      (ex : List CommandRound) (exLast : CommandRound) (resetWord : Half) (rest : List Turn), s.busy = false
      ∧ (op = 0xB ∧ mask = 0x0C00)
      ∧ (∀ r ∈ en, r.poll.getLsbD 12 = false) ∧ enLast.poll.getLsbD 12 = true
      ∧ (∀ r ∈ set, r.poll &&& mask = 0) ∧ setLast.poll &&& mask ≠ 0
      ∧ (∀ v ∈ clear, v &&& mask ≠ 0) ∧ clearLast &&& mask = 0
      ∧ (∀ r ∈ ex, r.poll.getLsbD 12 = true) ∧ exLast.poll.getLsbD 12 = false
      ∧ (en.length < s.maxpoll.toNat ∧ set.length < s.maxpoll.toNat ∧ clear.length < s.maxpoll.toNat
        ∧ ex.length < s.maxpoll.toNat)
      ∧ s.schedule = .host (.write 0x00 4 (op.setWidth 32))
        :: (unsealTurns ++ (en ++ [enLast]).flatMap EnterRound.turns
          ++ (set ++ [setLast]).flatMap CommandRound.turns ++ (clear ++ [clearLast]).flatMap clearTurns
          ++ subcommandTurns saveWord
          ++ (ex ++ [exLast]).flatMap CommandRound.turns ++ settleTurns resetWord ++ rest) := by
  obtain ⟨s, op, code, mask, a, b, c, d, e, f, g, h, i, j, k, hb, ⟨h1, _, h2⟩, hr⟩ := witness_OffsetCommandsComplete
  exact ⟨s, op, mask, a, b, c, d, e, f, g, h, i, j, k, hb, ⟨h1, h2⟩, hr⟩

/-! ## Witnesses: the host port and reset -/

theorem witness_IllegalAccessChangesNothing :
    ¬ ((4 = 4 ∧ (0x7D : Offset).toNat % 4 = 0) ∨ (4 = 1 ∧ 0x40 ≤ (0x7D : Offset).toNat ∧ (0x7D : Offset).toNat ≤ 0x5F))
    ∧ (access (.read 0x7D 4)).schedule = .host (.read 0x7D 4) :: [] := by decide

theorem witness_IllegalAccessChangesNothing_legal :
    ((1 = 4 ∧ (0x5F : Offset).toNat % 4 = 0) ∨ (1 = 1 ∧ 0x40 ≤ (0x5F : Offset).toNat ∧ (0x5F : Offset).toNat ≤ 0x5F))
    ∧ (access (.write 0x5F 1 0)).schedule = .host (.write 0x5F 1 0) :: [] := by decide

theorem witness_IllegalAccess_answers :
    after (step (access (.write 0x3F 1 0))) (·.answers) = some [.accessError]
    ∧ after (step (access (.write 0x40 1 0))) (·.answers) = some [.ok]
    ∧ after (step (access (.write 0x5F 1 0))) (·.answers) = some [.ok]
    ∧ after (step (access (.write 0x60 1 0))) (·.answers) = some [.accessError] := by decide

theorem witness_ReadsHaveNoSideEffect : (access (.read 0x7F 2)).schedule = .host (.read 0x7F 2) :: [] := rfl

theorem witness_ReadsReturnTheRegisters :
    (access (.read 0x5C 4)).schedule = .host (.read 0x5C 4) :: [] ∧ (0x5C : Offset).toNat % 4 = 0
    ∧ 0x40 ≤ (0x5C : Offset).toNat ∧ (0x5C : Offset).toNat ≤ 0x5C := by decide

theorem witness_ReadsReturnTheRegisters_edges :
    after (step (access (.read 0x3C 4))) (·.answers) = some [.data4 0]
    ∧ after (step { counted with schedule := [.host (.read 0x40 4)] }) (·.answers) = some [.data4 0x03020100]
    ∧ after (step { counted with schedule := [.host (.read 0x5C 4)] }) (·.answers) = some [.data4 0x1F1E1D1C]
    ∧ after (step (access (.read 0x60 4))) (·.answers) = some [.data4 0] := by decide

theorem witness_RegisterWrites :
    (access (.write 0x3C 4 0xFFFFFFFF)).schedule = .host (.write 0x3C 4 0xFFFFFFFF) :: []
    ∧ (0x3C : Offset).toNat % 4 = 0 ∧ 0x28 ≤ (0x3C : Offset).toNat ∧ (0x3C : Offset).toNat ≤ 0x3F := by decide

theorem witness_RegisterWrites_readOnly :
    (access (.write 0x24 4 0xFFFFFFFF)).schedule = .host (.write 0x24 4 0xFFFFFFFF) :: []
    ∧ (0x24 : Offset) ∈ [(0x10 : Offset), 0x14, 0x1C, 0x24] := by decide

theorem witness_BlkWordWriteIsLittleEndian :
    counted.blk.wf = true
    ∧ { counted with schedule := [.host (.write 0x5C 4 0x00FF0000)] }.schedule
      = .host (.write (BitVec.ofNat 7 (0x40 + 4 * 7)) 4 0x00FF0000) :: [] := by decide

theorem witness_BlkByteAccess :
    counted.blk.wf = true
    ∧ { counted with schedule := [.host (.write 0x5F 1 0x000000FF)] }.schedule
      = .host (.write (BitVec.ofNat 7 (0x40 + 31)) 1 0x000000FF) :: []
    ∧ { counted with schedule := [.host (.read 0x40 1)] }.schedule
      = .host (.read (BitVec.ofNat 7 (0x40 + 0)) 1) :: [] := by decide

theorem witness_ResetValues : (waiting 0x9 .exExit .s0 [.assertReset]).schedule = .assertReset :: [] := rfl

theorem witness_LateResponseIsDiscarded :
    (running 0x9 .exExit .s0 [.environment .ok]).reqOut = false
    ∧ (waiting 0x9 .exExit .s0 [.assertReset, .environment .ok]).schedule = .assertReset :: .environment .ok :: [] :=
  ⟨rfl, rfl⟩

/-! ## Witnesses: rules of the whole machine -/

/-- A state of a running command, its request outstanding, that has the invariant. -/
def busyState (u : List Turn) : State := { waiting 0xB .ofPoll2 .s2 u with latMaxpoll := 2, loopcnt := 1 }

theorem busyState_inv (u : List Turn) : (busyState u).Inv where
  blkWf := by rfl
  irqLevel := by rfl
  errIffCode := by simp [busyState, waiting, running, idle, State.reset]
  subLegal := by intro _; rfl
  busyPhase := by intro _; rfl
  busyNotEnded := by intro _; exact ⟨rfl, rfl⟩
  reqBusy := by intro _; rfl
  abortBusy := by intro _; rfl
  outstanding := by intro _; rfl
  pollsBounded := by intro _ _; show (1 : Half) < 2; decide

theorem witness_StepKeepsTheInvariant :
    (busyState [.environment (.okData 0 0)]).Inv ∧ ∃ t, step (busyState [.environment (.okData 0 0)]) = .next t
      ∧ t.phase = .ofSave := ⟨busyState_inv _, _, rfl, rfl⟩

theorem witness_RunsNeverStop : (busyState [.assertReset]).Inv := busyState_inv _

theorem witness_OneRequestAtATimeToControl : ∃ s t : State, step s = .next t ∧ t.requests = [.sleep 150] :=
  ⟨running 0x9 .exSettle1 .s0 [], _, rfl, rfl⟩

theorem witness_IdleBlockSendsNothing :
    (withTurns [.block, .host (.write 0x00 1 8)]).busy = false
    ∧ (∀ u ∈ (withTurns [.block, .host (.write 0x00 1 8)]).schedule, ∀ w, u ≠ .host (.write 0x00 4 w))
    ∧ ∃ t, (Sys2Proof.core.run 2 (withTurns [.block, .host (.write 0x00 1 8)]) : Host.Outcome State Fault Refusal)
      = .next t :=
  ⟨rfl, by simp [withTurns], _, rfl⟩

theorem witness_CswWrittenOnlyByStatusPolls :
    ∃ s t : State, step s = .next t ∧ t.csw ≠ s.csw :=
  ⟨waiting 0x9 .exPoll .s2 [.environment (.okData 0x01 0x10)], _, rfl, by decide⟩

theorem witness_HostMovesThePositionOnlyByStarting :
    ∃ (s t : State) (a : HostAccess), s.schedule.head? = some (.host a) ∧ step s = .next t ∧ t.phase ≠ s.phase :=
  ⟨access (.write 0x00 4 0x0000000A), _, _, rfl, rfl, by decide⟩

theorem witness_OperandsWrittenOnlyByTheHost : ∃ s t : State, step s = .next t ∧ t.keys ≠ s.keys :=
  ⟨access (.write 0x20 4 0x00000001), _, rfl, by decide⟩

theorem witness_IrqFollowsDoneAndIe : ∃ s t : State, s.irq = (s.done && s.ie) ∧ step s = .next t ∧ t.irq = true :=
  ⟨{ access (.write 0x00 4 0x00000001) with ie := true }, _, rfl, rfl, rfl⟩

theorem witness_OpRecordsAcceptedWords :
    ∃ (s t : State) (w : Word), step s = .next t ∧ s.schedule.head? = some (.host (.write 0x00 4 w)) ∧ s.busy = false
      ∧ w ≠ 0x0000000F ∧ t.op ≠ s.op :=
  ⟨access (.write 0x00 4 0x00000013), _, _, rfl, rfl, rfl, by decide, by decide⟩

theorem witness_ResWrittenOnlyAtSuccess : ∃ s t : State, step s = .next t ∧ t.resLo ≠ s.resLo :=
  ⟨waiting 0x8 .enPoll .s2 [.environment (.okData 0x00 0x10)], _, rfl, by decide⟩

theorem witness_ResWrittenOnlyAtSuccess_idle : ∃ s t : State, step s = .next t ∧ t.resHi ≠ s.resHi :=
  ⟨{ operands 0 0x82400000 with schedule := [.host (.write 0x00 4 0x00000003)] }, _, rfl, by decide⟩

theorem witness_BusyFromAcceptanceToEnd_up :
    ∃ s t : State, step s = .next t ∧ s.busy = false ∧ t.busy = true :=
  ⟨access (.write 0x00 4 0x00000009), _, rfl, rfl, rfl⟩

theorem witness_BusyFromAcceptanceToEnd_down :
    ∃ s t : State, step s = .next t ∧ s.busy = true ∧ t.busy = false :=
  ⟨waiting 0x9 .exSettle2 .s0 [.environment .ok], _, rfl, rfl, rfl⟩

theorem witness_BusyFromAcceptanceToEnd_stays :
    ∃ s t : State, step s = .next t ∧ s.busy = true ∧ t.busy = true :=
  ⟨waiting 0x9 .exSettle1 .s0 [.environment .ok], _, rfl, rfl, rfl⟩

theorem witness_DoneSetAndCleared_set : ∃ s t : State, step s = .next t ∧ s.done = false ∧ t.done = true :=
  ⟨access (.write 0x00 4 0x00000000), _, rfl, rfl, rfl⟩

theorem witness_DoneSetAndCleared_cleared : ∃ s t : State, step s = .next t ∧ s.done = true ∧ t.done = false :=
  ⟨{ access (.write 0x04 4 0x00000002) with done := true }, _, rfl, rfl, rfl⟩

theorem witness_DoneSetAndCleared_accept : ∃ s t : State, step s = .next t ∧ s.done = true ∧ t.done = false :=
  ⟨{ access (.write 0x00 4 0x0000000B) with done := true }, _, rfl, rfl, rfl⟩

theorem witness_SequencerSeesOnlyItsOwnState :
    ∃ (s s' : State) (u : Turn) (rest rest' : List Turn), (u = .block ∨ ∃ r, u = .environment r)
      ∧ seqView s = seqView s' ∧ s.schedule = u :: rest ∧ s'.schedule = u :: rest' ∧ s ≠ s' :=
  ⟨busyState [.environment .ok], { busyState [.environment .ok, .block] with
      ovr := true, opaLo := 7, maxpoll := 3, keys := 0, blk := [(0x40, 1)] },
    .environment .ok, [], [.block], .inr ⟨_, rfl⟩, rfl, rfl, rfl, by decide⟩

theorem witness_HostCannotDisturbARunningCommand :
    ∃ (s t : State) (a : HostAccess), s.Inv ∧ s.busy = true ∧ s.schedule.head? = some (.host a)
      ∧ a ≠ .write 0x00 4 0x0000000F ∧ step s = .next t :=
  ⟨busyState [.host (.write 0x00 4 0x00000008)], _, .write 0x00 4 0x00000008, busyState_inv _, rfl, rfl, by decide, rfl⟩

end Sys2Proof.Tests
end

section
/-! PROOFS of the family 10_state.md, the invariant. Each operation of the machine keeps `State.Inv`, and a step is a
composition of these operations. -/
namespace Sys2Proof.Machine

section
variable {s : State}

/-! Operations that write at most fields the invariant does not read -/

theorem inv_withSchedule (u : List Turn) (h : s.Inv) : (withSchedule u s).Inv := { h with }

theorem inv_answer (a : HostAnswer) (h : s.Inv) : (answer a s).Inv := { h with }

theorem inv_dropWord (h : s.Inv) : (dropWord s).Inv := { h with }

theorem inv_saveResponse (b0 b1 : Byte) (h : s.Inv) : (saveResponse b0 b1 s).Inv := { h with }

theorem inv_saveStatus (h : s.Inv) : (saveStatus s).Inv := { h with }

/-! Host writes -/

theorem inv_setBlk {m : Memory} (hm : m.wf = true) (h : s.Inv) : (setBlk m s).Inv := { h with blkWf := hm }

theorem inv_writeCtrl (v : Word) (h : s.Inv) : (writeCtrl v s).Inv := { h with irqLevel := rfl }

theorem inv_writeStatus (v : Word) (h : s.Inv) : (writeStatus v s).Inv :=
  { h with
    irqLevel := rfl
    busyNotEnded := fun hb => by simp [h.busyNotEnded hb] }

/-- A word of the window at a multiple of 4 ends inside the window. -/
theorem wf_writeWord_of_inBlk {m : Memory} (hm : m.wf = true) {off : Offset} (v : Word) (hoff : inBlk off = true)
    (h4 : off.toNat % 4 = 0) : (m.writeWord off.toNat v).wf = true := by
  obtain ⟨hlo, hhi⟩ := (inBlk_iff off).1 hoff
  exact Memory.wf_writeWord hm v hlo (by omega)

theorem inv_written {off : Offset} {v : Word} {t : State} (h4 : off.toNat % 4 = 0) (hw : Written off v s t)
    (h : s.Inv) : t.Inv := by
  cases hw with
  | status => exact inv_writeStatus v h
  | ctrl => exact inv_writeCtrl v h
  | blk hr => exact inv_setBlk (wf_writeWord_of_inBlk h.blkWf v ((regAt_blk_iff off).1 hr) h4) h
  | opaLo | opaHi | keys => exact { h with }
  | ignored => exact h

/-! Ending and starting a command -/

/-- A command that ends with an error needs of the invariant only what an error keeps. -/
theorem inv_raiseError {code : ErrorCode} (hc : code ≠ .none) (hblk : s.blk.wf = true)
    (hsub : s.sub ≠ .s0 → threeRequestPhase s.phase = true) : (raiseError code s).Inv where
  blkWf := hblk
  irqLevel := rfl
  errIffCode := by simpa using hc
  subLegal := hsub
  busyPhase := by simp
  busyNotEnded := by simp
  reqBusy := by simp
  abortBusy := by simp
  outstanding := by simp
  pollsBounded := by simp

/-- A completion needs that no request is outstanding. -/
theorem inv_completeSequence (hr : s.reqOut = false) (h : s.Inv) : (completeSequence s).Inv where
  blkWf := h.blkWf
  irqLevel := rfl
  errIffCode := h.errIffCode
  subLegal := by simp
  busyPhase := by simp
  busyNotEnded := by simp
  reqBusy := by simp [hr]
  abortBusy := by simp
  outstanding := by simp [hr]
  pollsBounded := by simp

/-- An accepted word is the start of a new command: only an idle block accepts one. -/
theorem inv_accepted {op : BitVec 4} {t : State} (hb : s.busy = false) (ha : Accepted op s t) (h : s.Inv) : t.Inv := by
  have hr : s.reqOut = false := Bool.eq_false_iff.2 fun hr => by simp [h.reqBusy hr] at hb
  have hp : s.abortPending = false := Bool.eq_false_iff.2 fun hp => by simp [h.abortBusy hp] at hb
  cases ha with
  | error code hc => exact inv_raiseError hc h.blkWf h.subLegal
  | result hi lo =>
    exact
      { blkWf := h.blkWf
        irqLevel := rfl
        errIffCode := by simp
        subLegal := h.subLegal
        busyPhase := by simp [hb]
        busyNotEnded := by simp [hb]
        reqBusy := by simp [hr]
        abortBusy := by simp [hp]
        outstanding := by simp [hr]
        pollsBounded := by simp [hb] }
  | start entry he =>
    exact
      { blkWf := h.blkWf
        irqLevel := rfl
        errIffCode := by simp
        subLegal := by simp
        busyPhase := fun _ => he
        busyNotEnded := by simp
        reqBusy := by simp
        abortBusy := by simp
        outstanding := by simp
        pollsBounded := fun _ hm => (BitVec.pos_iff_ne_zero _).2 hm }

theorem inv_submit {w : Word} {t : State} (ht : submit w s = .next t) (h : s.Inv) : t.Inv := by
  obtain ⟨-, hb, rfl⟩ | ⟨-, -, rfl⟩ | ⟨-, -, rfl⟩ | ⟨-, hb, op, ha⟩ := submit_cases ht
  · exact { h with abortBusy := fun _ => hb }
  · exact h
  · exact inv_dropWord h
  · exact inv_accepted hb ha h

theorem inv_hostDone {a : HostAccess} {t : State} (hd : HostDone s a t) (h : s.Inv) : t.Inv := by
  cases hd with
  | illegal | read => exact inv_answer _ h
  | byte off v hoff =>
    obtain ⟨hlo, hhi⟩ := (inBlk_iff off).1 hoff
    exact inv_answer _ (inv_setBlk (Memory.wf_write h.blkWf _ hlo (by omega)) h)
  | command off v hr t ht => exact inv_submit ht (inv_answer _ h)
  | word off v h4 hr t ht => exact inv_written h4 ht (inv_answer _ h)

/-! The sequencer -/

/-- A request that is sent is the last one issued. -/
theorem inv_sendRequest {q : Request} (hb : s.busy = true) (hq : currentRequest s = some q) (h : s.Inv) :
    (sendRequest q s).Inv :=
  { h with
    reqBusy := fun _ => hb
    outstanding := fun _ => by simp [hq] }

/-- With no request outstanding the position may move to a phase of the running command. -/
theorem inv_goto {p : Phase} (hr : s.reqOut = false) (hp : s.busy = true → phaseOfCommand s.op p = true) (h : s.Inv) :
    (goto p s).Inv :=
  { h with
    subLegal := by simp
    busyPhase := hp
    outstanding := by simp [hr] }

theorem inv_moveSub {b : SubStep} (hr : s.reqOut = false) (h3 : threeRequestPhase s.phase = true) (h : s.Inv) :
    (moveSub b s).Inv :=
  { h with
    subLegal := fun _ => h3
    outstanding := by simp [hr] }

theorem inv_setLoopcnt {n : Half} (hn : s.latMaxpoll ≠ 0 → n < s.latMaxpoll) (h : s.Inv) : (setLoopcnt n s).Inv :=
  { h with pollsBounded := fun _ => hn }

theorem inv_clearRequest (h : s.Inv) : (clearRequest s).Inv :=
  { h with
    reqBusy := by simp
    outstanding := by simp }

/-- A failed poll either reaches the bound and ends the command, or its count is below the bound. -/
theorem inv_failPoll {p : Phase} (hr : s.reqOut = false) (hp : s.busy = true → phaseOfCommand s.op p = true)
    (h : s.Inv) : (failPoll p s).Inv := by
  obtain ⟨-, -, ht⟩ | ⟨hn, ht⟩ := failPoll_cases p s <;> rw [ht]
  · exact inv_raiseError (by simp) h.blkWf h.subLegal
  · exact inv_goto hr hp (inv_setLoopcnt (fun hm => BitVec.not_le.1 fun hle => hn ⟨hm, hle⟩) h)

theorem inv_phaseEnd {t : State} (he : PhaseEnd s t) (hb : s.busy = true) (hr : s.reqOut = false) (h : s.Inv) :
    t.Inv := by
  have hphase := h.busyPhase hb
  cases he with
  | goto p hp => exact inv_goto hr (fun _ => hp hphase) h
  | enterLoop p hp =>
    exact inv_goto (s := setLoopcnt 0 s) hr (fun _ => hp hphase)
      (inv_setLoopcnt (fun hm => (BitVec.pos_iff_ne_zero _).2 hm) h)
  | complete => exact inv_completeSequence hr h
  | fail p hp => exact inv_failPoll hr (fun _ => hp hphase) h

theorem inv_afterOk {f : Frame} {t : State} (ht : afterOk f s = some t) (hf : frameOf s = some f)
    (hb : s.busy = true) (hr : s.reqOut = false) (h : s.Inv) : t.Inv := by
  obtain ⟨b, h3, rfl⟩ | he | he := afterOk_cases hf ht
  · exact inv_moveSub hr h3 h
  · exact inv_phaseEnd he hb hr h
  · exact inv_phaseEnd he hb hr (inv_saveStatus h)

theorem inv_responseStep {r : Response} {t : State} (hb : s.busy = true) (ht : responseStep r s = .next t)
    (h : s.Inv) : t.Inv := by
  obtain ⟨f, q, hf, -, ⟨-, rfl⟩ | ⟨-, -, ha⟩ | ⟨-, b0, b1, -, ha⟩⟩ := responseStep_cases ht
  · exact inv_raiseError (by simp) h.blkWf h.subLegal
  · exact inv_afterOk ha hf hb rfl (inv_clearRequest h)
  · exact inv_afterOk ha hf hb rfl (inv_saveResponse b0 b1 (inv_clearRequest h))

theorem inv_blockTurn {t : State} (ht : blockTurn s = .next t) (h : s.Inv) : t.Inv := by
  obtain ⟨-, rfl⟩ | ⟨-, -, -, rfl⟩ | ⟨hb, -, -, q, hq, rfl⟩ := blockTurn_cases ht
  · exact h
  · exact inv_raiseError (by simp) h.blkWf h.subLegal
  · exact inv_sendRequest hb hq h

theorem inv_environmentTurn {r : Response} {t : State} (ht : environmentTurn r s = .next t) (h : s.Inv) : t.Inv := by
  obtain ⟨-, rfl⟩ | ⟨hb, -, hr⟩ := environmentTurn_cases ht
  · exact h
  · exact inv_responseStep hb hr h

/-! Reset and a step -/

theorem inv_resetTurn (s : State) : (resetTurn s).Inv where
  blkWf := reset_blk_wf
  irqLevel := rfl
  errIffCode := by simp
  subLegal := by simp
  busyPhase := by simp
  busyNotEnded := by simp
  reqBusy := by simp
  abortBusy := by simp
  outstanding := by simp
  pollsBounded := by simp

end

/-- A step takes a turn from the schedule, or the Block's with none left, and runs it on the state without it. -/
theorem step_turn {s t : State} (h : step s = .next t) : ∃ rest,
    blockTurn (withSchedule rest s) = .next t
      ∨ (∃ r, s.schedule.head? = some (.environment r) ∧ environmentTurn r (withSchedule rest s) = .next t)
      ∨ (∃ a, s.schedule.head? = some (.host a) ∧ HostDone (withSchedule rest s) a t)
      ∨ (s.schedule.head? = some .assertReset ∧ t = resetTurn (withSchedule rest s)) := by
  obtain ⟨s', rfl | ⟨-, -, hs'⟩, hturn⟩ := step_cases h
  · exact ⟨s'.schedule, hturn⟩
  · exact ⟨s'.schedule, hs' ▸ hturn⟩

/-- Settles O47: whichever turn a step takes, the operation that answers it keeps the invariant. -/
theorem stepKeepsTheInvariant : Obligations.StepKeepsTheInvariant := by
  intro s t h hstep
  obtain ⟨rest, hb | ⟨r, -, he⟩ | ⟨a, -, hd⟩ | ⟨-, rfl⟩⟩ := step_turn hstep
  · exact inv_blockTurn hb (inv_withSchedule rest h)
  · exact inv_environmentTurn he (inv_withSchedule rest h)
  · exact inv_hostDone hd (inv_withSchedule rest h)
  · exact inv_resetTurn _

end Sys2Proof.Machine
end

section
/-! PROOFS of the family 10_state.md, what a step changes. First the inversion lemmas: a command word by its value
(30_encoding.md R71, R74), a Host access that submits none, a step of the sequencer, and with these a step. -/
namespace Sys2Proof.Machine

/-! ## Command words -/

theorem opField_encode (i : Instr) : opField (encode i) = i.op := by cases i <;> rfl

/-- The OP the table reads as a command is that command's. -/
theorem op_of_decodeOp {op : BitVec 4} {i : Instr} (h : decodeOp op = .ok i) : i.op = op := by
  revert op
  cases i <;> decide

/-- A word is put together from its two fields. -/
theorem rsvField_append_opField (w : Word) : (rsvField w ++ opField w : BitVec 32) = w := by
  simp only [rsvField, opField]
  rw [BitVec.extractLsb'_append_extractLsb'_eq_extractLsb' (by rfl)]
  simp

/-- A word that decodes to a command is that command's word (30_encoding.md R71). -/
theorem eq_encode_of_decode {w : Word} {i : Instr} (h : decode w = .ok i) : w = encode i := by
  unfold decode at h
  split_ifs at h with hr
  rw [← rsvField_append_opField w, hr, encode, op_of_decodeOp h]
  rfl

theorem encode_ne_abort {i : Instr} (h : i ≠ .abort) : encode i ≠ 0x0000000F := by
  revert h
  cases i <;> decide

theorem decode_abort : decode 0x0000000F = .ok .abort := rfl

/-- What a submitted word does, by its value: a word other than ABORT that is accepted gives a result, ends with an
error, or starts a sequence (30_encoding.md R74). -/
inductive Submitted (w : Word) (s : State) : State → Prop where
  | abort (hw : w = 0x0000000F) (hb : s.busy = true) : Submitted w s (markAbort s)
  | abortIdle (hw : w = 0x0000000F) (hb : s.busy = false) : Submitted w s s
  | dropped (hw : w ≠ 0x0000000F) (hb : s.busy = true) : Submitted w s (dropWord s)
  | result (hw : w ∈ [(0x00000001 : Word), 0x00000002, 0x00000003, 0x00000004]) (hb : s.busy = false) (hi lo : Word) :
      Submitted w s (endWithResult hi lo (acceptWord (opField w) s))
  | error (hw : w ≠ 0x0000000F) (hb : s.busy = false) (code : ErrorCode) :
      Submitted w s (raiseError code (acceptWord (opField w) s))
  | start (hw : w ∈ [(0x00000008 : Word), 0x00000009, 0x0000000A, 0x0000000B]) (hb : s.busy = false) (entry : Phase) :
      Submitted w s (startSequence entry (acceptWord (opField w) s))

theorem submitted_of_exec {i : Instr} {s t : State} (h : exec i s = .next t) : Submitted (encode i) s t := by
  obtain ⟨rfl, hb, rfl⟩ | ⟨rfl, hb, rfl⟩ | ⟨hi, hb, rfl⟩ | ⟨hi, hb, -⟩ := exec_cases h
  · exact .abort rfl hb
  · exact .abortIdle rfl hb
  · exact .dropped (encode_ne_abort hi) hb
  · cases i <;> obtain rfl := Host.Outcome.next.inj h
    case abort => exact absurd rfl hi
    all_goals rw [submitWord_idle hb, ← opField_encode]
    case csumGen | csumCheck | xdec => exact .result (by decide) hb _ _
    case xenc =>
      obtain ⟨w, hw⟩ | hw | hw := runXenc_cases (acceptWord (opField (encode .xenc)) s) <;> rw [hw]
      · exact .result (by decide) hb _ _
      · exact .error (by decide) hb _
      · exact .error (by decide) hb _
    all_goals exact .start (by decide) hb _

theorem submitted_of_submit {w : Word} {s t : State} (h : submit w s = .next t) : Submitted w s t := by
  unfold submit at h
  cases hd : decode w with
  | ok i =>
    rw [hd] at h
    exact eq_encode_of_decode hd ▸ submitted_of_exec h
  | error e =>
    have hw : w ≠ 0x0000000F := by
      rintro rfl
      cases decode_abort.symm.trans hd
    rw [hd] at h
    obtain rfl := Host.Outcome.next.inj h
    cases hb : s.busy
    · rw [submitIllegal, submitWord_idle hb]
      exact .error hw hb _
    · rw [submitIllegal, submitWord_busy hb]
      exact .dropped hw hb

theorem submit_of_busy {w : Word} {s : State} (hw : w ≠ 0x0000000F) (hb : s.busy = true) :
    submit w s = .next (dropWord s) := by
  obtain ⟨t, ht⟩ := submit_next w s
  rw [ht]
  cases submitted_of_submit ht with
  | dropped => rfl
  | abort h => exact absurd h hw
  | abortIdle _ h | result _ h | error _ h | start _ h => simp [hb] at h

/-! ## Host accesses -/

theorem eq_of_regAt_cmd {off : Offset} (h : regAt off = .cmd) : off = 0x00 := by
  revert off
  decide

theorem eq_of_regAt_status {off : Offset} (h : regAt off = .status) : off = 0x04 := by
  revert off
  decide

theorem ne_zero_of_inBlk {off : Offset} (h : inBlk off = true) : off ≠ 0x00 := by
  rintro rfl
  cases h

/-- The registers only the Host writes: BLK, OPA, CTRL and KEYS (10_state.md R31, R33, R35, R37). -/
def hostRegisters (s : State) : Memory × Word × Word × Half × Bool × Word :=
  (s.blk, s.opaLo, s.opaHi, s.maxpoll, s.ie, s.keys)

theorem hostRegisters_eq_iff {s t : State} : hostRegisters t = hostRegisters s ↔
    t.blk = s.blk ∧ t.opaLo = s.opaLo ∧ t.opaHi = s.opaHi ∧ t.maxpoll = s.maxpoll ∧ t.ie = s.ie ∧ t.keys = s.keys := by
  simp [hostRegisters]

/-- What a Host access that submits no command word does: of what the sequencer sees it writes DONE alone, it clears DONE
and OVR by a write of STATUS alone, and it writes BLK, OPA, CTRL and KEYS by a write that is not of CMD. -/
structure PlainAccess (a : HostAccess) (s t : State) : Prop where
  view : seqView t = { seqView s with done := t.done }
  flags : (t.done = s.done ∧ t.ovr = s.ovr)
    ∨ ∃ v, a = .write 0x04 4 v ∧ t.done = (s.done && !v.getLsbD 1) ∧ t.ovr = (s.ovr && !v.getLsbD 3)
  irq : s.irq = (s.done && s.ie) → t.irq = (t.done && t.ie)
  registers : hostRegisters t = hostRegisters s ∨ ∃ off n v, a = .write off n v ∧ off ≠ 0x00

theorem plainAccess_answer (a : HostAccess) (d : HostAnswer) (s : State) : PlainAccess a s (answer d s) :=
  ⟨rfl, .inl ⟨rfl, rfl⟩, id, .inl rfl⟩

theorem plainAccess_of_written {off : Offset} {v : Word} {s t : State} (hr : regAt off ≠ .cmd)
    (h : Written off v s t) : PlainAccess (.write off 4 v) s t := by
  have hoff : off ≠ 0x00 := by
    rintro rfl
    exact hr rfl
  cases h with
  | status hs => exact ⟨rfl, .inr ⟨v, by rw [eq_of_regAt_status hs], rfl, rfl⟩, fun _ => rfl, .inl rfl⟩
  | ctrl => exact ⟨rfl, .inl ⟨rfl, rfl⟩, fun _ => rfl, .inr ⟨off, 4, v, rfl, hoff⟩⟩
  | opaLo | opaHi | keys | blk | ignored => exact ⟨rfl, .inl ⟨rfl, rfl⟩, id, .inr ⟨off, 4, v, rfl, hoff⟩⟩

/-- A Host access submits the word it writes to CMD, or is none of the sequencer's business. -/
theorem hostDone_cases {a : HostAccess} {s t : State} (h : HostDone s a t) :
    (∃ w, a = .write 0x00 4 w ∧ Submitted w (answer .ok s) t) ∨ PlainAccess a s t := by
  cases h with
  | illegal | read => exact .inr (plainAccess_answer _ _ s)
  | byte off v hoff => exact .inr ⟨rfl, .inl ⟨rfl, rfl⟩, id, .inr ⟨off, 1, v, rfl, ne_zero_of_inBlk hoff⟩⟩
  | command off v hr t ht => exact .inl ⟨v, by rw [eq_of_regAt_cmd hr], submitted_of_submit ht⟩
  | word off v h4 hr t ht =>
    obtain ⟨hview, hflags, hirq, hreg⟩ := plainAccess_of_written hr ht
    exact .inr ⟨hview, hflags, hirq, hreg⟩

/-! ## Steps of the sequencer -/

/-- What a running sequence moves only by ending: all of BQCORE but the position, CSW, `loopcnt`, `rsp_val` and
`req_out`. -/
structure CommandView where
  busy : Bool
  done : Bool
  err : Bool
  errcode : ErrorCode
  ovr : Bool
  op : BitVec 4
  resLo : Word
  resHi : Word
  registers : Memory × Word × Word × Half × Bool × Word
  latMaxpoll : Half
  latKeys : Word
  abortPending : Bool
  irq : Bool

/-- The command's view of a state. -/
def commandView (s : State) : CommandView :=
  ⟨s.busy, s.done, s.err, s.errcode, s.ovr, s.op, s.resLo, s.resHi, hostRegisters s, s.latMaxpoll, s.latKeys,
    s.abortPending, s.irq⟩

/-- What a step of the sequencer does: the command goes on, with `commandView` as it was, or ends with an error, or
completes, which it does in a response step alone (42_calseq.md R130, R132). -/
inductive Sequenced (s : State) : State → Prop where
  | goesOn (t : State) (ht : commandView t = commandView s) : Sequenced s t
  | fails (u : State) (hu : commandView u = commandView s) (hb : s.busy = true) (code : ErrorCode) :
      Sequenced s (raiseError code u)
  | completes (u : State) (hu : commandView u = commandView s) (hb : s.busy = true) (hq : s.reqOut = true)
      (hr : u.reqOut = false) (r : Response) (hd : s.schedule.head? = some (.environment r)) :
      Sequenced s (completeSequence u)

section
variable {s u t : State} {r : Response}

theorem sequenced_of_phaseEnd (hu : commandView u = commandView s) (hb : s.busy = true) (hq : s.reqOut = true)
    (hr : u.reqOut = false) (hd : s.schedule.head? = some (.environment r)) (h : PhaseEnd u t) : Sequenced s t := by
  cases h with
  | goto | enterLoop => exact .goesOn _ hu
  | complete => exact .completes u hu hb hq hr r hd
  | fail p =>
    obtain ⟨-, -, ht⟩ | ⟨-, ht⟩ := failPoll_cases p u <;> rw [ht]
    · exact .fails (setLoopcnt (bumpLoopcnt u.loopcnt) u) hu hb _
    · exact .goesOn _ hu

theorem sequenced_of_afterOk {f : Frame} (h : afterOk f u = some t) (hf : frameOf u = some f)
    (hu : commandView u = commandView s) (hb : s.busy = true) (hq : s.reqOut = true) (hr : u.reqOut = false)
    (hd : s.schedule.head? = some (.environment r)) : Sequenced s t := by
  obtain ⟨b, -, rfl⟩ | he | he := afterOk_cases hf h
  · exact .goesOn _ hu
  · exact sequenced_of_phaseEnd hu hb hq hr hd he
  · exact sequenced_of_phaseEnd (u := saveStatus u) hu hb hq hr hd he

theorem sequenced_of_environmentTurn (hu : commandView u = commandView s) (hb : u.busy = s.busy)
    (hq : u.reqOut = s.reqOut) (hd : s.schedule.head? = some (.environment r)) (h : environmentTurn r u = .next t) :
    Sequenced s t := by
  obtain ⟨-, rfl⟩ | ⟨hub, huq, hr⟩ := environmentTurn_cases h
  · exact .goesOn _ hu
  · have hsb := hb ▸ hub
    have hsq := hq ▸ huq
    obtain ⟨f, q, hf, -, ⟨-, rfl⟩ | ⟨-, -, ha⟩ | ⟨-, b0, b1, -, ha⟩⟩ := responseStep_cases hr
    · exact .fails (clearRequest u) hu hsb _
    · exact sequenced_of_afterOk ha hf hu hsb hsq rfl hd
    · exact sequenced_of_afterOk ha hf hu hsb hsq rfl hd

theorem sequenced_of_blockTurn (hu : commandView u = commandView s) (h : blockTurn u = .next t) : Sequenced s t := by
  obtain ⟨-, rfl⟩ | ⟨hb, -, -, rfl⟩ | ⟨-, -, -, q, -, rfl⟩ := blockTurn_cases h
  · exact .goesOn _ hu
  · exact .fails u hu ((congrArg CommandView.busy hu).symm.trans hb) _
  · exact .goesOn _ hu

end

/-! ## A step -/

/-- What a step does: a step of the sequencer, or the access of the Host at the head of the schedule, which is plain or
submits a word, or the reset event. -/
inductive Stepped (s : State) : State → Prop where
  | sequencer (t : State) (h : Sequenced s t) : Stepped s t
  | access (t : State) (a : HostAccess) (hd : s.schedule.head? = some (.host a)) (h : PlainAccess a s t) : Stepped s t
  | word (t : State) (w : Word) (hd : s.schedule.head? = some (.host (.write 0x00 4 w))) (rest : List Turn)
      (h : Submitted w (answer .ok (withSchedule rest s)) t) : Stepped s t
  | reset (hd : s.schedule.head? = some .assertReset) (rest : List Turn) : Stepped s (resetTurn (withSchedule rest s))

/-- A Host access after its turn left the schedule is one of the state itself. -/
theorem plainAccess_withSchedule {a : HostAccess} {s t : State} {rest : List Turn}
    (h : PlainAccess a (withSchedule rest s) t) : PlainAccess a s t := ⟨h.view, h.flags, h.irq, h.registers⟩

/-- A step with an access of the Host at the head of the schedule is that access. -/
theorem step_host {s t : State} {a : HostAccess} (hd : s.schedule.head? = some (.host a)) (h : step s = .next t) :
    (∃ w rest, a = .write 0x00 4 w ∧ Submitted w (answer .ok (withSchedule rest s)) t) ∨ PlainAccess a s t := by
  obtain ⟨rest, hs⟩ := List.head?_eq_some_iff.1 hd
  rw [step_cons hs] at h
  obtain ⟨w, ha, hw⟩ | hp := hostDone_cases (hostTurn_cases h)
  · exact .inl ⟨w, rest, ha, hw⟩
  · exact .inr (plainAccess_withSchedule hp)

theorem stepped_of_step {s t : State} (h : step s = .next t) : Stepped s t := by
  obtain ⟨rest, hb | ⟨r, hd, he⟩ | ⟨a, hd, hh⟩ | ⟨hd, rfl⟩⟩ := step_turn h
  · exact .sequencer t (sequenced_of_blockTurn (u := withSchedule rest s) rfl hb)
  · exact .sequencer t (sequenced_of_environmentTurn (u := withSchedule rest s) rfl rfl rfl hd he)
  · obtain ⟨w, rfl, hw⟩ | hp := hostDone_cases hh
    · exact .word t w hd rest hw
    · exact .access t a hd (plainAccess_withSchedule hp)
  · exact .reset hd rest

/-- A step with a write to CMD at the head of the schedule submits its word. -/
theorem step_word {s t : State} {w : Word} (hd : s.schedule.head? = some (.host (.write 0x00 4 w)))
    (h : step s = .next t) : ∃ rest, Submitted w (answer .ok (withSchedule rest s)) t := by
  obtain ⟨rest, hs⟩ := List.head?_eq_some_iff.1 hd
  rw [step_cons hs] at h
  exact ⟨rest, submitted_of_submit h⟩

end Sys2Proof.Machine
end

section
/-! PROOFS of the family 10_state.md: the obligations on what a step changes, each by the cases of `Stepped`. -/
namespace Sys2Proof.Machine

/-! ## Drops and OVR (R27) -/

theorem step_word_while_busy {s : State} {rest : List Turn} {w : Word} (hb : s.busy = true) (hw : w ≠ 0x0000000F)
    (hs : s.schedule = .host (.write 0x00 4 w) :: rest) :
    step s = .next (dropWord (answer .ok (withSchedule rest s))) := by
  rw [step_cons hs]
  exact submit_of_busy hw hb

theorem ovr_cleared {s t : State} (h : Stepped s t) (hs : s.ovr = true) (ht : t.ovr = false) :
    s.schedule.head? = some .assertReset
      ∨ ∃ v : Word, s.schedule.head? = some (.host (.write 0x04 4 v)) ∧ v.getLsbD 3 = true := by
  cases h with
  | sequencer _ h =>
    have hovr : t.ovr = s.ovr := by
      cases h with
      | goesOn _ hu | fails _ hu | completes _ hu => exact congrArg CommandView.ovr hu
    simp [hovr, hs] at ht
  | access _ a hd h =>
    obtain ⟨-, hovr⟩ | ⟨v, rfl, -, hovr⟩ := h.flags
    · simp [hovr, hs] at ht
    · exact .inr ⟨v, hd, by simpa [hovr, hs] using ht⟩
  | word _ w hd rest h => cases h <;> simp [hs] at ht
  | reset hd => exact .inl hd

/-- Settles O8: a step on the busy state drops the word, and of all steps only reset and a write of STATUS clear OVR. -/
theorem wordIsDroppedWhileBusy : Obligations.WordIsDroppedWhileBusy :=
  ⟨fun _ _ _ hb hw hs => step_word_while_busy hb hw hs, fun _ _ h hs ht => ovr_cleared (stepped_of_step h) hs ht⟩

/-! ## CSW (R34) -/

theorem csw_of_phaseEnd {s t : State} (h : PhaseEnd s t) : t.csw = s.csw := by
  cases h with
  | goto | enterLoop | complete => rfl
  | fail p => obtain ⟨-, -, ht⟩ | ⟨-, ht⟩ := failPoll_cases p s <;> rw [ht] <;> rfl

/-- An `ok` that fits writes CSW at the last request of a status poll alone (42_calseq.md R128). -/
theorem csw_of_afterOk {f : Frame} {s t : State} (h : afterOk f s = some t) :
    t.csw = s.csw ∨ (f = .statusPoll ∧ s.sub = .s2 ∧ t.csw = s.rspVal) := by
  unfold afterOk at h
  cases f with
  | unsealKey | sleep => exact .inl (csw_of_phaseEnd (phaseDone_cases h))
  | subcommand k =>
    cases hsub : s.sub <;> rw [hsub] at h
    case s2 => exact .inl (csw_of_phaseEnd (phaseDone_cases h))
    all_goals exact .inl (congrArg State.csw (Option.some.inj h)).symm
  | statusPoll =>
    cases hsub : s.sub <;> rw [hsub] at h
    case s2 => exact .inr ⟨rfl, rfl, csw_of_phaseEnd (phaseDone_cases h)⟩
    all_goals exact .inl (congrArg State.csw (Option.some.inj h)).symm

theorem pollPhase_of_frameOf {s : State} (h : frameOf s = some .statusPoll) : pollPhase s.phase = true := by
  unfold frameOf at h
  cases hp : s.phase <;> simp [hp] at h <;> rfl

/-- The last request of a status poll is its READ, which only data fits (42_calseq.md R126). -/
theorem okData_of_fits_poll {s : State} {q : Request} {r : Response} (hf : frameOf s = some .statusPoll)
    (hsub : s.sub = .s2) (hq : currentRequest s = some q) (hfit : fits q r = true) : ∃ b0 b1, r = .okData b0 b1 := by
  obtain rfl : Request.read Config.devAddr 2 = q := by
    simpa [currentRequest, hf, hsub, frameRequest, subcommandRequest] using hq
  cases r with
  | okData b0 b1 => exact ⟨b0, b1, rfl⟩
  | ok | busError => cases hfit

theorem csw_of_responseStep {r : Response} {s t : State} (h : responseStep r s = .next t) (hne : t.csw ≠ s.csw) :
    ∃ b0 b1, r = .okData b0 b1 ∧ pollPhase s.phase = true ∧ s.sub = .s2 ∧ t.csw = (b1 ++ b0 : BitVec 16) := by
  obtain ⟨f, q, hf, hq, ⟨-, rfl⟩ | ⟨hfit, rfl, ha⟩ | ⟨-, b0, b1, rfl, ha⟩⟩ := responseStep_cases h
  · exact absurd rfl hne
  · obtain hcsw | ⟨rfl, hsub, -⟩ := csw_of_afterOk ha
    · exact absurd hcsw hne
    · obtain ⟨b0, b1, hr⟩ := okData_of_fits_poll hf hsub hq hfit
      cases hr
  · obtain hcsw | ⟨rfl, hsub, hcsw⟩ := csw_of_afterOk ha
    · exact absurd hcsw hne
    · exact ⟨b0, b1, rfl, pollPhase_of_frameOf hf, hsub, hcsw⟩

/-- Settles O51: among the operations a turn can come to, only the response step of a status poll and reset write CSW. -/
theorem cswWrittenOnlyByStatusPolls : Obligations.CswWrittenOnlyByStatusPolls := by
  intro s t hstep hne
  obtain ⟨rest, hb | ⟨r, hd, he⟩ | ⟨a, -, hh⟩ | ⟨hd, -⟩⟩ := step_turn hstep
  · obtain ⟨-, rfl⟩ | ⟨-, -, -, rfl⟩ | ⟨-, -, -, q, -, rfl⟩ := blockTurn_cases hb <;> exact absurd rfl hne
  · obtain ⟨-, rfl⟩ | ⟨hb, hq, hr⟩ := environmentTurn_cases he
    · exact absurd rfl hne
    · obtain ⟨b0, b1, rfl, hp, hsub, hcsw⟩ := csw_of_responseStep hr hne
      exact .inr ⟨b0, b1, hd, hp, hsub, hb, hq, hcsw⟩
  · obtain ⟨w, -, hw⟩ | hp := hostDone_cases hh
    · cases hw <;> exact absurd rfl hne
    · exact absurd (congrArg SeqView.csw hp.view) hne
  · exact .inl hd

/-! ## The position (R45) -/

/-- Settles O52: a plain access leaves the position, and of the submitted words only those that start a sequence move
it. -/
theorem hostMovesThePositionOnlyByStarting : Obligations.HostMovesThePositionOnlyByStarting := by
  intro s t a hd hstep hmoved
  obtain ⟨w, rest, rfl, hw⟩ | hp := step_host hd hstep
  · cases hw with
    | start hw hb => exact ⟨hb, rfl, w, hw, rfl⟩
    | abort | abortIdle | dropped | result | error => simp at hmoved
  · have hphase : t.phase = s.phase := congrArg SeqView.phase hp.view
    have hsub : t.sub = s.sub := congrArg SeqView.sub hp.view
    simp [hphase, hsub] at hmoved

/-! ## The Host's own registers (R31, R33, R35, R37) -/

theorem hostRegisters_of_sequenced {s t : State} (h : Sequenced s t) : hostRegisters t = hostRegisters s := by
  cases h with
  | goesOn _ hu | fails _ hu | completes _ hu => exact congrArg CommandView.registers hu

theorem hostRegisters_of_submitted {w : Word} {s t : State} (h : Submitted w s t) :
    hostRegisters t = hostRegisters s := by cases h <;> rfl

/-- Settles O53: neither the sequencer nor a submitted word writes one of the Host's registers. -/
theorem operandsWrittenOnlyByTheHost : Obligations.OperandsWrittenOnlyByTheHost := by
  intro s t hstep hne
  have hreg : hostRegisters t ≠ hostRegisters s := fun h => by
    obtain ⟨hblk, hlo, hhi, hmaxpoll, hie, hkeys⟩ := hostRegisters_eq_iff.1 h
    simp [hblk, hlo, hhi, hmaxpoll, hie, hkeys] at hne
  cases stepped_of_step hstep with
  | sequencer _ h => exact absurd (hostRegisters_of_sequenced h) hreg
  | word _ w hd rest h => exact absurd (hostRegisters_of_submitted h) hreg
  | reset hd => exact .inl hd
  | access _ a hd h =>
    obtain hsame | ⟨off, n, v, rfl, hoff⟩ := h.registers
    · exact absurd hsame hreg
    · exact .inr ⟨off, n, v, hd, hoff⟩

/-! ## IRQ (R42) -/

theorem irq_of_sequenced {s t : State} (h : Sequenced s t) (hs : s.irq = (s.done && s.ie)) :
    t.irq = (t.done && t.ie) := by
  cases h with
  | goesOn _ ht =>
    have hirq : t.irq = s.irq := congrArg CommandView.irq ht
    have hdone : t.done = s.done := congrArg CommandView.done ht
    obtain ⟨-, -, -, -, hie, -⟩ := hostRegisters_eq_iff.1 (congrArg CommandView.registers ht)
    rw [hirq, hdone, hie, hs]
  | fails | completes => rfl

/-- Settles O54: each operation that writes DONE or IE drives the level, and the others keep all three. -/
theorem irqFollowsDoneAndIe : Obligations.IrqFollowsDoneAndIe := by
  refine ⟨fun s t hs hstep => ?_, rfl⟩
  cases stepped_of_step hstep with
  | sequencer _ h => exact irq_of_sequenced h hs
  | access _ a hd h => exact h.irq hs
  | reset => rfl
  | word _ w hd rest h =>
    cases h with
    | abort | abortIdle | dropped => exact hs
    | result | error | start => rfl

/-! ## OP (R28) -/

theorem op_of_sequenced {s t : State} (h : Sequenced s t) : t.op = s.op := by
  cases h with
  | goesOn _ hu | fails _ hu | completes _ hu => exact congrArg CommandView.op hu

/-- Settles O55: an accepted word is recorded, and nothing else but reset writes OP. -/
theorem opRecordsAcceptedWords : Obligations.OpRecordsAcceptedWords := by
  refine fun s t hstep => ⟨fun w hd hb hw => ?_, fun hne => ?_⟩
  · obtain ⟨rest, h⟩ := step_word hd hstep
    cases h with
    | result | error | start => rfl
    | abort h | abortIdle h => exact absurd h hw
    | dropped _ h => simp [hb] at h
  · cases stepped_of_step hstep with
    | sequencer _ h => exact absurd (op_of_sequenced h) hne
    | access _ a hd h => exact absurd (congrArg SeqView.op h.view) hne
    | reset hd => exact .inl hd
    | word _ w hd rest h =>
      refine .inr ⟨w, hd, ?_⟩
      cases h with
      | abort | abortIdle | dropped => exact absurd rfl hne
      | error hw hb => exact ⟨hb, hw⟩
      | result hw hb | start hw hb => exact ⟨hb, by rintro rfl; simp at hw⟩

/-! ## RES (R32) -/

/-- Settles O56: a completion writes RES, and so does a word of CSUM or XCODEC that ends with a result; all else but
reset leaves it. -/
theorem resWrittenOnlyAtSuccess : Obligations.ResWrittenOnlyAtSuccess := by
  intro s t hstep hne
  cases stepped_of_step hstep with
  | reset hd => exact .inl hd
  | access _ a hd h =>
    obtain hlo | hhi := hne
    · exact absurd (congrArg SeqView.resLo h.view) hlo
    · exact absurd (congrArg SeqView.resHi h.view) hhi
  | sequencer _ h =>
    cases h with
    | goesOn _ hu | fails _ hu =>
      obtain hlo | hhi := hne
      · exact absurd (congrArg CommandView.resLo hu) hlo
      · exact absurd (congrArg CommandView.resHi hu) hhi
    | completes u hu hb hq hr r hd =>
      have herr : u.err = s.err := congrArg CommandView.err hu
      exact .inr ⟨rfl, rfl, .inl ⟨hb, hq, ⟨r, hd⟩, rfl, rfl, herr, fun hinv => herr.trans (hinv.busyNotEnded hb).2⟩⟩
  | word _ w hd rest h =>
    cases h with
    | result hw hb => exact .inr ⟨rfl, hb, .inr ⟨hb, rfl, rfl, w, hw, hd⟩⟩
    | abort | abortIdle | dropped | error | start => simp at hne

/-! ## BUSY (R24, R38) -/

theorem busy_set {s t : State} (h : Stepped s t) (hs : s.busy = false) (ht : t.busy = true) :
    ∃ w ∈ [(0x00000008 : Word), 0x00000009, 0x0000000A, 0x0000000B],
      s.schedule.head? = some (.host (.write 0x00 4 w)) := by
  cases h with
  | sequencer _ h =>
    cases h with
    | goesOn _ hu =>
      have hbusy : t.busy = s.busy := congrArg CommandView.busy hu
      simp [hbusy, hs] at ht
    | fails | completes => cases ht
  | access _ a hd h =>
    have hbusy : t.busy = s.busy := congrArg SeqView.busy h.view
    simp [hbusy, hs] at ht
  | reset => cases ht
  | word _ w hd rest h =>
    cases h with
    | start hw => exact ⟨w, hw, hd⟩
    | abort | abortIdle | dropped | result | error => simp [hs] at ht

theorem busy_cleared {s t : State} (h : Stepped s t) (hs : s.busy = true) (ht : t.busy = false) :
    s.schedule.head? = some .assertReset ∨ (t.done = true ∧ t.reqOut = false ∧ t.abortPending = false) := by
  cases h with
  | sequencer _ h =>
    cases h with
    | goesOn _ hu =>
      have hbusy : t.busy = s.busy := congrArg CommandView.busy hu
      simp [hbusy, hs] at ht
    | fails => exact .inr ⟨rfl, rfl, rfl⟩
    | completes _ _ _ _ hr => exact .inr ⟨rfl, hr, rfl⟩
  | access _ a hd h =>
    have hbusy : t.busy = s.busy := congrArg SeqView.busy h.view
    simp [hbusy, hs] at ht
  | reset hd => exact .inl hd
  | word _ w hd rest h =>
    cases h with
    | abort | abortIdle | dropped => simp [hs] at ht
    | result _ hb | error _ hb | start _ hb => simp [hs] at hb

theorem latches_kept {s t : State} (h : Stepped s t) (hs : s.busy = true) (ht : t.busy = true) :
    t.latMaxpoll = s.latMaxpoll ∧ t.latKeys = s.latKeys ∧ t.op = s.op := by
  cases h with
  | sequencer _ h =>
    cases h with
    | goesOn _ hu =>
      exact ⟨congrArg CommandView.latMaxpoll hu, congrArg CommandView.latKeys hu, congrArg CommandView.op hu⟩
    | fails | completes => cases ht
  | access _ a hd h =>
    exact ⟨congrArg SeqView.latMaxpoll h.view, congrArg SeqView.latKeys h.view, congrArg SeqView.op h.view⟩
  | reset => cases ht
  | word _ w hd rest h =>
    cases h with
    | abort | abortIdle | dropped => exact ⟨rfl, rfl, rfl⟩
    | result _ hb | error _ hb | start _ hb => simp [hs] at hb

/-- Settles O57: BUSY is written by the start of a sequence, by its end, and by reset alone. -/
theorem busyFromAcceptanceToEnd : Obligations.BusyFromAcceptanceToEnd := fun _ _ hstep =>
  ⟨busy_set (stepped_of_step hstep), busy_cleared (stepped_of_step hstep), latches_kept (stepped_of_step hstep)⟩

/-! ## DONE (R25) -/

theorem done_set {s t : State} (h : Stepped s t) (hs : s.done = false) (ht : t.done = true) :
    t.busy = false
      ∧ (s.busy = true ∨ ∃ w : Word, s.schedule.head? = some (.host (.write 0x00 4 w)) ∧ w ≠ 0x0000000F) := by
  cases h with
  | sequencer _ h =>
    cases h with
    | goesOn _ hu =>
      have hdone : t.done = s.done := congrArg CommandView.done hu
      simp [hdone, hs] at ht
    | fails _ _ hb | completes _ _ hb => exact ⟨rfl, .inl hb⟩
  | access _ a hd h => obtain ⟨hdone, -⟩ | ⟨v, -, hdone, -⟩ := h.flags <;> simp [hdone, hs] at ht
  | reset => cases ht
  | word _ w hd rest h =>
    cases h with
    | result hw hb => exact ⟨hb, .inr ⟨w, hd, by rintro rfl; simp at hw⟩⟩
    | error hw => exact ⟨rfl, .inr ⟨w, hd, hw⟩⟩
    | abort | abortIdle | dropped | start => simp [hs] at ht

theorem done_cleared {s t : State} (h : Stepped s t) (hs : s.done = true) (ht : t.done = false) :
    s.schedule.head? = some .assertReset
      ∨ (∃ v : Word, s.schedule.head? = some (.host (.write 0x04 4 v)) ∧ v.getLsbD 1 = true)
      ∨ ∃ w : Word, s.schedule.head? = some (.host (.write 0x00 4 w)) ∧ s.busy = false ∧ w ≠ 0x0000000F := by
  cases h with
  | sequencer _ h =>
    cases h with
    | goesOn _ hu =>
      have hdone : t.done = s.done := congrArg CommandView.done hu
      simp [hdone, hs] at ht
    | fails | completes => cases ht
  | access _ a hd h =>
    obtain ⟨hdone, -⟩ | ⟨v, rfl, hdone, -⟩ := h.flags
    · simp [hdone, hs] at ht
    · exact .inr (.inl ⟨v, hd, by simpa [hdone, hs] using ht⟩)
  | reset hd => exact .inl hd
  | word _ w hd rest h =>
    cases h with
    | start hw hb => exact .inr (.inr ⟨w, hd, hb, by rintro rfl; simp at hw⟩)
    | abort | abortIdle | dropped | result | error => simp [hs] at ht

theorem done_of_abort {s t : State} (hd : s.schedule.head? = some (.host (.write 0x00 4 0x0000000F)))
    (hstep : step s = .next t) : t.done = s.done := by
  obtain ⟨rest, h⟩ := step_word hd hstep
  cases h with
  | abort | abortIdle => rfl
  | dropped hw | error hw => exact absurd rfl hw
  | result hw | start hw => simp at hw

/-- Settles O58: DONE is set by the end of a command, and cleared by acceptance, by a write of STATUS and by reset. -/
theorem doneSetAndCleared : Obligations.DoneSetAndCleared := fun _ _ hstep =>
  ⟨done_set (stepped_of_step hstep), done_cleared (stepped_of_step hstep), fun hd => done_of_abort hd hstep⟩

/-! ## The Host beside a running command (R204, R207) -/

/-- Settles O60: while BUSY a plain access finds DONE 0 and leaves it so, and a word other than ABORT is dropped. -/
theorem hostCannotDisturbARunningCommand : Obligations.HostCannotDisturbARunningCommand := by
  intro s t a hinv hb hd ha hstep
  obtain ⟨w, rest, rfl, hw⟩ | hp := step_host hd hstep
  · cases hw with
    | dropped => rfl
    | abort h | abortIdle h => exact absurd (by rw [h]) ha
    | result _ h | error _ h | start _ h => simp [hb] at h
  · obtain ⟨hnotDone, -⟩ := hinv.busyNotEnded hb
    have hdone : t.done = s.done := by
      obtain ⟨h, -⟩ | ⟨v, -, h, -⟩ := hp.flags
      · exact h
      · simp [h, hnotDone]
    rw [hp.view, hdone]
    rfl

/-! ## The layout of STATUS (R23) -/

theorem statusWord_bits (s : State) :
    (statusWord s).getLsbD 0 = s.busy ∧ (statusWord s).getLsbD 1 = s.done ∧ (statusWord s).getLsbD 2 = s.err
      ∧ (statusWord s).getLsbD 3 = s.ovr ∧ (statusWord s).getLsbD 18 = s.abortPending
      ∧ (statusWord s).getLsbD 19 = s.reqOut := by
  simp only [statusWord, BitVec.getLsbD_append]
  simp

theorem statusWord_fields (s : State) :
    (statusWord s).extractLsb' 4 4 = s.errcode.code ∧ (statusWord s).extractLsb' 8 8 = s.phase.code
      ∧ (statusWord s).extractLsb' 16 2 = s.sub.code ∧ (statusWord s).extractLsb' 20 4 = 0
      ∧ (statusWord s).extractLsb' 24 4 = s.op ∧ (statusWord s).extractLsb' 28 4 = 0 := by
  simp (disch := decide) only [statusWord, BitVec.extractLsb'_append_eq_of_le, BitVec.extractLsb'_append_eq_of_add_le]
  simp

/-- Settles O40: the bits and the fields of the assembled word, and the tables of codes by evaluation. -/
theorem statusLayout : Obligations.StatusLayout := by
  refine ⟨fun s => ?_, by decide, by decide, by decide⟩
  obtain ⟨hbusy, hdone, herr, hovr, habort, hreq⟩ := statusWord_bits s
  obtain ⟨hcode, hphase, hsub, hzero, hop, htop⟩ := statusWord_fields s
  exact ⟨hbusy, hdone, herr, hovr, hcode, hphase, hsub, habort, hreq, hzero, hop, htop⟩

/-! ## Late responses (R41, R192) -/

theorem step_late_response {s : State} {r : Response} {rest : List Turn} (hq : s.reqOut = false)
    (hs : s.schedule = .environment r :: rest) : step s = .next (withSchedule rest s) := by
  rw [step_cons hs]
  exact if_neg (by simp [hq])

theorem step_reset {s : State} {rest : List Turn} (hs : s.schedule = .assertReset :: rest) :
    step s = .next (resetTurn (withSchedule rest s)) := step_cons hs

/-- Settles O45: reset leaves no request outstanding, so a response after it is as late as any. -/
theorem lateResponseIsDiscarded : Obligations.LateResponseIsDiscarded := by
  refine ⟨fun s r rest hq hs => step_late_response hq hs, fun s r rest hs => ?_⟩
  rw [run_succ (step_reset hs), run_succ (step_late_response rfl rfl)]
  rfl

end Sys2Proof.Machine
end

section
/-! PROOFS of the family 20_memory.md, the host register port. First one rule per kind of access (20_memory.md R52, R61),
and the register at an offset; then the obligations on reads, writes and the BLK window. -/
namespace Sys2Proof.Machine

/-! ## One rule per kind of access -/

theorem hostTurn_of_illegal {a : HostAccess} (h : accessLegal a = false) (s : State) :
    hostTurn a s = .next (answer .accessError s) := by simp [hostTurn, h]

theorem hostTurn_readWord {off : Offset} (h4 : off.toNat % 4 = 0) (s : State) :
    hostTurn (.read off 4) s = .next (answer (.data4 (readReg off s)) s) :=
  if_pos ((legalAt_iff off 4).2 (.inl ⟨rfl, h4⟩))

theorem hostTurn_readByte {off : Offset} (hoff : inBlk off = true) (s : State) :
    hostTurn (.read off 1) s = .next (answer (.data1 (s.blk.read off.toNat)) s) :=
  if_pos ((legalAt_iff off 1).2 (.inr ⟨rfl, hoff⟩))

theorem hostTurn_writeWord {off : Offset} (h4 : off.toNat % 4 = 0) (v : Word) (s : State) :
    hostTurn (.write off 4 v) s = writeReg off v (answer .ok s) :=
  if_pos ((legalAt_iff off 4).2 (.inl ⟨rfl, h4⟩))

theorem hostTurn_writeByte {off : Offset} (hoff : inBlk off = true) (v : Word) (s : State) :
    hostTurn (.write off 1 v) s = .next (answer .ok (setBlk (s.blk.write off.toNat (v.extractLsb' 0 8)) s)) :=
  if_pos ((legalAt_iff off 1).2 (.inr ⟨rfl, hoff⟩))

/-- What R52 says of an offset and a width is what the port tests. -/
theorem accessLegal_iff {a : HostAccess} {off : Offset} {n : Nat} (ha : a = .read off n ∨ ∃ v, a = .write off n v) :
    accessLegal a = true ↔ (n = 4 ∧ off.toNat % 4 = 0) ∨ (n = 1 ∧ 0x40 ≤ off.toNat ∧ off.toNat ≤ 0x5F) := by
  have hlegal : accessLegal a = legalAt off n := by
    obtain rfl | ⟨v, rfl⟩ := ha <;> rfl
  rw [hlegal, legalAt_iff, inBlk_iff]

/-! ## The register at an offset -/

theorem regAt_eq_reserved {off : Offset} (h4 : off.toNat % 4 = 0)
    (h : (0x28 ≤ off.toNat ∧ off.toNat ≤ 0x3F) ∨ 0x60 ≤ off.toNat) : regAt off = .reserved := by
  revert off
  decide

/-- The turns to come are no register. -/
theorem readReg_withSchedule (off : Offset) (u : List Turn) (s : State) :
    readReg off (withSchedule u s) = readReg off s := by
  unfold readReg
  cases regAt off <;> rfl

theorem readReg_of_reserved {off : Offset} (h : regAt off = .reserved) (s : State) : readReg off s = 0 := by
  simp [readReg, h]

theorem readReg_of_inBlk {off : Offset} (h : inBlk off = true) (s : State) :
    readReg off s = s.blk.readWord off.toNat := by simp [readReg, (regAt_blk_iff off).2 h]

theorem writeReg_of_inBlk {off : Offset} (h : inBlk off = true) (v : Word) (s : State) :
    writeReg off v s = .next (setBlk (s.blk.writeWord off.toNat v) s) := by
  simp [writeReg, (regAt_blk_iff off).2 h]

theorem writeReg_of_reserved {off : Offset} (h : regAt off = .reserved) (v : Word) (s : State) :
    writeReg off v s = .next s := by simp [writeReg, h]

/-- RES, CSW and LOOPCNT are read-only (20_memory.md R61). -/
theorem writeReg_of_readOnly {off : Offset} (h : off ∈ [(0x10 : Offset), 0x14, 0x1C, 0x24]) (v : Word) (s : State) :
    writeReg off v s = .next s := by
  simp only [List.mem_cons, List.not_mem_nil, or_false] at h
  obtain rfl | rfl | rfl | rfl := h <;> rfl

theorem aligned_of_readOnly {off : Offset} (h : off ∈ [(0x10 : Offset), 0x14, 0x1C, 0x24]) : off.toNat % 4 = 0 := by
  revert off
  decide

/-! ## Words as sums of their fields -/

/-- A bit vector put together from two has the sum of their values, the upper one's at its place. -/
theorem toNat_append_eq_add {m n : Nat} (x : BitVec m) (y : BitVec n) :
    (x ++ y).toNat = x.toNat * 2 ^ n + y.toNat := by
  rw [BitVec.toNat_append, ← Nat.shiftLeft_add_eq_or_of_lt y.isLt, Nat.shiftLeft_eq]

theorem ctrlWord_eq_ofNat (s : State) :
    ctrlWord s = BitVec.ofNat 32 (s.ie.toNat * 2 ^ 16 + s.maxpoll.toNat) := by
  apply BitVec.eq_of_toNat_eq
  rw [BitVec.toNat_ofNat, ctrlWord, toNat_append_eq_add, toNat_append_eq_add, BitVec.toNat_ofBool]
  have hie := s.ie.toNat_lt
  have hmaxpoll := s.maxpoll.isLt
  simp only [BitVec.toNat_ofNat]
  omega

theorem cswWord_eq_ofNat (s : State) : cswWord s = BitVec.ofNat 32 s.csw.toNat := (BitVec.ofNat_toNat ..).symm

theorem loopcntWord_eq_ofNat (s : State) : loopcntWord s = BitVec.ofNat 32 s.loopcnt.toNat :=
  (BitVec.ofNat_toNat ..).symm

theorem readWord_eq_ofNat (m : Memory) (a : Nat) :
    m.readWord a = BitVec.ofNat 32 ((m.read a).toNat + (m.read (a + 1)).toNat * 2 ^ 8
      + (m.read (a + 2)).toNat * 2 ^ 16 + (m.read (a + 3)).toNat * 2 ^ 24) := by
  apply BitVec.eq_of_toNat_eq
  rw [BitVec.toNat_ofNat, Memory.readWord, toNat_append_eq_add, toNat_append_eq_add, toNat_append_eq_add]
  omega

/-! ## A step that is an access -/

section
variable {s : State} {off : Offset} {rest : List Turn}

theorem step_readWord (h4 : off.toNat % 4 = 0) (hs : s.schedule = .host (.read off 4) :: rest) :
    step s = .next (answer (.data4 (readReg off s)) (withSchedule rest s)) := by
  rw [step_cons hs, ← readReg_withSchedule off rest s]
  exact hostTurn_readWord h4 _

theorem step_writeWord {v : Word} (h4 : off.toNat % 4 = 0) (hs : s.schedule = .host (.write off 4 v) :: rest) :
    step s = writeReg off v (answer .ok (withSchedule rest s)) := (step_cons hs).trans (hostTurn_writeWord h4 v _)

end

/-! ## Legal and illegal accesses (R52) -/

theorem answers_of_submitted {w : Word} {s t : State} (h : Submitted w s t) : t.answers = s.answers := by
  cases h <;> rfl

theorem answers_of_written {off : Offset} {v : Word} {s t : State} (h : Written off v s t) :
    t.answers = s.answers := by cases h <;> rfl

/-- A legal access is answered, with data or with `ok`. -/
theorem hostTurn_answers_of_legal {a : HostAccess} (h : accessLegal a = true) (s : State) :
    ∃ t x, hostTurn a s = .next t ∧ t.answers = s.answers ++ [x] ∧ x ≠ .accessError := by
  cases a with
  | read off n =>
    obtain ⟨rfl, h4⟩ | ⟨rfl, hoff⟩ := (legalAt_iff off n).1 h
    · exact ⟨_, _, hostTurn_readWord h4 s, rfl, by simp⟩
    · exact ⟨_, _, hostTurn_readByte hoff s, rfl, by simp⟩
  | write off n v =>
    obtain ⟨t, ht⟩ := hostTurn_next (.write off n v) s
    refine ⟨t, .ok, ht, ?_, by simp⟩
    cases hostTurn_cases ht with
    | illegal _ hillegal => simp [h] at hillegal
    | byte => rfl
    | command _ _ _ _ hsubmit => exact answers_of_submitted (submitted_of_submit hsubmit)
    | word _ _ _ _ _ hw => exact answers_of_written hw

/-- Settles O37: an illegal access is answered and leaves the state, and a legal one gets data or `ok`. -/
theorem illegalAccessChangesNothing : Obligations.IllegalAccessChangesNothing := by
  intro s a off n rest ha hs
  rw [← accessLegal_iff ha, step_cons hs]
  exact ⟨fun h => hostTurn_of_illegal (Bool.eq_false_iff.2 h) _, fun h => hostTurn_answers_of_legal h _⟩

/-! ## Reads (R57, R61) -/

/-- Settles O38: of the cases of a Host turn a read meets two, and both only record an answer. -/
theorem readsHaveNoSideEffect : Obligations.ReadsHaveNoSideEffect := by
  intro s off n rest hs
  obtain ⟨t, ht⟩ := hostTurn_next (.read off n) (withSchedule rest s)
  have hstep : step s = .next t := (step_cons hs).trans ht
  cases hostTurn_cases ht with
  | illegal | read => exact ⟨_, hstep⟩

/-- Settles O39: the answer is the register the offset names, and its fields sum up to the word. -/
theorem readsReturnTheRegisters : Obligations.ReadsReturnTheRegisters := by
  intro s rest off hs answered
  have hread : ∀ v, off.toNat % 4 = 0 → readReg off s = v → answered v := fun v h4 hv => hv ▸ step_readWord h4 hs
  have hat : ∀ o v, off = o → o.toNat % 4 = 0 → readReg o s = v → answered v := fun o v ho => ho ▸ hread v
  refine ⟨fun h => hat _ _ h rfl rfl, fun h => hat _ _ h rfl rfl, fun h => hat _ _ h rfl rfl,
    fun h => hat _ _ h rfl rfl, fun h => hat _ _ h rfl rfl, fun h => hat _ _ h rfl rfl,
    fun h => hat _ _ h rfl (ctrlWord_eq_ofNat s), fun h => hat _ _ h rfl (cswWord_eq_ofNat s),
    fun h => hat _ _ h rfl rfl, fun h => hat _ _ h rfl (loopcntWord_eq_ofNat s),
    fun h4 h => hread _ h4 (readReg_of_reserved (regAt_eq_reserved h4 h) s), fun h4 hlo hhi => hread _ h4 ?_⟩
  rw [readReg_of_inBlk ((inBlk_iff off).2 ⟨hlo, by omega⟩), readWord_eq_ofNat]

/-! ## Writes (R61) -/

/-- Settles O41: the step is `writeReg` at the offset, on the answered state. -/
theorem registerWrites : Obligations.RegisterWrites := by
  intro s rest off v hs p
  have hwrite : ∀ t, off.toNat % 4 = 0 → writeReg off v p = .next t → step s = .next t :=
    fun t h4 ht => (step_writeWord h4 hs).trans ht
  have hat : ∀ o t, off = o → o.toNat % 4 = 0 → writeReg o v p = .next t → step s = .next t :=
    fun o t ho => ho ▸ hwrite t
  refine ⟨fun h => hat _ _ h rfl rfl, fun h => hat _ _ h rfl rfl, fun h => hat _ _ h rfl rfl,
    fun h => hat _ _ h rfl rfl, fun h => hat _ _ h rfl rfl,
    fun h => hwrite _ (aligned_of_readOnly h) (writeReg_of_readOnly h v p),
    fun h4 h => hwrite _ h4 (writeReg_of_reserved (regAt_eq_reserved h4 h) v p)⟩

/-! ## The BLK window (R53, R61) -/

/-- Reading any offset after a word is written in the window. -/
theorem Memory.read_writeWord {m : Memory} (hm : m.wf = true) {a : Nat} (hlo : 0x40 ≤ a) (hhi : a + 3 < 0x60) (v : Word)
    (x : Nat) : (m.writeWord a v).read x
      = if a ≤ x ∧ x ≤ a + 3 then v.extractLsb' (8 * (x - a)) 8 else m.read x := by
  have h0 := Memory.wf_write hm (v.extractLsb' 0 8) hlo (by omega)
  have h1 := Memory.wf_write h0 (v.extractLsb' 8 8) (a := a + 1) (by omega) (by omega)
  have h2 := Memory.wf_write h1 (v.extractLsb' 16 8) (a := a + 2) (by omega) (by omega)
  rw [Memory.writeWord, Memory.read_write_of_wf h2, Memory.read_write_of_wf h1, Memory.read_write_of_wf h0,
    Memory.read_write_of_wf hm]
  by_cases hx : a ≤ x ∧ x ≤ a + 3
  · obtain ⟨i, rfl⟩ := Nat.exists_eq_add_of_le hx.1
    have hi : i < 4 := by omega
    interval_cases i <;> simp
  · rw [if_neg (by omega), if_neg (by omega), if_neg (by omega), if_neg (by omega), if_neg hx]

theorem Memory.read_writeWord_inside {m : Memory} (hm : m.wf = true) {a : Nat} (hlo : 0x40 ≤ a) (hhi : a + 3 < 0x60)
    (v : Word) {i : Nat} (hi : i < 4) : (m.writeWord a v).read (a + i) = v.extractLsb' (8 * i) 8 := by
  rw [Memory.read_writeWord hm hlo hhi, if_pos (by omega), Nat.add_sub_cancel_left]

theorem Memory.read_writeWord_outside {m : Memory} (hm : m.wf = true) {a : Nat} (hlo : 0x40 ≤ a) (hhi : a + 3 < 0x60)
    (v : Word) {x : Nat} (hx : x < a ∨ a + 3 < x) : (m.writeWord a v).read x = m.read x := by
  rw [Memory.read_writeWord hm hlo hhi, if_neg (by omega)]

/-- A word written in the window reads back. -/
theorem Memory.readWord_writeWord {m : Memory} (hm : m.wf = true) {a : Nat} (hlo : 0x40 ≤ a) (hhi : a + 3 < 0x60)
    (v : Word) : (m.writeWord a v).readWord a = v := by
  have hbyte : ∀ i < 4, (m.writeWord a v).read (a + i) = v.extractLsb' (8 * i) 8 := fun i hi =>
    Memory.read_writeWord_inside hm hlo hhi v hi
  have hlow : (m.writeWord a v).read a = v.extractLsb' 0 8 := hbyte 0 (by decide)
  rw [Memory.readWord, hbyte 3 (by decide), hbyte 2 (by decide), hbyte 1 (by decide), hlow,
    BitVec.extractLsb'_append_extractLsb'_eq_extractLsb' (by rfl),
    BitVec.extractLsb'_append_extractLsb'_eq_extractLsb' (by rfl),
    BitVec.extractLsb'_append_extractLsb'_eq_extractLsb' (by rfl)]
  exact BitVec.extractLsb'_eq_self

theorem toNat_blkOffset {k : Nat} (h : k < 32) : (BitVec.ofNat 7 (0x40 + k)).toNat = 0x40 + k := by
  rw [BitVec.toNat_ofNat]
  omega

theorem inBlk_blkOffset {k : Nat} (h : k < 32) : inBlk (BitVec.ofNat 7 (0x40 + k)) = true := by
  rw [inBlk_iff, toNat_blkOffset h]
  omega

/-- Settles O42: the write is `Memory.writeWord` at the offset of `BLK[4j]`, which ends inside the window. -/
theorem blkWordWriteIsLittleEndian : Obligations.BlkWordWriteIsLittleEndian := by
  intro s rest j v hm hs
  have hj := j.isLt
  have htoNat := toNat_blkOffset (k := 4 * j.val) (by omega)
  have hhi : 0x40 + 4 * j.val + 3 < 0x60 := by omega
  refine ⟨s.blk.writeWord (0x40 + 4 * j.val) v, ?_, Memory.wf_writeWord hm v (by omega) hhi,
    Memory.readWord_writeWord hm (by omega) hhi v,
    fun i => Memory.read_writeWord_inside hm (by omega) hhi v i.isLt,
    fun a ha => Memory.read_writeWord_outside hm (by omega) hhi v ha⟩
  rw [step_writeWord (by omega) hs, writeReg_of_inBlk (inBlk_blkOffset (by omega)), htoNat]
  rfl

/-- Settles O43: the write is `Memory.write` at the offset of `BLK[i]`, and the read is `Memory.read` there. -/
theorem blkByteAccess : Obligations.BlkByteAccess := by
  intro s rest i hm
  have hi := i.isLt
  have hoff := inBlk_blkOffset hi
  refine ⟨fun v hs => ⟨s.blk.write (0x40 + i.val) (v.extractLsb' 0 8), ?_, Memory.wf_write hm _ (by omega) (by omega),
    fun a => Memory.read_write_of_wf hm _ _ a⟩, fun hs => ?_⟩
  · rw [step_cons hs, runTurn, hostTurn_writeByte hoff, toNat_blkOffset hi]
    rfl
  · rw [step_cons hs, runTurn, hostTurn_readByte hoff, toNat_blkOffset hi]
    rfl

end Sys2Proof.Machine
end

section
/-! PROOFS of the family 20_memory.md, runs and requests: at a position of its own a running command always has a next
state (42_calseq.md R134), and what a step sends (10_state.md R40). -/
namespace Sys2Proof.Machine

/-! ## A position of a command has its rows in the tables (42_calseq.md R133 to R135) -/

section
variable {s : State}

theorem phaseOfCommand_idle (op : BitVec 4) : phaseOfCommand op .idle = false := by
  simp [phaseOfCommand, enterPhase, exitPhase, offsetPhase]

/-- A command that enters calibration is CAL_ENTER or one of the two offset commands. -/
theorem op_of_enterPhase {op : BitVec 4} {p : Phase} (hp : enterPhase p = true) (h : phaseOfCommand op p = true) :
    op = Instr.calEnter.op ∨ op = Instr.calCcOffset.op ∨ op = Instr.calBoardOffset.op := by
  have hexit : exitPhase p = false := by cases p <;> simp_all [enterPhase, exitPhase]
  unfold phaseOfCommand at h
  split_ifs at h with h1 h2 h3 h4
  · exact .inl h1
  · simp [hexit] at h
  · exact .inr (.inl h3)
  · exact .inr (.inr h4)

theorem ofcode_of_offset {op : BitVec 4} (h : op = Instr.calCcOffset.op ∨ op = Instr.calBoardOffset.op) :
    ∃ k, ofcode op = some k := by
  obtain rfl | rfl := h <;> exact ⟨_, rfl⟩

theorem offsetActive_of_offset {op : BitVec 4} (h : op = Instr.calCcOffset.op ∨ op = Instr.calBoardOffset.op)
    (v : Half) : ∃ b, offsetActive op v = some b := by
  obtain rfl | rfl := h <;> exact ⟨_, rfl⟩

theorem frameOf_of_phaseOfCommand (h : phaseOfCommand s.op s.phase = true) : ∃ f, frameOf s = some f := by
  unfold frameOf
  cases hp : s.phase <;> rw [hp] at h
  case idle => simp [phaseOfCommand_idle] at h
  case ofCmd =>
    obtain ⟨k, hk⟩ := ofcode_of_offset (offset_of_phaseOfCommand rfl h)
    exact ⟨.subcommand k, by rw [hk]; rfl⟩
  all_goals exact ⟨_, rfl⟩

/-- A phase of three requests sends a subcommand or polls. -/
theorem frameRequest_of_threeRequestPhase {f : Frame} (hf : frameOf s = some f) (h : threeRequestPhase s.phase = true)
    (b : SubStep) : ∃ q, frameRequest f b = some q := by
  unfold frameOf at hf
  cases hp : s.phase <;> rw [hp] at hf h
  case ofCmd =>
    obtain ⟨k, -, rfl⟩ := Option.map_eq_some_iff.1 hf
    exact ⟨_, rfl⟩
  case idle | unseal1 | unseal2 | enWait | exWait | exSettle1 | exSettle2 | ofWait1 | ofWait2 => cases h
  all_goals
    cases hf
    exact ⟨_, rfl⟩

/-- A frame has a first request. -/
theorem frameRequest_s0 (f : Frame) : ∃ q, frameRequest f .s0 = some q := by cases f <;> exact ⟨_, rfl⟩

theorem currentRequest_of_frameOf {f : Frame} (hf : frameOf s = some f)
    (hsub : s.sub ≠ .s0 → threeRequestPhase s.phase = true) : ∃ q, currentRequest s = some q := by
  simp only [currentRequest, hf]
  by_cases h0 : s.sub = .s0
  · exact h0 ▸ frameRequest_s0 f
  · exact frameRequest_of_threeRequestPhase hf (hsub h0) s.sub

/-- The transition table has a row for every phase of the running command. -/
theorem phaseDone_of_phaseOfCommand (h : phaseOfCommand s.op s.phase = true) : ∃ t, phaseDone s = some t := by
  unfold phaseDone
  cases hp : s.phase <;> rw [hp] at h <;> dsimp only
  case idle => simp [phaseOfCommand_idle] at h
  case enPoll =>
    split_ifs
    · unfold enPollSeen
      obtain hop | hop | hop := op_of_enterPhase rfl h <;> rw [hop] <;> exact ⟨_, rfl⟩
    · exact ⟨_, rfl⟩
  case ofPoll1 | ofPoll2 =>
    obtain ⟨b, hb⟩ := offsetActive_of_offset (offset_of_phaseOfCommand rfl h) s.rspVal
    rw [hb]
    cases b <;> exact ⟨_, rfl⟩
  all_goals exact ⟨_, rfl⟩

theorem afterOk_of_phaseOfCommand (f : Frame) (h : phaseOfCommand s.op s.phase = true) :
    ∃ t, afterOk f s = some t := by
  unfold afterOk
  cases f with
  | unsealKey | sleep => exact phaseDone_of_phaseOfCommand h
  | subcommand =>
    cases s.sub with
    | s0 | s1 => exact ⟨_, rfl⟩
    | s2 => exact phaseDone_of_phaseOfCommand h
  | statusPoll =>
    cases s.sub with
    | s0 | s1 => exact ⟨_, rfl⟩
    | s2 => exact phaseDone_of_phaseOfCommand (s := saveStatus s) h

/-! ## Every turn has a next state -/

theorem responseStep_next (r : Response) {f : Frame} {q : Request} (hf : frameOf s = some f)
    (hq : currentRequest s = some q) (h : phaseOfCommand s.op s.phase = true) : ∃ t, responseStep r s = .next t := by
  have hok : ∃ t, ofPosition (afterOk f (clearRequest s)) = .next t := by
    simpa only [ofPosition_next] using afterOk_of_phaseOfCommand (s := clearRequest s) f h
  have hdata : ∀ b0 b1, ∃ t, ofPosition (afterOk f (saveResponse b0 b1 (clearRequest s))) = .next t := fun b0 b1 => by
    simpa only [ofPosition_next] using afterOk_of_phaseOfCommand (s := saveResponse b0 b1 (clearRequest s)) f h
  unfold responseStep
  rw [hf, hq]
  cases q with
  | write | sleep =>
    cases r with
    | ok => exact hok
    | okData | busError => exact ⟨_, rfl⟩
  | read =>
    cases r with
    | okData b0 b1 => exact hdata b0 b1
    | ok | busError => exact ⟨_, rfl⟩

/-- A running command with the invariant stands at a position with a frame and a request. -/
theorem frame_and_request_of_inv (h : s.Inv) (hb : s.busy = true) :
    ∃ f q, frameOf s = some f ∧ currentRequest s = some q := by
  obtain ⟨f, hf⟩ := frameOf_of_phaseOfCommand (h.busyPhase hb)
  obtain ⟨q, hq⟩ := currentRequest_of_frameOf hf h.subLegal
  exact ⟨f, q, hf, hq⟩

theorem blockTurn_next (h : s.Inv) : ∃ t, blockTurn s = .next t := by
  unfold blockTurn
  split_ifs with henabled habort
  · exact ⟨_, rfl⟩
  · obtain ⟨hb, -⟩ := Bool.and_eq_true_iff.1 henabled
    obtain ⟨-, q, -, hq⟩ := frame_and_request_of_inv h hb
    exact ⟨sendRequest q s, by rw [issueStep, hq]; rfl⟩
  · exact ⟨_, rfl⟩

theorem environmentTurn_next (r : Response) (h : s.Inv) : ∃ t, environmentTurn r s = .next t := by
  unfold environmentTurn
  split_ifs with henabled
  · obtain ⟨hb, -⟩ := Bool.and_eq_true_iff.1 henabled
    obtain ⟨f, q, hf, hq⟩ := frame_and_request_of_inv h hb
    exact responseStep_next r hf hq (h.busyPhase hb)
  · exact ⟨_, rfl⟩

theorem runTurn_next (u : Turn) (h : s.Inv) : ∃ t, runTurn u s = .next t := by
  cases u with
  | host a => exact hostTurn_next a s
  | block => exact blockTurn_next h
  | environment r => exact environmentTurn_next r h
  | assertReset => exact ⟨_, rfl⟩

theorem step_next (h : s.Inv) : ∃ t, step s = .next t := by
  cases hs : s.schedule with
  | nil => exact step_nil hs ▸ blockTurn_next h
  | cons u rest => exact step_cons hs ▸ runTurn_next u (inv_withSchedule rest h)

end

/-- Settles O48, by induction on the length of the run: a step from a state with the invariant has a next state, and it
keeps the invariant. -/
theorem runsNeverStop : Obligations.RunsNeverStop := by
  intro s h k
  induction k generalizing s with
  | zero => exact ⟨s, rfl⟩
  | succ k ih =>
    obtain ⟨u, hu⟩ := step_next h
    obtain ⟨t, ht⟩ := ih u (stepKeepsTheInvariant s u h hu)
    exact ⟨t, (run_succ hu).trans ht⟩

/-! ## Requests (R51, R63) -/

section
variable {s t : State}

/-- A phase that sleeps waits for a poll or settles. -/
theorem sleep_of_frameOf {ms : Nat} (h : frameOf s = some (.sleep ms)) : ms = 1000 ∨ ms = 150 := by
  unfold frameOf at h
  cases hp : s.phase <;> rw [hp] at h
  case enWait | exWait | ofWait1 | ofWait2 => cases h; exact .inl rfl
  case exSettle1 | exSettle2 => cases h; exact .inr rfl
  case ofCmd =>
    obtain ⟨k, -, hk⟩ := Option.map_eq_some_iff.1 h
    cases hk
  all_goals cases h

theorem controlOnly_subcommandRequest (k : Half) (b : SubStep) : controlOnly (subcommandRequest k b) = true := by
  cases b <;> rfl

theorem controlOnly_currentRequest {q : Request} (h : currentRequest s = some q) : controlOnly q = true := by
  unfold currentRequest at h
  cases hf : frameOf s with
  | none => simp [hf] at h
  | some f =>
    rw [hf] at h
    dsimp only at h
    cases f with
    | subcommand | statusPoll =>
      cases h
      exact controlOnly_subcommandRequest _ _
    | unsealKey k => cases hb : s.sub <;> rw [hb] at h <;> cases h; rfl
    | sleep ms =>
      cases hb : s.sub <;> rw [hb] at h <;> cases h
      obtain rfl | rfl := sleep_of_frameOf hf <;> rfl

theorem requests_of_phaseEnd (h : PhaseEnd s t) : t.requests = s.requests := by
  cases h with
  | goto | enterLoop | complete => rfl
  | fail p => obtain ⟨-, -, ht⟩ | ⟨-, ht⟩ := failPoll_cases p s <;> rw [ht] <;> rfl

theorem requests_of_afterOk {f : Frame} (hf : frameOf s = some f) (h : afterOk f s = some t) :
    t.requests = s.requests := by
  obtain ⟨b, -, rfl⟩ | he | he := afterOk_cases hf h
  · rfl
  · exact requests_of_phaseEnd he
  · exact requests_of_phaseEnd (s := saveStatus s) he

theorem requests_of_responseStep {r : Response} (h : responseStep r s = .next t) : t.requests = s.requests := by
  obtain ⟨f, q, hf, -, ⟨-, rfl⟩ | ⟨-, -, ha⟩ | ⟨-, b0, b1, -, ha⟩⟩ := responseStep_cases h
  · rfl
  · exact requests_of_afterOk (s := clearRequest s) hf ha
  · exact requests_of_afterOk (s := saveResponse b0 b1 (clearRequest s)) hf ha

/-- A submitted word sends nothing. -/
theorem sendsNothing_of_submitted {w : Word} (h : Submitted w s t) :
    t.requests = s.requests ∧ (s.reqOut = false → t.reqOut = false) := by
  cases h with
  | abort | abortIdle | dropped | result => exact ⟨rfl, id⟩
  | error | start => exact ⟨rfl, fun _ => rfl⟩

end

/-- Settles O49: of the turns only the Block's issue step sends, and it sends the request of the position. -/
theorem oneRequestAtATimeToControl : Obligations.OneRequestAtATimeToControl := by
  intro s t hstep
  obtain ⟨rest, hb | ⟨r, -, he⟩ | ⟨a, -, hh⟩ | ⟨-, rfl⟩⟩ := step_turn hstep
  · obtain ⟨-, rfl⟩ | ⟨-, -, -, rfl⟩ | ⟨hbusy, hout, habort, q, hq, rfl⟩ := blockTurn_cases hb
    · exact .inl ⟨rfl, id⟩
    · exact .inl ⟨rfl, fun _ => rfl⟩
    · exact .inr ⟨q, rfl, controlOnly_currentRequest hq, hbusy, hout, habort, rfl, hbusy, rfl, rfl⟩
  · obtain ⟨-, rfl⟩ | ⟨-, hout, hr⟩ := environmentTurn_cases he
    · exact .inl ⟨rfl, id⟩
    · exact .inl ⟨requests_of_responseStep (s := withSchedule rest s) hr,
        fun hnot => absurd (hnot.symm.trans hout) Bool.false_ne_true⟩
  · obtain ⟨w, -, hw⟩ | hp := hostDone_cases hh
    · exact .inl (sendsNothing_of_submitted (s := answer .ok (withSchedule rest s)) hw)
    · exact .inl ⟨congrArg SeqView.requests hp.view, (congrArg SeqView.reqOut hp.view).trans⟩
  · exact .inl ⟨rfl, fun _ => rfl⟩

end Sys2Proof.Machine
end

section
/-! PROOFS of the family 30_encoding.md, command words: the decoder and the encoder are inverse to each other (R70 to
R73), and what the submission of a command's word does (R74). -/
namespace Sys2Proof.Machine

/-! ## The decoder (R70 to R73) -/

theorem rsvField_encode (i : Instr) : rsvField (encode i) = 0 := by cases i <;> rfl

theorem decodeOp_op (i : Instr) : decodeOp i.op = .ok i := by cases i <;> rfl

theorem decode_of_rsvField_eq_zero {w : Word} (h : rsvField w = 0) : decode w = decodeOp (opField w) := if_pos h

theorem decode_of_rsvField_ne_zero {w : Word} (h : rsvField w ≠ 0) : decode w = .error .rsvNotZero := if_neg h

/-- The word of a command decodes to it (30_encoding.md R71). -/
theorem decode_encode (i : Instr) : decode (encode i) = .ok i := by
  rw [decode_of_rsvField_eq_zero (rsvField_encode i), opField_encode, decodeOp_op]

/-- Settles O1: the two inverse laws, a decoded word being put together again from its fields. -/
theorem decodeAndEncodeAgree : Obligations.DecodeAndEncodeAgree :=
  fun i _ => ⟨eq_encode_of_decode, fun h => h ▸ decode_encode i⟩

theorem decodeOp_reserved_iff (op : BitVec 4) :
    decodeOp op = .error (.reservedOp op) ↔ op.toNat ∈ [0x0, 0x5, 0x6, 0x7, 0xC, 0xD, 0xE] := by
  revert op
  decide

/-- The table refuses an OP for one reason alone. -/
theorem eq_reservedOp_of_decodeOp {op : BitVec 4} {e : DecodeError} (h : decodeOp op = .error e) :
    e = .reservedOp op := by
  unfold decodeOp at h
  split at h <;> cases h
  rfl

theorem exists_decodeOp_error_iff (op : BitVec 4) :
    (∃ e, decodeOp op = .error e) ↔ op.toNat ∈ [0x0, 0x5, 0x6, 0x7, 0xC, 0xD, 0xE] := by
  rw [← decodeOp_reserved_iff]
  exact ⟨fun ⟨e, h⟩ => eq_reservedOp_of_decodeOp h ▸ h, fun h => ⟨_, h⟩⟩

/-- The OP values are those of the commands, ABORT's and the reserved ones. -/
theorem mem_commandOps_iff (op : BitVec 4) : op.toNat ∈ [0x1, 0x2, 0x3, 0x4, 0x8, 0x9, 0xA, 0xB]
    ↔ op ≠ Instr.abort.op ∧ op.toNat ∉ [0x0, 0x5, 0x6, 0x7, 0xC, 0xD, 0xE] := by
  revert op
  decide

theorem op_eq_abort_iff (i : Instr) : i.op = Instr.abort.op ↔ i = .abort := by cases i <;> decide

theorem exists_decodeOp_command_iff (op : BitVec 4) : (∃ i, i ≠ Instr.abort ∧ decodeOp op = .ok i)
    ↔ op.toNat ∈ [0x1, 0x2, 0x3, 0x4, 0x8, 0x9, 0xA, 0xB] := by
  rw [mem_commandOps_iff, ← exists_decodeOp_error_iff]
  cases hd : decodeOp op with
  | error e => simp
  | ok i => simp [← op_of_decodeOp hd, op_eq_abort_iff]

/-- The commands other than ABORT are the words with RSV = 0 and a command's OP (30_encoding.md R71, R73). -/
theorem exists_decode_command_iff (w : Word) : (∃ i, i ≠ Instr.abort ∧ decode w = .ok i)
    ↔ rsvField w = 0 ∧ (opField w).toNat ∈ [0x1, 0x2, 0x3, 0x4, 0x8, 0x9, 0xA, 0xB] := by
  rw [← exists_decodeOp_command_iff]
  by_cases hr : rsvField w = 0
  · rw [decode_of_rsvField_eq_zero hr, and_iff_right hr]
  · exact iff_of_false (by simp [decode_of_rsvField_ne_zero hr]) fun h => hr h.1

/-- The illegal words are those with RSV not 0 or a reserved OP (30_encoding.md R72, R73). -/
theorem exists_decode_error_iff (w : Word) : (∃ e, decode w = .error e)
    ↔ rsvField w ≠ 0 ∨ (opField w).toNat ∈ [0x0, 0x5, 0x6, 0x7, 0xC, 0xD, 0xE] := by
  rw [← exists_decodeOp_error_iff]
  by_cases hr : rsvField w = 0
  · rw [decode_of_rsvField_eq_zero hr, or_iff_right (not_not_intro hr)]
  · exact iff_of_true ⟨_, decode_of_rsvField_ne_zero hr⟩ (.inl hr)

/-- Settles O2: the commands and the illegal words by their fields, and ABORT as the case of O1. -/
theorem decodingIsTotal : Obligations.DecodingIsTotal :=
  fun w => ⟨exists_decode_command_iff w, decodeAndEncodeAgree .abort w, exists_decode_error_iff w⟩

/-- Settles O3: each word of the table is `encode` of its command. -/
theorem tableWordsDecode : Obligations.TableWordsDecode :=
  ⟨decode_encode .csumGen, decode_encode .csumCheck, decode_encode .xdec, decode_encode .xenc, decode_encode .calEnter,
    decode_encode .calExit, decode_encode .calCcOffset, decode_encode .calBoardOffset, decode_encode .abort,
    decode_of_rsvField_ne_zero (by decide), decode_of_rsvField_ne_zero (by decide), rfl⟩

/-! ## Submitting a command's word (R74) -/

theorem submit_of_decode {w : Word} {i : Instr} (h : decode w = .ok i) (s : State) : submit w s = exec i s := by
  rw [submit, h]

/-- A write of CMD submits the word. -/
theorem writeReg_cmd (w : Word) (s : State) : writeReg 0x00 w s = submit w s := rfl

theorem step_command {s : State} {rest : List Turn} {w : Word} {i : Instr}
    (hs : s.schedule = .host (.write 0x00 4 w) :: rest) (h : decode w = .ok i) :
    step s = exec i (answer .ok (withSchedule rest s)) := by
  rw [step_writeWord rfl hs, writeReg_cmd, submit_of_decode h]

theorem tableWord_toNat (w : Word) : tableWord 32 w.toNat = w := by
  rw [tableWord, Nat.mod_eq_of_lt w.isLt, BitVec.ofNat_toNat, BitVec.setWidth_eq]

theorem withFetchWord_schedule (s : State) (w : Word) :
    (s.withFetchWord 32 w.toNat).schedule = .host (.write 0x00 4 w) :: s.schedule := by
  rw [State.withFetchWord, submitTurn, tableWord_toNat]

/-- Settles O6: the access is a write of CMD, and `withFetchWord` places that access. -/
theorem stepRunsTheDecodedCommand : Obligations.StepRunsTheDecodedCommand :=
  ⟨fun _ _ _ _ hs h => step_command hs h, fun s w _ h => step_command (withFetchWord_schedule s w) h⟩

/-- The meaning of each CALSEQ command, accepted, is a start at its entry position (42_calseq.md R133). -/
theorem exec_calseq_idle {s : State} (hb : s.busy = false) {i : Instr} {entry : Phase}
    (h : (i, entry) ∈ [(Instr.calEnter, Phase.unseal1), (.calExit, .exExit), (.calCcOffset, .unseal1),
      (.calBoardOffset, .unseal1)]) :
    exec i s = .next (startSequence entry (acceptWord i.op s)) := by
  rw [← submitWord_idle (run := startSequence entry) hb]
  simp only [List.mem_cons, List.not_mem_nil, or_false, Prod.mk.injEq] at h
  obtain ⟨rfl, rfl⟩ | ⟨rfl, rfl⟩ | ⟨rfl, rfl⟩ | ⟨rfl, rfl⟩ := h <;> rfl

/-- Settles O21: the start of an accepted command writes every field the statement names. -/
theorem calCommandsStart : Obligations.CalCommandsStart := by
  intro s hb c hc
  simp only [List.mem_cons, List.not_mem_nil, or_false] at hc
  obtain rfl | rfl | rfl | rfl := hc <;> exact exec_calseq_idle hb (by decide)

end Sys2Proof.Machine
end

section
/-! PROOFS of the family 30_encoding.md, Host assembly: the lines and their encodings (R82), and what the
pseudo-instructions do (R83). -/
namespace Sys2Proof.Machine

/-! ## Lines (R82) -/

theorem toNat_setWidth_byte_lt (b : Byte) : (b.setWidth 32).toNat < 256 := by
  rw [BitVec.toNat_setWidth_of_le (by decide)]
  exact b.isLt

/-- The low byte of a byte made wider is the byte. -/
theorem extractLsb'_setWidth_byte (b : Byte) : (b.setWidth 32).extractLsb' 0 8 = b := by
  apply BitVec.eq_of_toNat_eq
  rw [BitVec.extractLsb'_toNat, Nat.shiftRight_zero, BitVec.toNat_setWidth_of_le (by decide)]
  exact Nat.mod_eq_of_lt b.isLt

/-- A word below 256 is its low byte made wider. -/
theorem setWidth_extractLsb'_of_lt {v : Word} (h : v.toNat < 256) : (v.extractLsb' 0 8).setWidth 32 = v := by
  apply BitVec.eq_of_toNat_eq
  rw [BitVec.toNat_setWidth_of_le (by decide), BitVec.extractLsb'_toNat, Nat.shiftRight_zero]
  exact Nat.mod_eq_of_lt h

theorem lineEncode_wf (l : HostLine) : (lineEncode l).wf = true := by
  cases l with
  | sb off imm => exact decide_eq_true (toNat_setWidth_byte_lt imm)
  | sw | lw | lb => rfl

theorem lineDecode_lineEncode (l : HostLine) : lineDecode (lineEncode l) = some l := by
  rw [lineDecode, if_pos (lineEncode_wf l)]
  cases l with
  | sb off imm => exact congrArg (fun b => some (HostLine.sb off b)) (extractLsb'_setWidth_byte imm)
  | sw | lw | lb => rfl

theorem lineAccess_wf (l : HostLine) : (lineAccess l).wf = true := by
  cases l with
  | sb off imm => exact decide_eq_true (toNat_setWidth_byte_lt imm)
  | sw | lw | lb => rfl

/-- A triple that decodes is the triple of its line: a `W1` value has nothing above the byte that is kept. -/
theorem lineEncode_of_lineDecode {c : LineCode} {l : HostLine} (h : lineDecode c = some l) : lineEncode l = c := by
  obtain ⟨kind, off, value⟩ := c
  unfold lineDecode at h
  split_ifs at h with hwf
  cases kind <;> cases value <;> dsimp only at h <;> cases h
  case pos.w1.some v =>
    have hv : v.toNat < 256 := of_decide_eq_true hwf
    rw [lineEncode, setWidth_extractLsb'_of_lt hv]
  all_goals rfl

/-- Settles O4: the accesses and triples of the four lines by evaluation, and the two inverse laws. -/
theorem hostLinesRoundTrip : Obligations.HostLinesRoundTrip :=
  ⟨fun _ _ b => by
      rw [BitVec.ofNat_toNat]
      exact ⟨rfl, rfl, rfl, rfl, rfl, rfl, rfl, rfl⟩,
    fun l => ⟨lineEncode_wf l, lineDecode_lineEncode l, lineAccess_wf l⟩, fun _ _ => lineEncode_of_lineDecode⟩

/-! ## The eight writes of `ld.blk` (R83) -/

/-- The block buffer after the words `js` of `b`. -/
def ldBlkMemory (b : Vector Byte 32) (js : List (Fin 8)) (m : Memory) : Memory :=
  js.foldl (fun m j => m.writeWord (0x40 + 4 * j.val) (ldBlkWord b j)) m

@[simp] theorem ldBlkMemory_nil (b : Vector Byte 32) (m : Memory) : ldBlkMemory b [] m = m := rfl

@[simp] theorem ldBlkMemory_cons (b : Vector Byte 32) (j : Fin 8) (js : List (Fin 8)) (m : Memory) :
    ldBlkMemory b (j :: js) m = ldBlkMemory b js (m.writeWord (0x40 + 4 * j.val) (ldBlkWord b j)) := rfl

/-- One write of `ld.blk`, as a turn. -/
def ldBlkTurn (b : Vector Byte 32) (j : Fin 8) : Turn :=
  .host (.write (BitVec.ofNat 7 (0x40 + 4 * j.val)) 4 (ldBlkWord b j))

theorem lineTurns_ldBlk (b : Vector Byte 32) :
    lineTurns (expandPseudo (.ldBlk b)) = (List.finRange 8).map (ldBlkTurn b) := by
  simp only [lineTurns, expandPseudo, List.map_map]
  rfl

/-- Each byte of a word is the byte of the block at its place. -/
theorem extractLsb'_ldBlkWord (b : Vector Byte 32) (j : Fin 8) (k : Fin 4) :
    (ldBlkWord b j).extractLsb' (8 * k.val) 8 = b[4 * j.val + k.val] := by
  unfold ldBlkWord
  fin_cases k
  all_goals
    simp (disch := decide) only [BitVec.extractLsb'_append_eq_of_le, BitVec.extractLsb'_append_eq_of_add_le]
    exact BitVec.extractLsb'_eq_self

section
variable {b : Vector Byte 32} {m : Memory}

theorem wf_writeWord_ldBlk (hm : m.wf = true) (j : Fin 8) (v : Word) :
    (m.writeWord (0x40 + 4 * j.val) v).wf = true := Memory.wf_writeWord hm v (by omega) (by omega)

theorem ldBlkMemory_wf (js : List (Fin 8)) (hm : m.wf = true) : (ldBlkMemory b js m).wf = true := by
  induction js generalizing m with
  | nil => exact hm
  | cons j js ih => exact ih (wf_writeWord_ldBlk hm j _)

/-- After the writes a byte of a word among them is the byte of the block, any other is as before. -/
theorem read_ldBlkMemory (js : List (Fin 8)) (hm : m.wf = true) (j : Fin 8) (k : Fin 4) :
    (ldBlkMemory b js m).read (0x40 + 4 * j.val + k.val)
      = if j ∈ js then b[4 * j.val + k.val] else m.read (0x40 + 4 * j.val + k.val) := by
  induction js generalizing m with
  | nil => simp
  | cons j' js ih =>
    rw [ldBlkMemory_cons, ih (wf_writeWord_ldBlk hm j' _)]
    by_cases hjs : j ∈ js
    · simp [hjs]
    by_cases hj : j = j'
    · subst hj
      rw [if_neg hjs, if_pos List.mem_cons_self, Memory.read_writeWord_inside hm (by omega) (by omega) _ k.isLt,
        extractLsb'_ldBlkWord]
    · have hval := Fin.val_ne_of_ne hj
      rw [if_neg hjs, if_neg (by simp [hj, hjs]), Memory.read_writeWord_outside hm (by omega) (by omega) _ (by omega)]

end

/-- All eight words hold the whole block. -/
theorem read_ldBlkMemory_all (b : Vector Byte 32) {m : Memory} (hm : m.wf = true) (i : Fin 32) :
    (ldBlkMemory b (List.finRange 8) m).read (0x40 + i.val) = b[i] := by
  have hread := read_ldBlkMemory (b := b) (List.finRange 8) hm ⟨i.val / 4, by omega⟩ ⟨i.val % 4, by omega⟩
  rw [if_pos (List.mem_finRange _)] at hread
  simp only [Nat.add_assoc, Nat.div_add_mod] at hread
  exact hread

theorem step_ldBlkTurn {b : Vector Byte 32} {j : Fin 8} {s : State} {rest : List Turn}
    (hs : s.schedule = ldBlkTurn b j :: rest) :
    step s = .next { s with
      blk := s.blk.writeWord (0x40 + 4 * j.val) (ldBlkWord b j), schedule := rest, answers := s.answers ++ [.ok] } := by
  have htoNat := toNat_blkOffset (k := 4 * j.val) (by omega)
  rw [step_writeWord (by omega) hs, writeReg_of_inBlk (inBlk_blkOffset (by omega)), htoNat]
  rfl

/-- The writes of `ld.blk`, any number of them, one step each. -/
theorem run_ldBlkTurns (b : Vector Byte 32) (js : List (Fin 8)) {s : State} {rest : List Turn}
    (hs : s.schedule = js.map (ldBlkTurn b) ++ rest) :
    (Sys2Proof.core.run js.length s : Host.Outcome State Fault Refusal) = .next { s with
      blk := ldBlkMemory b js s.blk, schedule := rest, answers := s.answers ++ List.replicate js.length .ok } := by
  induction js generalizing s with
  | nil =>
    subst hs
    simp [Host.Core.run]
  | cons j js ih =>
    rw [List.length_cons, run_succ (step_ldBlkTurn hs), ih rfl]
    simp [List.replicate_succ]

theorem run_ldBlk (b : Vector Byte 32) {s : State} {rest : List Turn}
    (hs : s.schedule = lineTurns (expandPseudo (.ldBlk b)) ++ rest) :
    (Sys2Proof.core.run 8 s : Host.Outcome State Fault Refusal) = .next { s with
      blk := ldBlkMemory b (List.finRange 8) s.blk, schedule := rest,
      answers := s.answers ++ List.replicate 8 .ok } := by
  rw [lineTurns_ldBlk] at hs
  exact run_ldBlkTurns b (List.finRange 8) hs

/-! ## Pseudo-instructions of one or two writes (R83) -/

/-- A word write at the head of a program is one move: the write, the access answered. -/
theorem runProgram_sw {off : Offset} {v : Word} {s t : State} (h4 : off.toNat % 4 = 0)
    (h : writeReg off v (answer .ok s) = .next t) (moves : List Move) (rest : List HostStep) :
    runProgram (.program :: moves) (.line (.sw off v) :: rest) s = runProgram moves rest t := by
  apply runProgram_cons
  have hturn : hostTurn (lineAccess (lineOf (.line (.sw off v)))) s = .next t := (hostTurn_writeWord h4 v s).trans h
  rw [runMove_program, hturn, withProgram_next, programAfter_line]

theorem runProgram_liOpa64 (s : State) (d : DWord) :
    runProgram [.program, .program] (expandPseudo (.liOpa64 d)) s = .next ([], { s with
      opaLo := d.extractLsb' 0 32, opaHi := d.extractLsb' 32 32, answers := s.answers ++ [.ok, .ok] }) := by
  rw [expandPseudo, runProgram_sw rfl rfl, runProgram_sw rfl rfl, runProgram_nil]
  simp [answer, writeOpaLo, writeOpaHi]

theorem runProgram_liOpa (s : State) (w : Word) :
    runProgram [.program] (expandPseudo (.liOpa w)) s = .next ([], { s with
      opaLo := w, answers := s.answers ++ [.ok] }) := runProgram_sw rfl rfl [] []

/-- Bits 1 and 3 written to STATUS clear DONE and OVR, and with DONE the IRQ level (10_state.md R23, R42). -/
theorem writeStatus_ack (s : State) :
    writeStatus 0x0000000A s = { s with done := false, ovr := false, irq := false } := by
  simp [writeStatus, State.driveIrq]

theorem runProgram_ack (s : State) :
    runProgram [.program] (expandPseudo .ack) s = .next ([], { s with
      done := false, ovr := false, irq := false, answers := s.answers ++ [.ok] }) := by
  have hwrite : writeReg 0x04 0x0000000A (answer .ok s) = .next (writeStatus 0x0000000A (answer .ok s)) := rfl
  rw [expandPseudo, runProgram_sw rfl hwrite, writeStatus_ack, runProgram_nil]
  rfl

/-- A pseudo-instruction that expands to the write of a command's word is `exec` of the command, which never stops. -/
theorem runProgram_command {p : Pseudo} {i : Instr} (hp : expandPseudo p = [.line (.sw 0x00 (encode i))]) (s : State) :
    ∃ t, exec i (answer .ok s) = .next t ∧ runProgram [.program] (expandPseudo p) s = .next ([], t) := by
  obtain ⟨t, ht⟩ := exec_next i (answer .ok s)
  have hwrite : writeReg 0x00 (encode i) (answer .ok s) = .next t :=
    (submit_of_decode (decode_encode i) _).trans ht
  exact ⟨t, ht, hp ▸ runProgram_sw rfl hwrite [] []⟩

/-! ## The loop of `wait` (R83) -/

theorem waitDone_statusWord (s : State) : waitDone (statusWord s) = !s.busy := by
  obtain ⟨hbusy, -⟩ := statusWord_bits s
  rw [waitDone, hbusy]

/-- A pass of `wait` reads STATUS, and stays at the loop while BUSY is 1. -/
theorem runMove_wait (s : State) (rest : List HostStep) :
    runMove .program (expandPseudo .wait ++ rest) s
      = .next (if s.busy then expandPseudo .wait ++ rest else rest, answer (.data4 (statusWord s)) s) := by
  have hread : hostTurn (lineAccess (lineOf (.repeatUntilIdle (.lw 0x04)))) s
      = .next (answer (.data4 (statusWord s)) s) := hostTurn_readWord rfl s
  rw [expandPseudo, List.singleton_append, runMove_program, hread, withProgram_next, programAfter_loop,
    lastReadDone_answer, waitDone_statusWord]
  cases s.busy <;> rfl

/-- One move of a run at the loop: it goes past the loop as a pass with BUSY = 0, or stays. -/
theorem runMove_wait_cases {m : Move} {q : List HostStep} {s t : State}
    (h : runMove m (expandPseudo .wait) s = .next (q, t)) :
    (m = .program ∧ s.busy = false) ∨ q = expandPseudo .wait := by
  by_cases hm : m = .program
  · subst hm
    cases hb : s.busy with
    | false => exact .inl ⟨rfl, rfl⟩
    | true =>
      have hpass := runMove_wait s []
      rw [List.append_nil, h, hb, if_pos rfl] at hpass
      cases hpass
      exact .inr rfl
  · exact .inr (runMove_other hm h)

/-- A run past the loop has a pass that finds BUSY = 0, and before it stood at the loop: by induction on the moves. -/
theorem exists_idle_pass_of_runProgram_wait {moves : List Move} {s t : State}
    (h : runProgram moves (expandPseudo .wait) s = .next ([], t)) :
    ∃ before later u, moves = before ++ .program :: later ∧ u.busy = false
      ∧ runProgram before (expandPseudo .wait) s = .next (expandPseudo .wait, u) := by
  induction moves generalizing s with
  | nil => cases h
  | cons m moves ih =>
    obtain ⟨q, u, hmove, hrest⟩ := runProgram_cons_inv h
    obtain ⟨rfl, hb⟩ | rfl := runMove_wait_cases hmove
    · exact ⟨[], moves, s, rfl, hb, rfl⟩
    · obtain ⟨before, later, v, rfl, hv, hrun⟩ := ih hrest
      exact ⟨m :: before, later, v, rfl, hv, (runProgram_cons hmove).trans hrun⟩

/-- Settles O5: the run of the eight writes, the moves of the single writes, and the loop's one pass and whole run. -/
theorem pseudoInstructionsRun : Obligations.PseudoInstructionsRun := by
  refine ⟨fun b s rest hm hs => ⟨ldBlkMemory b (List.finRange 8) s.blk, ldBlkMemory_wf _ hm,
    read_ldBlkMemory_all b hm, run_ldBlk b hs⟩, runProgram_liOpa64, runProgram_liOpa, runProgram_ack,
    fun c hc s => runProgram_command ?_ s, runMove_wait, fun _ _ _ => exists_idle_pass_of_runProgram_wait⟩
  revert c
  decide

end Sys2Proof.Machine
end

section
/-! PROOFS of the family 40_checksum.md, CSUM. First the checksum of any list of bytes, as 255 less the sum and as the
complement of the wrapping sum, and its laws (R95, R97, R98); then the two commands, whose blocks are BLK (R96, R97). -/
namespace Sys2Proof.Machine

/-! ## The two forms of the checksum (R95) -/

theorem checksum_toNat (b : List Byte) : (checksum b).toNat = 255 - byteSum b % 256 := by
  rw [checksum, BitVec.toNat_ofNat]
  omega

@[simp] theorem byteSum_cons (x : Byte) (b : List Byte) : byteSum (x :: b) = x.toNat + byteSum b := by
  simp [byteSum]

/-- The exact sum, wrapped to a byte, is the sum of an 8-bit wrapping adder. -/
theorem ofNat_byteSum (b : List Byte) : BitVec.ofNat 8 (byteSum b) = b.sum := by
  induction b with
  | nil => rfl
  | cons x b ih => rw [byteSum_cons, BitVec.ofNat_add, ih, BitVec.ofNat_toNat, BitVec.setWidth_eq, List.sum_cons]

/-- The ones' complement form: in a byte, 255 less a value flips its bits. -/
theorem checksum_eq_not_sum (b : List Byte) : checksum b = ~~~b.sum := by
  apply BitVec.eq_of_toNat_eq
  rw [checksum_toNat, BitVec.toNat_not, ← ofNat_byteSum, BitVec.toNat_ofNat]

/-- The bytes of a block, as the sum over its places. -/
theorem byteSum_toList {n : Nat} (b : Vector Byte n) : byteSum b.toList = ∑ i : Fin n, (b[i]).toNat := by
  have hbytes : b.toList = List.ofFn fun i : Fin n => b[i] := by
    rw [← Vector.toList_ofFn]
    exact congrArg Vector.toList Vector.ofFn_getElem.symm
  rw [byteSum, hbytes, List.map_ofFn, List.sum_ofFn]
  rfl

/-- 32 bytes of at most 255 each. -/
theorem sum_bytes_le (b : Vector Byte 32) : ∑ i : Fin 32, (b[i]).toNat ≤ 8160 := by
  have hbyte : ∀ i ∈ Finset.univ, (b[(i : Fin 32)]).toNat ≤ 255 := fun i _ => Nat.le_of_lt_succ (b[i]).isLt
  exact Finset.sum_le_card_nsmul Finset.univ _ 255 hbyte

/-- Settles O11: the two forms of the checksum, and the bound of each byte. -/
theorem checksumIsOnesComplementOfTheSum : Obligations.ChecksumIsOnesComplementOfTheSum := by
  intro b
  refine ⟨?_, sum_bytes_le b, ?_⟩
  · rw [checksum_toNat, byteSum_toList]
  · rw [checksum_eq_not_sum, List.sum_eq_foldl]

/-! ## The valid bit (R97) -/

/-- Two bytes sum to 255 mod 256 only if they sum to 255, as 511 is out of reach. -/
theorem checksumValid_iff (b : List Byte) (c : Byte) : checksumValid b c = true ↔ c = checksum b := by
  have hc := c.isLt
  rw [checksumValid, beq_iff_eq, ← BitVec.toNat_inj, checksum_toNat]
  omega

/-- Settles O13, for blocks of any length. -/
theorem validExactlyForTheChecksum : Obligations.ValidExactlyForTheChecksum := checksumValid_iff

/-! ## The four laws (R98) -/

/-- The checksum is a valid candidate for its own block. -/
theorem byteSum_add_checksum (b : List Byte) : (byteSum b + (checksum b).toNat) % 256 = 255 := by
  have hvalid : checksumValid b (checksum b) = true := (checksumValid_iff b _).mpr rfl
  rwa [checksumValid, beq_iff_eq, Nat.mod_add_mod] at hvalid

theorem checksum_perm {b c : List Byte} (h : b.Perm c) : checksum b = checksum c := by
  rw [checksum_eq_not_sum, checksum_eq_not_sum, h.sum_eq]

theorem checksum_eq_allOnes_iff (b : List Byte) : checksum b = 0xFF ↔ byteSum b % 256 = 0 := by
  rw [← BitVec.toNat_inj, checksum_toNat, show (0xFF : Byte).toNat = 255 from rfl]
  omega

/-- In the wrapping sum one byte's change is the change of the sum. -/
theorem sum_set_add (b : List Byte) {i : Nat} (hi : i < b.length) (k : Byte) :
    (b.set i (b[i] + k)).sum = b.sum + k := by
  rw [List.sum_set', dif_pos hi, neg_add_cancel_left]

theorem checksum_set_add (b : List Byte) {i : Nat} (hi : i < b.length) (k : Byte) :
    checksum (b.set i (b[i] + k)) = checksum b - k := by
  rw [checksum_eq_not_sum, checksum_eq_not_sum, sum_set_add b hi, ← BitVec.allOnes_sub_eq_not,
    ← BitVec.allOnes_sub_eq_not, sub_add_eq_sub_sub]

/-- Settles O12: the laws are those of byte lists. -/
theorem checksumLaws : Obligations.ChecksumLaws := by
  refine fun b => ⟨byteSum_add_checksum _, fun _ => checksum_perm, checksum_eq_allOnes_iff _, fun i k => ?_⟩
  rw [Vector.toList_set]
  exact checksum_set_add b.toList (by simp) k

/-! ## The commands (R96, R97) -/

/-- BLK as the block of the checksum, with the offsets of its bytes (10_state.md R21, R37). -/
theorem byteSum_blkBytes (s : State) :
    byteSum (blkBytes s) = ∑ i ∈ Finset.range 32, (s.blk.read (0x40 + i)).toNat := by
  rw [byteSum, blkBytes, List.map_map]
  rfl

theorem checksum_blkBytes_toNat (s : State) :
    (checksum (blkBytes s)).toNat = 255 - (∑ i ∈ Finset.range 32, (s.blk.read (0x40 + i)).toNat) % 256 := by
  rw [checksum_toNat, byteSum_blkBytes]

/-- The candidate is the low byte of OPA_LO (30_encoding.md R75). -/
theorem candidate_toNat (s : State) : (candidate s).toNat = s.opaLo.toNat % 256 := by
  rw [candidate, BitVec.extractLsb'_toNat, Nat.shiftRight_zero]

theorem checksumValid_blkBytes_toNat (s : State) :
    (checksumValid (blkBytes s) (candidate s)).toNat
      = if ((∑ i ∈ Finset.range 32, (s.blk.read (0x40 + i)).toNat) % 256 + s.opaLo.toNat % 256) % 256 = 255
        then 1 else 0 := by
  rw [checksumValid, byteSum_blkBytes, candidate_toNat, Bool.beq_eq_decide_eq, Bool.toNat, Bool.cond_decide]

/-- `(g << 8) | valid` as a number: the two fields do not overlap (R97). -/
theorem checkResult_eq_ofNat (g : Byte) (valid : Bool) :
    g.setWidth 32 <<< 8 ||| (BitVec.ofBool valid).setWidth 32 = BitVec.ofNat 32 (g.toNat * 256 + valid.toNat) := by
  have hg := g.isLt
  have hvalid : valid.toNat < 2 ^ 8 := valid.toNat_lt.trans (by decide)
  have hhigh : (g.setWidth 32 <<< 8).toNat = g.toNat <<< 8 := by
    rw [BitVec.toNat_shiftLeft, BitVec.toNat_setWidth, Nat.shiftLeft_eq, Nat.shiftLeft_eq]
    omega
  have hlow : ((BitVec.ofBool valid).setWidth 32).toNat = valid.toNat := by
    rw [BitVec.toNat_setWidth, BitVec.toNat_ofBool]
    omega
  apply BitVec.eq_of_toNat_eq
  rw [BitVec.toNat_or, hhigh, hlow, ← Nat.shiftLeft_add_eq_or_of_lt hvalid, Nat.shiftLeft_eq, BitVec.toNat_ofNat]
  omega

/-- A CSUM or XCODEC command, accepted and ended with a result, writes RES, DONE, ERR, ERRCODE, OP and IRQ, and nothing
else (30_encoding.md R74, R76). -/
theorem endWithResult_acceptWord (op : BitVec 4) (hi lo : Word) (s : State) :
    endWithResult hi lo (acceptWord op s) = { s with
      resLo := lo, resHi := hi, done := true, err := false, errcode := .none, op := op, irq := s.ie } := rfl

theorem exec_csumGen_idle {s : State} (hb : s.busy = false) :
    exec .csumGen s
      = .next (endWithResult 0 ((checksum (blkBytes s)).setWidth 32) (acceptWord Instr.csumGen.op s)) := by
  rw [exec, execCsumGen, submitWord_idle hb]
  rfl

theorem exec_csumCheck_idle {s : State} (hb : s.busy = false) :
    exec .csumCheck s
      = .next (endWithResult 0
          ((checksum (blkBytes s)).setWidth 32 <<< 8
            ||| (BitVec.ofBool (checksumValid (blkBytes s) (candidate s))).setWidth 32)
          (acceptWord Instr.csumCheck.op s)) := by
  rw [exec, execCsumCheck, submitWord_idle hb]
  rfl

/-- Settles O9: the accepted command ends with the checksum of BLK, zero-extended. -/
theorem csumGenWritesTheChecksum : Obligations.CsumGenWritesTheChecksum := by
  intro s hb
  rw [exec_csumGen_idle hb, endWithResult_acceptWord, ← BitVec.ofNat_toNat, checksum_blkBytes_toNat]
  rfl

/-- Settles O10: the accepted command ends with `(g << 8) | valid`, whose fields are sums over BLK. -/
theorem csumCheckWritesValid : Obligations.CsumCheckWritesValid := by
  intro s hb
  rw [exec_csumCheck_idle hb, endWithResult_acceptWord, checkResult_eq_ofNat, checksum_blkBytes_toNat,
    checksumValid_blkBytes_toNat]
  rfl

end Sys2Proof.Machine
end

section
/-! PROOFS of the family 41_xemics.md, XDEC: the fields of Xemics words and binary64 patterns as numbers, the pattern
XDEC gives (R106), and the value of a Xemics word with its laws (R105, R107). -/
namespace Sys2Proof.Machine

/-! ## Fields as numbers (30_encoding.md R77, R78) -/

theorem toNat_getLsbD {w : Nat} (x : BitVec w) (i : Nat) : (x.getLsbD i).toNat = x.toNat / 2 ^ i % 2 := by
  rw [← BitVec.testBit_toNat, Nat.toNat_testBit]

theorem getLsbD_eq_of_toNat {w : Nat} {x : BitVec w} {i : Nat} {b : Bool} (h : x.toNat / 2 ^ i % 2 = b.toNat) :
    x.getLsbD i = b :=
  Function.LeftInverse.injective Bool.ofNat_toNat ((toNat_getLsbD x i).trans h)

theorem toNat_extractLsb' {w : Nat} (x : BitVec w) (i n : Nat) :
    (x.extractLsb' i n).toNat = x.toNat / 2 ^ i % 2 ^ n := by
  rw [BitVec.extractLsb'_toNat, Nat.shiftRight_eq_div_pow]

/-- The Xemics word with the given fields. -/
def xemicsWord (sign : Bool) (e f : Nat) : Word := BitVec.ofNat 32 (e * 2 ^ 24 + f + sign.toNat * 2 ^ 23)

theorem toNat_xemicsWord (sign : Bool) {e f : Nat} (he : e < 2 ^ 8) (hf : f < 2 ^ 23) :
    (xemicsWord sign e f).toNat = e * 2 ^ 24 + f + sign.toNat * 2 ^ 23 := by
  have hsign := sign.toNat_le
  rw [xemicsWord, BitVec.toNat_ofNat]
  omega

theorem xemicsExp_xemicsWord (sign : Bool) {e f : Nat} (he : e < 2 ^ 8) (hf : f < 2 ^ 23) :
    (xemicsExp (xemicsWord sign e f)).toNat = e := by
  have hsign := sign.toNat_le
  rw [xemicsExp, toNat_extractLsb', toNat_xemicsWord sign he hf]
  omega

theorem xemicsFrac_xemicsWord (sign : Bool) {e f : Nat} (he : e < 2 ^ 8) (hf : f < 2 ^ 23) :
    (xemicsFrac (xemicsWord sign e f)).toNat = f := by
  rw [xemicsFrac, toNat_extractLsb', toNat_xemicsWord sign he hf]
  omega

theorem xemicsSign_xemicsWord (sign : Bool) {e f : Nat} (he : e < 2 ^ 8) (hf : f < 2 ^ 23) :
    xemicsSign (xemicsWord sign e f) = sign := by
  have hsign := sign.toNat_le
  apply getLsbD_eq_of_toNat
  rw [toNat_xemicsWord sign he hf]
  omega

/-- Every word is made of its fields. -/
theorem xemicsWord_fields (x : Word) :
    xemicsWord (xemicsSign x) (xemicsExp x).toNat (xemicsFrac x).toNat = x := by
  apply BitVec.eq_of_toNat_eq
  rw [toNat_xemicsWord _ (xemicsExp x).isLt (xemicsFrac x).isLt, xemicsSign, xemicsExp, xemicsFrac, toNat_getLsbD,
    toNat_extractLsb', toNat_extractLsb']
  have hx := x.isLt
  omega

theorem f64Exp_lt (d : DWord) : f64Exp d < 2 ^ 11 := (d.extractLsb' 52 11).isLt

theorem f64Frac_lt (d : DWord) : f64Frac d < 2 ^ 52 := (d.extractLsb' 0 52).isLt

/-! ## XDEC's bits (R106) -/

/-- The three fields of XDEC's pattern do not overlap. -/
theorem toNat_xdecBits (x : Word) :
    (xdecBits x).toNat
      = (xemicsSign x).toNat * 2 ^ 63 + ((xemicsExp x).toNat + 894) * 2 ^ 52 + (xemicsFrac x).toNat * 2 ^ 29 := by
  have hsign := (xemicsSign x).toNat_le
  have hexp := (xemicsExp x).isLt
  have hfrac := (xemicsFrac x).isLt
  have hsignField : ((BitVec.ofBool (xemicsSign x)).setWidth 64 <<< 63).toNat = (xemicsSign x).toNat <<< 63 := by
    rw [BitVec.toNat_shiftLeft, BitVec.toNat_setWidth, BitVec.toNat_ofBool, Nat.shiftLeft_eq, Nat.shiftLeft_eq]
    omega
  have hexpField : (((xemicsExp x).setWidth 64 + 894#64) <<< 52).toNat = ((xemicsExp x).toNat + 894) <<< 52 := by
    rw [BitVec.toNat_shiftLeft, BitVec.toNat_add, BitVec.toNat_setWidth, BitVec.toNat_ofNat, Nat.shiftLeft_eq,
      Nat.shiftLeft_eq]
    omega
  have hfracField : ((xemicsFrac x).setWidth 64 <<< 29).toNat = (xemicsFrac x).toNat * 2 ^ 29 := by
    rw [BitVec.toNat_shiftLeft, BitVec.toNat_setWidth, Nat.shiftLeft_eq]
    omega
  rw [xdecBits, BitVec.toNat_or, BitVec.toNat_or, hsignField, hexpField, hfracField, Nat.or_assoc,
    ← Nat.shiftLeft_add_eq_or_of_lt (by omega) (_ + 894),
    ← Nat.shiftLeft_add_eq_or_of_lt (by omega), Nat.shiftLeft_eq, Nat.shiftLeft_eq, Nat.add_assoc]

theorem xdecBits_eq_ofNat (x : Word) :
    xdecBits x = BitVec.ofNat 64
      ((xemicsSign x).toNat * 2 ^ 63 + ((xemicsExp x).toNat + 894) * 2 ^ 52 + (xemicsFrac x).toNat * 2 ^ 29) := by
  rw [← toNat_xdecBits, BitVec.ofNat_toNat, BitVec.setWidth_eq]

theorem f64Exp_xdecBits (x : Word) : f64Exp (xdecBits x) = (xemicsExp x).toNat + 894 := by
  have hsign := (xemicsSign x).toNat_le
  have hexp := (xemicsExp x).isLt
  have hfrac := (xemicsFrac x).isLt
  rw [f64Exp, toNat_extractLsb', toNat_xdecBits]
  omega

theorem f64Frac_xdecBits (x : Word) : f64Frac (xdecBits x) = (xemicsFrac x).toNat * 2 ^ 29 := by
  have hfrac := (xemicsFrac x).isLt
  rw [f64Frac, toNat_extractLsb', toNat_xdecBits]
  omega

theorem f64Sign_xdecBits (x : Word) : f64Sign (xdecBits x) = xemicsSign x := by
  have hsign := (xemicsSign x).toNat_le
  have hexp := (xemicsExp x).isLt
  have hfrac := (xemicsFrac x).isLt
  apply getLsbD_eq_of_toNat
  rw [toNat_xdecBits]
  omega

theorem exec_xdec_idle {s : State} (hb : s.busy = false) :
    exec .xdec s
      = .next (endWithResult ((xdecBits s.opaLo).extractLsb' 32 32) ((xdecBits s.opaLo).extractLsb' 0 32)
          (acceptWord Instr.xdec.op s)) := by
  rw [exec, execXdec, submitWord_idle hb]
  rfl

/-- Settles O14: the accepted command ends with the two halves of XDEC's pattern. -/
theorem xdecWritesTheBinary64 : Obligations.XdecWritesTheBinary64 := by
  intro s hb
  rw [exec_xdec_idle hb, endWithResult_acceptWord, xdecBits_eq_ofNat]
  rfl

/-- Settles O15: the significand gains 29 zero bits, which the exponent's bias takes back. -/
theorem xdecIsExact : Obligations.XdecIsExact := by
  intro x
  have hexp := (xemicsExp x).isLt
  refine ⟨by rw [f64Exp_xdecBits]; omega, by rw [f64Exp_xdecBits]; omega, ?_⟩
  have hnum : f64Num (xdecBits x) = ((xemicsFrac x).toNat + 2 ^ 23) * 2 ^ 29 := by
    rw [f64Num, f64Exp_xdecBits, if_neg (by omega), f64Frac_xdecBits]
    omega
  have hpow : f64Pow (xdecBits x) = ((xemicsExp x).toNat : ℤ) - 128 - 24 - 29 := by
    rw [f64Pow, f64Exp_xdecBits, if_neg (by omega)]
    omega
  rw [f64Value, xemicsValue, f64Sign_xdecBits, hnum, hpow, zpow_sub₀ two_ne_zero]
  push_cast
  field_simp

/-! ## A signed magnitude and its power of two -/

theorem abs_sign_mul (c : Prop) [Decidable c] (q : ℚ) : |(if c then -1 else 1) * q| = |q| := by
  split
  · rw [neg_one_mul, abs_neg]
  · rw [one_mul]

theorem sign_mul_lt_zero_iff (c : Prop) [Decidable c] {q : ℚ} (hq : 0 < q) : (if c then -1 else 1) * q < 0 ↔ c := by
  split
  case isTrue hc => exact iff_of_true (by linarith) hc
  case isFalse hc => exact iff_of_false (by linarith) hc

theorem two_zpow_le_iff {a : ℚ} (ha : 0 < a) (k : ℤ) : (2 : ℚ) ^ k ≤ a ↔ k ≤ Int.log 2 a := by
  exact_mod_cast Int.zpow_le_iff_le_log one_lt_two ha

theorem lt_two_zpow_iff {a : ℚ} (ha : 0 < a) (k : ℤ) : a < (2 : ℚ) ^ k ↔ Int.log 2 a < k := by
  exact_mod_cast Int.lt_zpow_iff_log_lt one_lt_two ha

/-- `floor(log2 a)` is the only power of two that fits (R109). -/
theorem log_two_eq {a : ℚ} {k : ℤ} (hlo : (2 : ℚ) ^ k ≤ a) (hhi : a < (2 : ℚ) ^ (k + 1)) : Int.log 2 a = k := by
  have ha : 0 < a := (zpow_pos two_pos k).trans_le hlo
  rw [two_zpow_le_iff ha] at hlo
  rw [lt_two_zpow_iff ha] at hhi
  omega

/-- The leading one of the significand and the power of two add up. -/
theorem log_two_natCast_mul {n : Nat} (hn : n ≠ 0) (p : ℤ) :
    Int.log 2 ((n : ℚ) * (2 : ℚ) ^ p) = (Nat.log2 n : ℤ) + p := by
  have hlo : (2 : ℚ) ^ Nat.log2 n ≤ n := by exact_mod_cast Nat.log2_self_le hn
  have hhi : (n : ℚ) < (2 : ℚ) ^ (Nat.log2 n + 1) := by exact_mod_cast Nat.lt_log2_self
  apply log_two_eq
  · rw [zpow_add₀ two_ne_zero, zpow_natCast]
    gcongr
  · rw [add_right_comm, zpow_add₀ two_ne_zero]
    gcongr
    exact_mod_cast hhi

/-! ## The value of a Xemics word (R105, R107) -/

theorem abs_xemicsValue (x : Word) :
    |xemicsValue x| = ((xemicsFrac x).toNat + 2 ^ 23 : ℕ) * (2 : ℚ) ^ (((xemicsExp x).toNat : ℤ) - 128 - 24) := by
  rw [xemicsValue, mul_assoc, abs_sign_mul, abs_of_nonneg (by positivity)]

theorem xemicsValue_lt_zero_iff (x : Word) : xemicsValue x < 0 ↔ xemicsSign x = true := by
  rw [xemicsValue, mul_assoc]
  exact sign_mul_lt_zero_iff _ (by positivity)

/-- The implicit bit is the leading one, so the exponent field alone gives the power of two. -/
theorem log_abs_xemicsValue (x : Word) : Int.log 2 |xemicsValue x| = ((xemicsExp x).toNat : ℤ) - 129 := by
  have hfrac := (xemicsFrac x).isLt
  have hlead : Nat.log2 ((xemicsFrac x).toNat + 2 ^ 23) = 23 := (Nat.log2_eq_iff (by omega)).mpr (by omega)
  rw [abs_xemicsValue, log_two_natCast_mul (by omega), hlead]
  omega

theorem abs_xemicsValue_pos (x : Word) : 0 < |xemicsValue x| := by
  rw [abs_xemicsValue]
  positivity

/-- The least word has all fields 0 but the implicit bit (R107). -/
theorem two_zpow_le_abs_xemicsValue (x : Word) : (2 : ℚ) ^ (-129 : ℤ) ≤ |xemicsValue x| := by
  rw [two_zpow_le_iff (abs_xemicsValue_pos x), log_abs_xemicsValue]
  omega

/-- The greatest word has both fields all ones (R107). -/
theorem abs_xemicsValue_le (x : Word) : |xemicsValue x| ≤ (2 ^ 24 - 1) * 2 ^ 103 := by
  have hfrac := (xemicsFrac x).isLt
  have hexp := (xemicsExp x).isLt
  have hm : (((xemicsFrac x).toNat + 2 ^ 23 : ℕ) : ℚ) ≤ 2 ^ 24 - 1 := by
    rw [le_sub_iff_add_le]
    exact_mod_cast (show (xemicsFrac x).toNat + 2 ^ 23 + 1 ≤ 2 ^ 24 by omega)
  have hp : (2 : ℚ) ^ (((xemicsExp x).toNat : ℤ) - 128 - 24) ≤ 2 ^ 103 := by
    rw [← zpow_natCast]
    exact zpow_le_zpow_right₀ one_le_two (by omega)
  rw [abs_xemicsValue]
  exact mul_le_mul hm hp (by positivity) (by norm_num)

/-- Bit 23 is the sign and nothing else (R107). -/
theorem xemicsValue_flip (x : Word) : xemicsValue (x ^^^ 0x00800000) = -xemicsValue x := by
  have hexp : xemicsExp (x ^^^ 0x00800000) = xemicsExp x := by
    rw [xemicsExp, BitVec.extractLsb'_xor]
    exact BitVec.xor_zero
  have hfrac : xemicsFrac (x ^^^ 0x00800000) = xemicsFrac x := by
    rw [xemicsFrac, BitVec.extractLsb'_xor]
    exact BitVec.xor_zero
  have hsign : xemicsSign (x ^^^ 0x00800000) = !xemicsSign x := by
    rw [xemicsSign, BitVec.getLsbD_xor]
    exact Bool.xor_true _
  rw [xemicsValue, xemicsValue, hexp, hfrac, hsign]
  cases xemicsSign x
  · simp only [Bool.not_false, ↓reduceIte, Bool.false_eq_true, one_mul, neg_mul]
  · simp only [Bool.not_true, ↓reduceIte, Bool.false_eq_true, one_mul, neg_mul, neg_neg]

/-- The sign of the value is the sign bit, its power of two the exponent, and what is left the fraction (R107). -/
theorem xemicsValue_injective {x y : Word} (h : xemicsValue x = xemicsValue y) : x = y := by
  have hsign : xemicsSign x = xemicsSign y := by
    rw [Bool.eq_iff_iff, ← xemicsValue_lt_zero_iff, ← xemicsValue_lt_zero_iff, h]
  have hexp : (xemicsExp x).toNat = (xemicsExp y).toNat := by
    have hlog := congrArg (fun v : ℚ => Int.log 2 |v|) h
    simp only [log_abs_xemicsValue] at hlog
    omega
  have hfrac : (xemicsFrac x).toNat = (xemicsFrac y).toNat := by
    have habs := congrArg abs h
    rw [abs_xemicsValue, abs_xemicsValue, hexp, mul_left_inj' (by positivity), Nat.cast_inj] at habs
    omega
  rw [← xemicsWord_fields x, hsign, hexp, hfrac, xemicsWord_fields]

/-- Settles O16: the bounds, the sign and the one-to-one law, each a lemma above. -/
theorem xemicsValueLaws : Obligations.XemicsValueLaws :=
  ⟨fun x => ⟨abs_pos.mp (abs_xemicsValue_pos x), two_zpow_le_abs_xemicsValue x, abs_xemicsValue_le x⟩,
    xemicsValue_flip, fun _ _ => xemicsValue_injective⟩

end Sys2Proof.Machine
end

section
/-! PROOFS of the family 41_xemics.md, XENC: the exact steps of the model are those of the formula on rationals (R109,
R114); its bit form; the magnitudes it encodes (R108, R111); and the value its word decodes to (R112, R113). -/
namespace Sys2Proof.Machine

/-! ## The value of a binary64 pattern (30_encoding.md R78) -/

theorem abs_f64Value (d : DWord) : |f64Value d| = (f64Num d : ℚ) * (2 : ℚ) ^ f64Pow d := by
  rw [f64Value, mul_assoc, abs_sign_mul, abs_of_nonneg (by positivity)]

theorem f64Num_ne_zero {d : DWord} (hv : f64Value d ≠ 0) : f64Num d ≠ 0 := fun h => hv (by simp [f64Value, h])

theorem f64Value_lt_zero_iff {d : DWord} (hv : f64Value d ≠ 0) : f64Value d < 0 ↔ f64Sign d = true := by
  have hpos : 0 < |f64Value d| := abs_pos.mpr hv
  rw [abs_f64Value] at hpos
  rw [f64Value, mul_assoc]
  exact sign_mul_lt_zero_iff _ hpos

theorem f64Value_ne_zero {d : DWord} (h : ¬ (f64Exp d = 0 ∧ f64Frac d = 0)) : f64Value d ≠ 0 := by
  have hnum : f64Num d ≠ 0 := by
    rw [f64Num]
    split <;> omega
  rw [← abs_pos, abs_f64Value]
  positivity

/-- A number is its sign and its magnitude. -/
theorem sign_mul_abs (v : ℚ) : (if v < 0 then -1 else 1) * |v| = v := by
  split
  · rw [abs_of_neg ‹_›, neg_one_mul, neg_neg]
  · rw [abs_of_nonneg (not_lt.mp ‹_›), one_mul]

/-- A subnormal lacks the implicit bit (R111). -/
theorem abs_f64Value_of_subnormal {d : DWord} (h : f64Exp d = 0) : |f64Value d| < (2 : ℚ) ^ (-1022 : ℤ) := by
  have hfrac : (f64Frac d : ℚ) < 2 ^ 52 := by exact_mod_cast f64Frac_lt d
  rw [abs_f64Value, f64Num, if_pos h, f64Pow, if_pos h, show (-1022 : ℤ) = (52 : ℕ) + -1074 from rfl,
    zpow_add₀ two_ne_zero, zpow_natCast]
  gcongr

theorem log_abs_f64Value_of_normal {d : DWord} (h : f64Exp d ≠ 0) : Int.log 2 |f64Value d| = (f64Exp d : ℤ) - 1023 := by
  have hfrac := f64Frac_lt d
  have hlead : Nat.log2 (2 ^ 52 + f64Frac d) = 52 := (Nat.log2_eq_iff (by omega)).mpr (by omega)
  rw [abs_f64Value, f64Num, if_neg h, f64Pow, if_neg h, log_two_natCast_mul (by omega), hlead]
  omega

/-! ## The model's exact steps, on rationals (R114) -/

theorem floorScaled_eq_floor (n : Nat) (p : ℤ) : floorScaled n p = ⌊(n : ℚ) * (2 : ℚ) ^ p⌋.toNat := by
  rw [floorScaled]
  split
  case isTrue hp =>
    lift p to ℕ using hp
    rw [Int.toNat_natCast, zpow_natCast, Int.floor_toNat]
    exact_mod_cast (Nat.floor_natCast (R := ℚ) (n * 2 ^ p)).symm
  case isFalse hp =>
    obtain ⟨j, rfl⟩ : ∃ j : ℕ, p = -j := ⟨(-p).toNat, by omega⟩
    rw [neg_neg, Int.toNat_natCast, zpow_neg, zpow_natCast, ← div_eq_mul_inv, Int.floor_toNat]
    exact_mod_cast (Nat.floor_div_eq_div (K := ℚ) n (2 ^ j)).symm

theorem gtOne_iff (n : Nat) (p : ℤ) : gtOne n p = true ↔ 1 < (n : ℚ) * (2 : ℚ) ^ p := by
  rw [gtOne]
  split
  case isTrue hp =>
    lift p to ℕ using hp
    rw [Int.toNat_natCast, zpow_natCast, decide_eq_true_iff]
    exact_mod_cast Iff.rfl
  case isFalse hp =>
    obtain ⟨j, rfl⟩ : ∃ j : ℕ, p = -j := ⟨(-p).toNat, by omega⟩
    rw [neg_neg, Int.toNat_natCast, zpow_neg, zpow_natCast, ← div_eq_mul_inv, one_lt_div (by positivity),
      decide_eq_true_iff]
    exact_mod_cast Iff.rfl

/-! ## The formula on rationals (R109) -/

/-- The exponent `e` of R109 for a magnitude `a`. -/
def formulaExp (a : ℚ) : ℤ := Int.log 2 a + if 1 < a then 1 else 0

/-- The mantissa `M` of R109 for a magnitude `a`, not yet masked. -/
def formulaMantissa (a : ℚ) : ℕ := ⌊a * (2 : ℚ) ^ (24 - formulaExp a)⌋.toNat

theorem xencExponent_eq_formulaExp {n : Nat} (hn : n ≠ 0) (p : ℤ) :
    xencExponent Config.xencExpRule n p = formulaExp ((n : ℚ) * (2 : ℚ) ^ p) := by
  rw [formulaExp, log_two_natCast_mul hn]
  exact congrArg (floorLog2 n p + ·) (if_congr (gtOne_iff n p) rfl rfl)

/-- The packed word: the mask and the two ORs put the fields side by side. -/
theorem packed_eq_xemicsWord (sign : Bool) (e m : Nat) :
    (if sign then BitVec.ofNat 32 (e <<< 24 ||| (m &&& 0x7FFFFF)) ||| 0x00800000#32
      else BitVec.ofNat 32 (e <<< 24 ||| (m &&& 0x7FFFFF)))
      = xemicsWord sign e (m % 2 ^ 23) := by
  have hmask : m &&& 0x7FFFFF = m % 2 ^ 23 := Nat.and_two_pow_sub_one_eq_mod m 23
  have hm : m % 2 ^ 23 < 2 ^ 23 := Nat.mod_lt _ (by decide)
  have hlow : m % 2 ^ 23 ||| 0x00800000 = m % 2 ^ 23 + 2 ^ 23 := by
    rw [Nat.or_comm, Nat.add_comm]
    exact (Nat.shiftLeft_add_eq_or_of_lt hm 1).symm
  rw [hmask, xemicsWord]
  cases sign
  · rw [if_neg Bool.false_ne_true, ← Nat.shiftLeft_add_eq_or_of_lt (by omega), Nat.shiftLeft_eq, Bool.toNat_false,
      Nat.zero_mul, Nat.add_zero]
  · rw [if_pos rfl, ← BitVec.ofNat_or, Nat.or_assoc, hlow, ← Nat.shiftLeft_add_eq_or_of_lt (by omega),
      Nat.shiftLeft_eq, Bool.toNat_true, Nat.one_mul, Nat.add_assoc]

theorem xenc_eq_formula {d : DWord} (hv : f64Value d ≠ 0) :
    xenc d =
      if formulaExp |f64Value d| + 128 < 0 ∨ 255 < formulaExp |f64Value d| + 128 then none
      else some (xemicsWord (f64Sign d) (formulaExp |f64Value d| + 128).toNat
        (formulaMantissa |f64Value d| % 2 ^ 23)) := by
  have hmant : formulaMantissa |f64Value d| = floorScaled (f64Num d) (f64Pow d + (24 - formulaExp |f64Value d|)) := by
    rw [floorScaled_eq_floor, formulaMantissa, zpow_add₀ two_ne_zero, ← mul_assoc, ← abs_f64Value]
  rw [hmant, ← packed_eq_xemicsWord, abs_f64Value, ← xencExponent_eq_formulaExp (f64Num_ne_zero hv)]
  rfl

/-! ## The magnitudes XENC encodes (R111) -/

theorem log_nonneg_of_one_lt {a : ℚ} (ha : 1 < a) : 0 ≤ Int.log 2 a := by
  rw [← two_zpow_le_iff (one_pos.trans ha), zpow_zero]
  exact ha.le

theorem log_nonpos_of_le_one {a : ℚ} (ha : 0 < a) (ha1 : a ≤ 1) : Int.log 2 a ≤ 0 := by
  rw [← Int.lt_add_one_iff, ← lt_two_zpow_iff ha]
  exact ha1.trans_lt (by norm_num)

theorem formulaExp_inRange_iff {a : ℚ} (ha : 0 < a) :
    ¬ (formulaExp a + 128 < 0 ∨ 255 < formulaExp a + 128) ↔ (2 : ℚ) ^ (-128 : ℤ) ≤ a ∧ a < 2 ^ 127 := by
  rw [two_zpow_le_iff ha, ← zpow_natCast, lt_two_zpow_iff ha, formulaExp]
  push_cast
  split
  case isTrue h =>
    have := log_nonneg_of_one_lt h
    omega
  case isFalse h =>
    have := log_nonpos_of_le_one ha (not_lt.mp h)
    omega

section
variable {d : DWord} (hv : f64Value d ≠ 0)
include hv

theorem xenc_eq_none (h : ¬ ((2 : ℚ) ^ (-128 : ℤ) ≤ |f64Value d| ∧ |f64Value d| < 2 ^ 127)) : xenc d = none := by
  rw [← formulaExp_inRange_iff (abs_pos.mpr hv), not_not] at h
  rw [xenc_eq_formula hv, if_pos h]

theorem xenc_eq_some (hlo : (2 : ℚ) ^ (-128 : ℤ) ≤ |f64Value d|) (hhi : |f64Value d| < 2 ^ 127) :
    xenc d = some (xemicsWord (f64Sign d) (formulaExp |f64Value d| + 128).toNat
      (formulaMantissa |f64Value d| % 2 ^ 23)) := by
  rw [xenc_eq_formula hv, if_neg ((formulaExp_inRange_iff (abs_pos.mpr hv)).mpr ⟨hlo, hhi⟩)]

theorem inRange_of_xenc_eq_some {w : Word} (h : xenc d = some w) :
    (2 : ℚ) ^ (-128 : ℤ) ≤ |f64Value d| ∧ |f64Value d| < 2 ^ 127 := by
  by_contra hr
  exact Option.some_ne_none w (h.symm.trans (xenc_eq_none hv hr))

end

/-! ## The bit form (R109) -/

theorem normal_of_two_zpow_le {d : DWord} (h : (2 : ℚ) ^ (-128 : ℤ) ≤ |f64Value d|) : f64Exp d ≠ 0 := fun hsub =>
  absurd (h.trans_lt (abs_f64Value_of_subnormal hsub)) (not_lt.mpr (zpow_le_zpow_right₀ one_le_two (by decide)))

theorem one_lt_abs_f64Value_iff {d : DWord} (h : f64Exp d ≠ 0) :
    1 < |f64Value d| ↔ 0 < (f64Exp d : ℤ) - 1023 ∨ ((f64Exp d : ℤ) - 1023 = 0 ∧ f64Frac d ≠ 0) := by
  have hlog := log_abs_f64Value_of_normal h
  have hpos : 0 < |f64Value d| := abs_pos.mpr (f64Value_ne_zero fun hz => h hz.1)
  obtain hk | hk | hk := lt_trichotomy ((f64Exp d : ℤ) - 1023) 0
  · have hlt : |f64Value d| < (2 : ℚ) ^ (0 : ℤ) := (lt_two_zpow_iff hpos 0).mpr (by omega)
    rw [zpow_zero] at hlt
    exact iff_of_false hlt.le.not_gt (by omega)
  · have hfrac : (2 : ℚ) ^ 52 < (2 ^ 52 + f64Frac d : ℕ) ↔ f64Frac d ≠ 0 := by
      norm_cast
      omega
    rw [abs_f64Value, f64Num, if_neg h, f64Pow, if_neg h, show (f64Exp d : ℤ) - 1075 = -(52 : ℕ) by omega, zpow_neg,
      zpow_natCast, ← div_eq_mul_inv, one_lt_div (by positivity), hfrac]
    omega
  · have hle : (2 : ℚ) ^ (1 : ℤ) ≤ |f64Value d| := (two_zpow_le_iff hpos 1).mpr (by omega)
    rw [zpow_one] at hle
    exact iff_of_true (one_lt_two.trans_le hle) (.inl hk)

/-- The mantissa is a shift of the significand, by what the exponent leaves of its 53 bits. -/
theorem formulaMantissa_of_normal {d : DWord} (h : f64Exp d ≠ 0) {j : Nat}
    (he : formulaExp |f64Value d| = (f64Exp d : ℤ) - 1051 + j) :
    formulaMantissa |f64Value d| = (2 ^ 52 + f64Frac d) >>> j := by
  rw [formulaMantissa, he, abs_f64Value, f64Num, if_neg h, f64Pow, if_neg h, mul_assoc, ← zpow_add₀ two_ne_zero,
    show (f64Exp d : ℤ) - 1075 + (24 - ((f64Exp d : ℤ) - 1051 + j)) = -j by omega, zpow_neg, zpow_natCast,
    ← div_eq_mul_inv, Int.floor_toNat, Nat.shiftRight_eq_div_pow]
  exact_mod_cast Nat.floor_div_eq_div (K := ℚ) (2 ^ 52 + f64Frac d) (2 ^ j)

/-- Settles O17: the formula with its floor(log2 a) named, and the two cases of its bit form. -/
theorem xencFollowsTheFormula : Obligations.XencFollowsTheFormula := by
  constructor
  · intro d k _ hv hlo hhi a e
    have he : formulaExp a = e := by rw [formulaExp, log_two_eq hlo hhi]
    have hsign : (f64Sign d).toNat * 2 ^ 23 = if f64Value d < 0 then 2 ^ 23 else 0 := by
      rw [if_congr (f64Value_lt_zero_iff hv) rfl rfl]
      cases f64Sign d <;> rfl
    rw [xenc_eq_formula hv, formulaMantissa, he, xemicsWord, hsign]
  · intro d w _ hv hw k gt1
    obtain ⟨hlo, hhi⟩ := inRange_of_xenc_eq_some hv hw
    have hnormal := normal_of_two_zpow_le hlo
    have hgt : 1 < |f64Value d| ↔ gt1 := one_lt_abs_f64Value_iff hnormal
    have hexp : formulaExp |f64Value d| = k + if gt1 then 1 else 0 := by
      rw [formulaExp, log_abs_f64Value_of_normal hnormal, if_congr hgt rfl rfl]
    rw [xenc_eq_some hv hlo hhi, Option.some_inj] at hw
    refine ⟨Nat.one_le_iff_ne_zero.mpr hnormal, fun h => ?_, fun h => ?_⟩
    · rw [if_pos h] at hexp
      rw [← hw, formulaMantissa_of_normal hnormal (j := 29) (by omega), hexp, xemicsWord]
    · rw [if_neg h] at hexp
      rw [← hw, formulaMantissa_of_normal hnormal (j := 28) (by omega), hexp, xemicsWord, add_zero]

/-! ## How XENC ends (R108, R111) -/

theorem f64Class_eq_finite_iff (d : DWord) :
    f64Class d = .finite ↔ f64Exp d ≠ 2047 ∧ ¬ (f64Exp d = 0 ∧ f64Frac d = 0) := by
  unfold f64Class
  split_ifs <;> simp [*]

theorem runXenc_of_not_finite {s : State} (h : f64Class (opa s) ≠ .finite) :
    runXenc s = raiseError .xemicsDomain s := by
  unfold runXenc
  cases hc : f64Class (opa s)
  case finite => exact absurd hc h
  all_goals rfl

theorem runXenc_of_none {s : State} (h : f64Class (opa s) = .finite) (hx : xenc (opa s) = none) :
    runXenc s = raiseError .xemicsRange s := by
  simp only [runXenc, h, hx]

theorem runXenc_of_some {s : State} (h : f64Class (opa s) = .finite) {w : Word} (hx : xenc (opa s) = some w) :
    runXenc s = endWithResult 0 w s := by
  simp only [runXenc, h, hx]

/-- An accepted command's error writes what R171 of 60_exceptions.md says, and OP. -/
theorem raiseError_acceptWord (op : BitVec 4) (code : ErrorCode) (s : State) :
    raiseError code (acceptWord op s) = { s with
      err := true, errcode := code, done := true, op := op, abortPending := false, reqOut := false, busy := false,
      irq := s.ie } := rfl

theorem exec_xenc_idle {s : State} (hb : s.busy = false) :
    exec .xenc s = .next (runXenc (acceptWord Instr.xenc.op s)) := by
  rw [exec, execXenc, submitWord_idle hb]

/-- Settles O18: the class decides DOMAIN, the magnitude RANGE. -/
theorem xencEndsByItsDomain : Obligations.XencEndsByItsDomain := by
  intro s hb d a
  have hclass : f64Class d = .finite ↔ _ := f64Class_eq_finite_iff d
  rw [exec_xenc_idle hb]
  refine ⟨fun h => ?_, fun hfin hzero hr => ?_, fun hfin hlo hhi => ?_, abs_f64Value_of_subnormal⟩
  · have hnot : f64Class d ≠ .finite := fun hc => h.elim (hclass.mp hc).1 (hclass.mp hc).2
    rw [runXenc_of_not_finite (s := acceptWord Instr.xenc.op s) hnot, raiseError_acceptWord]
    rfl
  · have hnone := xenc_eq_none (f64Value_ne_zero hzero) hr
    rw [runXenc_of_none (s := acceptWord Instr.xenc.op s) (hclass.mpr ⟨hfin, hzero⟩) hnone, raiseError_acceptWord]
    rfl
  · have hzero : ¬ (f64Exp d = 0 ∧ f64Frac d = 0) := fun hz => normal_of_two_zpow_le hlo hz.1
    have hw := xenc_eq_some (f64Value_ne_zero hzero) hlo hhi
    refine ⟨_, hw, ?_⟩
    rw [runXenc_of_some (s := acceptWord Instr.xenc.op s) (hclass.mpr ⟨hfin, hzero⟩) hw, endWithResult_acceptWord]
    rfl

/-! ## What the word decodes to (R112, R113) -/

theorem xemicsValue_xemicsWord (sign : Bool) {e f : Nat} (he : e < 2 ^ 8) (hf : f < 2 ^ 23) :
    xemicsValue (xemicsWord sign e f)
      = (if sign then -1 else 1) * (((f + 2 ^ 23 : ℕ) : ℚ) * (2 : ℚ) ^ ((e : ℤ) - 128 - 24)) := by
  rw [xemicsValue, xemicsSign_xemicsWord sign he hf, xemicsExp_xemicsWord sign he hf, xemicsFrac_xemicsWord sign he hf,
    mul_assoc]

/-- The word keeps the sign and the low 23 bits of the mantissa, and decoding puts the implicit bit above them. -/
theorem exists_xenc_value {d : DWord} (hlo : (2 : ℚ) ^ (-128 : ℤ) ≤ |f64Value d|) (hhi : |f64Value d| < 2 ^ 127) :
    ∃ w, xenc d = some w ∧ xemicsValue w
      = (if f64Value d < 0 then -1 else 1)
        * (((formulaMantissa |f64Value d| % 2 ^ 23 + 2 ^ 23 : ℕ) : ℚ)
          * (2 : ℚ) ^ (formulaExp |f64Value d| - 24)) := by
  have hpos : 0 < |f64Value d| := (zpow_pos two_pos _).trans_le hlo
  have hv := abs_pos.mp hpos
  have hr := (formulaExp_inRange_iff hpos).mpr ⟨hlo, hhi⟩
  refine ⟨_, xenc_eq_some hv hlo hhi, ?_⟩
  rw [xemicsValue_xemicsWord _ (by omega) (Nat.mod_lt _ (by decide)), if_congr (f64Value_lt_zero_iff hv) rfl rfl,
    Int.toNat_of_nonneg (by omega), add_sub_cancel_right]

/-- Scaled to a leading one at bit `j`, a magnitude has a floor of `j + 1` bits. -/
theorem floor_scaled_bounds {a : ℚ} {k : ℤ} (hlo : (2 : ℚ) ^ k ≤ a) (hhi : a < (2 : ℚ) ^ (k + 1)) (j : Nat) :
    2 ^ j ≤ ⌊a * (2 : ℚ) ^ ((j : ℤ) - k)⌋ ∧ ⌊a * (2 : ℚ) ^ ((j : ℤ) - k)⌋ < 2 ^ (j + 1) := by
  constructor
  · rw [Int.le_floor]
    calc ((2 ^ j : ℤ) : ℚ) = (2 : ℚ) ^ k * (2 : ℚ) ^ ((j : ℤ) - k) := by
          rw [← zpow_add₀ two_ne_zero, add_sub_cancel, zpow_natCast]
          norm_cast
      _ ≤ a * (2 : ℚ) ^ ((j : ℤ) - k) := by gcongr
  · rw [Int.floor_lt]
    calc a * (2 : ℚ) ^ ((j : ℤ) - k) < (2 : ℚ) ^ (k + 1) * (2 : ℚ) ^ ((j : ℤ) - k) := by gcongr
      _ = ((2 ^ (j + 1) : ℤ) : ℚ) := by
          rw [← zpow_add₀ two_ne_zero, show k + 1 + ((j : ℤ) - k) = ((j + 1 : ℕ) : ℤ) by push_cast; ring, zpow_natCast]
          norm_cast

/-- Truncation at a power of two drops less than that power. -/
theorem floor_scaled_error (a : ℚ) (i : ℤ) :
    |a - ⌊a * (2 : ℚ) ^ (-i)⌋ * (2 : ℚ) ^ i| < (2 : ℚ) ^ i := by
  have hback : a = a * (2 : ℚ) ^ (-i) * (2 : ℚ) ^ i := by
    rw [mul_assoc, ← zpow_add₀ two_ne_zero, neg_add_cancel, zpow_zero, mul_one]
  have hfract : a - ⌊a * (2 : ℚ) ^ (-i)⌋ * (2 : ℚ) ^ i = Int.fract (a * (2 : ℚ) ^ (-i)) * (2 : ℚ) ^ i := by
    nth_rw 1 [hback]
    rw [← sub_mul, Int.self_sub_floor]
  rw [hfract, abs_of_nonneg (mul_nonneg (Int.fract_nonneg _) (by positivity))]
  exact mul_lt_of_lt_one_left (by positivity) (Int.fract_lt_one _)

/-- A magnitude of at most 24 significant bits is whole at the scale of its own 24 bits, for otherwise it would lie
below its leading one. -/
theorem floor_scaled_exact {a : ℚ} {k : ℤ} (hlo : (2 : ℚ) ^ k ≤ a) {n : Nat} {m : ℤ} (hn : n < 2 ^ 24)
    (ha : a = n * (2 : ℚ) ^ m) : (⌊a * (2 : ℚ) ^ (-(k - 23))⌋ : ℚ) * (2 : ℚ) ^ (k - 23) = a := by
  have hm : k - 23 ≤ m := by
    by_contra hlt
    have hn' : (n : ℚ) < 2 ^ 24 := by exact_mod_cast hn
    have : a < (2 : ℚ) ^ k := calc
      a = n * (2 : ℚ) ^ m := ha
      _ < 2 ^ 24 * (2 : ℚ) ^ m := by gcongr
      _ = (2 : ℚ) ^ (m + 24) := by rw [add_comm, zpow_add₀ two_ne_zero]; norm_cast
      _ ≤ (2 : ℚ) ^ k := zpow_le_zpow_right₀ one_le_two (by omega)
    exact absurd hlo (not_le.mpr this)
  obtain ⟨j, hj⟩ : ∃ j : ℕ, m - (k - 23) = j := ⟨(m - (k - 23)).toNat, by omega⟩
  have hwhole : a * (2 : ℚ) ^ (-(k - 23)) = ((n * 2 ^ j : ℕ) : ℚ) := by
    rw [ha, mul_assoc, ← zpow_add₀ two_ne_zero, ← sub_eq_add_neg, hj, zpow_natCast]
    push_cast
    rfl
  rw [hwhole, Int.floor_natCast, Int.cast_natCast, ← hwhole, mul_assoc, ← zpow_add₀ two_ne_zero, neg_add_cancel,
    zpow_zero, mul_one]

/-- Above 1 the implicit bit is the mantissa's own leading one, so decoding gives the truncation (R112). -/
theorem exists_xenc_truncation {d : DWord} {k : ℤ} (h1 : 1 < |f64Value d|) (hmax : |f64Value d| < 2 ^ 127)
    (hlo : (2 : ℚ) ^ k ≤ |f64Value d|) (hhi : |f64Value d| < (2 : ℚ) ^ (k + 1)) :
    ∃ w, xenc d = some w ∧ xemicsValue w
      = (if f64Value d < 0 then -1 else 1)
        * ((⌊|f64Value d| * (2 : ℚ) ^ (-(k - 23))⌋ : ℚ) * (2 : ℚ) ^ (k - 23)) := by
  have hmin : (2 : ℚ) ^ (-128 : ℤ) ≤ |f64Value d| := 
    (zpow_le_one_of_nonpos₀ one_le_two (by decide)).trans h1.le
  obtain ⟨w, hw, hval⟩ := exists_xenc_value hmin hmax
  have hexp : formulaExp |f64Value d| = k + 1 := by rw [formulaExp, log_two_eq hlo hhi, if_pos h1]
  have hbits := floor_scaled_bounds hlo hhi 23
  rw [show ((23 : ℕ) : ℤ) - k = -(k - 23) by push_cast; ring] at hbits
  refine ⟨w, hw, ?_⟩
  rw [hval, formulaMantissa, hexp, show 24 - (k + 1) = -(k - 23) by ring, show k + 1 - 24 = k - 23 by ring]
  obtain ⟨m, hm⟩ := Int.eq_ofNat_of_zero_le ((by positivity : (0 : ℤ) ≤ 2 ^ 23).trans hbits.1)
  rw [hm] at hbits ⊢
  rw [Int.toNat_natCast, Int.cast_natCast, show m % 2 ^ 23 + 2 ^ 23 = m by omega]

/-- Settles O19: the word decodes to the magnitude's floor at 24 bits, with the sign. -/
theorem xencRoundTripAboveOne : Obligations.XencRoundTripAboveOne := by
  intro d k _ h1 hmax hlo hhi
  obtain ⟨w, hw, hval⟩ := exists_xenc_truncation h1 hmax hlo hhi
  refine ⟨w, hw, ?_, ?_, ?_, ?_⟩
  · rw [hval, neg_sub, mul_assoc]
  · nth_rw 1 [← sign_mul_abs (f64Value d)]
    rw [hval, ← mul_sub, abs_sign_mul]
    exact floor_scaled_error _ _
  · calc (2 : ℚ) ^ (k - 23) = (2 : ℚ) ^ k * (2 : ℚ) ^ (-23 : ℤ) := by rw [← zpow_add₀ two_ne_zero, sub_eq_add_neg]
      _ ≤ |f64Value d| * (2 : ℚ) ^ (-23 : ℤ) := by gcongr
  · rintro ⟨n, m, hn, hnm⟩
    have habs : |f64Value d| = (n.natAbs : ℚ) * (2 : ℚ) ^ m := by
      rw [hnm, abs_mul, abs_of_pos (zpow_pos two_pos m : (0 : ℚ) < 2 ^ m), Nat.cast_natAbs, Int.cast_abs]
    have hbits : n.natAbs < 2 ^ 24 := by
      rw [Int.abs_eq_natAbs] at hn
      omega
    rw [hval, floor_scaled_exact hlo hbits habs, sign_mul_abs]

/-- Up to 1 the mantissa has 25 bits, of which the mask drops two and decoding restores one (R113). -/
theorem exists_xenc_anomaly {d : DWord} {k : ℤ} (hmin : (2 : ℚ) ^ (-128 : ℤ) ≤ |f64Value d|) (h1 : |f64Value d| ≤ 1)
    (hlo : (2 : ℚ) ^ k ≤ |f64Value d|) (hhi : |f64Value d| < (2 : ℚ) ^ (k + 1)) :
    ∃ w, xenc d = some w ∧ xemicsValue w
      = (if f64Value d < 0 then -1 else 1)
        * ((2 ^ 23 + ((⌊|f64Value d| * (2 : ℚ) ^ (24 - k)⌋ % 2 ^ 23 : ℤ) : ℚ)) * (2 : ℚ) ^ (k - 24)) := by
  obtain ⟨w, hw, hval⟩ := exists_xenc_value hmin (h1.trans_lt (by norm_num))
  have hexp : formulaExp |f64Value d| = k := by
    rw [formulaExp, log_two_eq hlo hhi, if_neg (not_lt.mpr h1), add_zero]
  obtain ⟨m, hm⟩ := Int.eq_ofNat_of_zero_le
    (Int.floor_nonneg.mpr (by positivity) : 0 ≤ ⌊|f64Value d| * (2 : ℚ) ^ (24 - k)⌋)
  have hcast : ((m % 2 ^ 23 + 2 ^ 23 : ℕ) : ℚ) = 2 ^ 23 + (((m : ℤ) % 2 ^ 23 : ℤ) : ℚ) := by
    rw [Nat.add_comm]
    norm_cast
  refine ⟨w, hw, ?_⟩
  rw [hval, formulaMantissa, hexp, hm, Int.toNat_natCast, hcast]

/-- One implicit bit above 23 bits: the leading one is at bit 23. -/
theorem implicit_bit_bounds (m k : ℤ) :
    (2 : ℚ) ^ (k - 1) ≤ (2 ^ 23 + ((m % 2 ^ 23 : ℤ) : ℚ)) * (2 : ℚ) ^ (k - 24)
      ∧ (2 ^ 23 + ((m % 2 ^ 23 : ℤ) : ℚ)) * (2 : ℚ) ^ (k - 24) < (2 : ℚ) ^ k := by
  have hnonneg : (0 : ℚ) ≤ (m % 2 ^ 23 : ℤ) := by exact_mod_cast Int.emod_nonneg m (by decide)
  have hlt : ((m % 2 ^ 23 : ℤ) : ℚ) < 2 ^ 23 := by exact_mod_cast Int.emod_lt_of_pos m (by decide)
  have hlow : (2 : ℚ) ^ (k - 1) = 2 ^ 23 * (2 : ℚ) ^ (k - 24) := by
    rw [← zpow_natCast, ← zpow_add₀ two_ne_zero]
    congr 1
    push_cast
    ring
  have hhigh : (2 : ℚ) ^ k = 2 ^ 24 * (2 : ℚ) ^ (k - 24) := by
    rw [← zpow_natCast, ← zpow_add₀ two_ne_zero, Nat.cast_ofNat, add_sub_cancel]
  rw [hlow, hhigh]
  constructor <;> gcongr <;> linarith

/-- Settles O20: the decoded magnitude is one implicit bit above 23 bits at the scale `k - 24`; then the examples. -/
theorem xencAnomalyUpToOne : Obligations.XencAnomalyUpToOne := by
  refine ⟨fun d k _ hmin h1 hlo hhi => ?_, ⟨by decide, ?_⟩, ⟨by decide, ?_⟩, by decide, ?_⟩
  · obtain ⟨hm, hm'⟩ := floor_scaled_bounds hlo hhi 24
    obtain ⟨w, hw, hval⟩ := exists_xenc_anomaly hmin h1 hlo hhi
    obtain ⟨hge, hlt⟩ := implicit_bit_bounds ⌊|f64Value d| * (2 : ℚ) ^ (24 - k)⌋ k
    have hpos := (zpow_pos two_pos (k - 1)).trans_le hge
    have habs := congrArg abs hval
    rw [abs_sign_mul, abs_of_pos hpos] at habs
    refine ⟨hm, hm', w, hw, habs, habs ▸ hge, habs ▸ hlt, (habs ▸ hlt).trans_le hlo, ?_⟩
    rw [hval]
    exact sign_mul_lt_zero_iff _ hpos
  · rw [show (0x80000000 : Word) = xemicsWord false 0x80 0 from rfl,
      xemicsValue_xemicsWord _ (by decide) (by decide)]
    norm_num
  · rw [show (0x7F000000 : Word) = xemicsWord false 0x7F 0 from rfl,
      xemicsValue_xemicsWord _ (by decide) (by decide)]
    norm_num
  · rw [show (0x7E683E42 : Word) = xemicsWord false 0x7E 0x683E42 from rfl,
      xemicsValue_xemicsWord _ (by decide) (by decide)]
    norm_num

end Sys2Proof.Machine
end

section
/-! PROOFS of the family 42_calseq.md, positions: the frame and the request of each (R126, R127, R129, R134), and the
Block's own steps (R130, R136, R160). -/
namespace Sys2Proof.Machine

/-! ## The frame of a position (R134) -/

/-- The subcommand a phase sends, for the phases that send one and do not poll (42_calseq.md R134). -/
def subcommandCode (op : BitVec 4) : Phase → Option Half
  | .enCalen => some codeCalEnable
  | .enEnter => some codeEnterCal
  | .exExit => some codeExitCal
  | .exReset => some codeReset
  | .ofCmd => ofcode op
  | .ofSave => some codeCcOffsetSave
  | _ => none

/-- The code a frame of three requests sends: a subcommand's own, or that of the status poll (30_encoding.md R80). -/
def frameCode : Frame → Option Half
  | .subcommand k => some k
  | .statusPoll => some codeControlStatus
  | .unsealKey _ => none
  | .sleep _ => none

/-- How long a phase sleeps, for the phases that do (42_calseq.md R129, R134). -/
def sleepOf : Phase → Option Nat
  | .enWait | .exWait | .ofWait1 | .ofWait2 => some Config.pollWaitMs
  | .exSettle1 | .exSettle2 => some Config.settleMs
  | _ => none

section
variable {s : State}

theorem frameOf_of_subcommandCode {k : Half} (h : subcommandCode s.op s.phase = some k) :
    frameOf s = some (.subcommand k) := by
  unfold frameOf
  cases hp : s.phase <;> rw [hp] at h
  case ofCmd => exact congrArg (Option.map Frame.subcommand) h
  case enCalen | enEnter | exExit | exReset | ofSave => cases h; rfl
  all_goals cases h

theorem frameOf_of_pollPhase (h : pollPhase s.phase = true) : frameOf s = some .statusPoll := by
  unfold frameOf
  cases hp : s.phase <;> rw [hp] at h
  all_goals cases h

theorem frameOf_of_sleepOf {ms : Nat} (h : sleepOf s.phase = some ms) : frameOf s = some (.sleep ms) := by
  unfold frameOf
  cases hp : s.phase <;> rw [hp] at h <;> cases h <;> rfl

theorem frameOf_unseal1 (h : s.phase = .unseal1) : frameOf s = some (.unsealKey (key1 s.latKeys)) := by
  simp [frameOf, h]

theorem frameOf_unseal2 (h : s.phase = .unseal2) : frameOf s = some (.unsealKey (key2 s.latKeys)) := by
  simp [frameOf, h]

/-- A phase that is neither IDLE nor of three requests has a frame of one. -/
theorem exists_frameOf_of_one_request (hidle : s.phase ≠ .idle) (h3 : threeRequestPhase s.phase = false) :
    ∃ f, frameOf s = some f ∧ frameCode f = none := by
  unfold frameOf
  cases hp : s.phase <;> rw [hp] at h3
  case idle => exact absurd hp hidle
  case unseal1 | unseal2 | enWait | exWait | exSettle1 | exSettle2 | ofWait1 | ofWait2 => exact ⟨_, rfl, rfl⟩
  all_goals cases h3

/-- The frame of a phase of three requests has a code. -/
theorem exists_frameCode_of_threeRequestPhase {f : Frame} (hf : frameOf s = some f)
    (h3 : threeRequestPhase s.phase = true) : ∃ k, frameCode f = some k := by
  obtain ⟨q, hq⟩ := frameRequest_of_threeRequestPhase hf h3 .s2
  cases f with
  | subcommand | statusPoll => exact ⟨_, rfl⟩
  | unsealKey | sleep => cases hq

/-! ## The request of a position (R126, R127, R129) -/

theorem currentRequest_of_frameOf_eq {f : Frame} (hf : frameOf s = some f) :
    currentRequest s = frameRequest f s.sub := by rw [currentRequest, hf]

/-- A position with a request has a frame. -/
theorem exists_frameOf_of_currentRequest {q : Request} (h : currentRequest s = some q) : ∃ f, frameOf s = some f := by
  unfold currentRequest at h
  cases hf : frameOf s with
  | none => simp [hf] at h
  | some f => exact ⟨f, rfl⟩

theorem frameRequest_of_frameCode {f : Frame} {k : Half} (h : frameCode f = some k) (b : SubStep) :
    frameRequest f b = some (subcommandRequest k b) := by
  cases f with
  | subcommand | statusPoll => cases h; rfl
  | unsealKey | sleep => cases h

theorem lowByte_key1 (k : Word) : lowByte (key1 k) = k.extractLsb' 0 8 :=
  BitVec.extractLsb'_extractLsb'_of_le (by decide)

theorem highByte_key1 (k : Word) : highByte (key1 k) = k.extractLsb' 8 8 :=
  BitVec.extractLsb'_extractLsb'_of_le (by decide)

theorem lowByte_key2 (k : Word) : lowByte (key2 k) = k.extractLsb' 16 8 := by
  ext i hi
  simp [lowByte, key2, show i < 16 by omega]

theorem highByte_key2 (k : Word) : highByte (key2 k) = k.extractLsb' 24 8 := by
  ext i hi
  simp [highByte, key2, show 8 + i < 16 by omega, ← Nat.add_assoc]

theorem currentRequest_unseal1 (hp : s.phase = .unseal1) (hb : s.sub = .s0) : currentRequest s
    = some (.write 0x55 [0x00, s.latKeys.extractLsb' 0 8, s.latKeys.extractLsb' 8 8]) := by
  rw [currentRequest_of_frameOf_eq (frameOf_unseal1 hp), hb, frameRequest, lowByte_key1, highByte_key1]
  rfl

theorem currentRequest_unseal2 (hp : s.phase = .unseal2) (hb : s.sub = .s0) : currentRequest s
    = some (.write 0x55 [0x00, s.latKeys.extractLsb' 16 8, s.latKeys.extractLsb' 24 8]) := by
  rw [currentRequest_of_frameOf_eq (frameOf_unseal2 hp), hb, frameRequest, lowByte_key2, highByte_key2]
  rfl

theorem currentRequest_of_sleepOf {ms : Nat} (h : sleepOf s.phase = some ms) (hb : s.sub = .s0) :
    currentRequest s = some (.sleep ms) := by
  rw [currentRequest_of_frameOf_eq (frameOf_of_sleepOf h), hb, frameRequest]

/-- The three requests of a subcommand below 0x100, by SUB (30_encoding.md R80). -/
theorem currentRequest_of_frameCode {f : Frame} {b : Byte} (hf : frameOf s = some f)
    (hk : frameCode f = some (b.setWidth 16)) :
    (s.sub = .s0 → currentRequest s = some (.write 0x55 [0x00, b, 0x00]))
      ∧ (s.sub = .s1 → currentRequest s = some (.write 0x55 [0x00]))
      ∧ (s.sub = .s2 → currentRequest s = some (.read 0x55 2)) := by
  have hreq := (currentRequest_of_frameOf_eq hf).trans (frameRequest_of_frameCode hk s.sub)
  have hlow : lowByte (b.setWidth 16) = b := by
    ext i hi
    simp [lowByte, show i < 16 by omega, BitVec.getLsbD_eq_getElem hi]
  have hhigh : highByte (b.setWidth 16) = 0x00 := by
    ext i hi
    simp [highByte]
  refine ⟨fun hb => ?_, fun hb => ?_, fun hb => ?_⟩ <;> rw [hreq, hb, subcommandRequest]
  · rw [hlow, hhigh]
    rfl
  · rfl
  · rfl

end

/-- Settles O23: the frame of each phase, and the request of the frame at the sub-step. -/
theorem requestsOfThePositions : Obligations.RequestsOfThePositions := by
  intro s
  refine ⟨currentRequest_unseal1, currentRequest_unseal2, fun c hc hp => ?_, fun c hc hp => ?_, fun c hc hp hop => ?_⟩
  · have hsleep : ∀ c ∈ [(Phase.enWait, 1000), (Phase.exWait, 1000), (Phase.ofWait1, 1000), (Phase.ofWait2, 1000),
        (Phase.exSettle1, 150), (Phase.exSettle2, 150)], sleepOf c.1 = some c.2 := by decide
    exact currentRequest_of_sleepOf (hp ▸ hsleep c hc)
  · have hcode : ∀ c ∈ [(Phase.enCalen, (0x2D : Byte)), (Phase.enEnter, 0x81), (Phase.enPoll, 0x00),
        (Phase.exExit, 0x80), (Phase.exPoll, 0x00), (Phase.exReset, 0x41), (Phase.ofPoll1, 0x00),
        (Phase.ofPoll2, 0x00), (Phase.ofSave, 0x0B)],
        subcommandCode s.op c.1 = some (c.2.setWidth 16) ∨ (pollPhase c.1 = true ∧ c.2 = 0x00) := by
      simp only [List.forall_mem_cons]
      exact ⟨.inl rfl, .inl rfl, .inr ⟨rfl, trivial⟩, .inl rfl, .inr ⟨rfl, trivial⟩, .inl rfl, .inr ⟨rfl, trivial⟩,
        .inr ⟨rfl, trivial⟩, .inl rfl, List.forall_mem_nil _⟩
    obtain hk | ⟨hpoll, hzero⟩ := hcode c hc
    · exact currentRequest_of_frameCode (frameOf_of_subcommandCode (hp ▸ hk)) rfl
    · rw [hzero]
      exact currentRequest_of_frameCode (frameOf_of_pollPhase (hp ▸ hpoll)) rfl
  · have hcode : ∀ c ∈ [((0xA : BitVec 4), (0x0A : Byte)), (0xB, 0x09)],
        subcommandCode c.1 .ofCmd = some (c.2.setWidth 16) := by
      simp only [List.forall_mem_cons]
      exact ⟨rfl, rfl, List.forall_mem_nil _⟩
    exact currentRequest_of_frameCode (frameOf_of_subcommandCode (hp ▸ hop ▸ hcode c hc)) rfl

/-! ## The Block's own steps (R130, R136) -/

section
variable {s : State} {rest : List Turn}

theorem step_block (hs : s.schedule = .block :: rest) : step s = blockTurn (withSchedule rest s) := step_cons hs

theorem blockTurn_issue {q : Request} (hb : s.busy = true) (hr : s.reqOut = false) (ha : s.abortPending = false)
    (hq : currentRequest s = some q) : blockTurn s = .next (sendRequest q s) := by
  simp [blockTurn, issueStep, ofPosition, hb, hr, ha, hq]

theorem blockTurn_abort (hb : s.busy = true) (hr : s.reqOut = false) (ha : s.abortPending = true) :
    blockTurn s = .next (abortStep s) := by simp [blockTurn, hb, hr, ha]

theorem blockTurn_outstanding (hr : s.reqOut = true) : blockTurn s = .next s := by simp [blockTurn, hr]

end

/-- Settles O24: the issue step on the Block's turn, and as the move with no turn left. -/
theorem issueStepSendsTheRequest : Obligations.IssueStepSendsTheRequest := by
  intro s q hb hr ha hq
  refine ⟨fun hs => ?_, fun rest hs => ?_⟩
  · rw [step_nil hs, blockTurn_issue hb hr ha hq]
    rfl
  · rw [step_block hs, blockTurn_issue (s := withSchedule rest s) hb hr ha hq]
    rfl

/-- Settles O25: the abort step is `raiseError` with ABORTED; with a request outstanding the Block has no step. -/
theorem abortStepOnlyBetweenRequests : Obligations.AbortStepOnlyBetweenRequests := by
  refine ⟨fun s rest hb hr ha hs => ?_, fun s rest hr hs => ?_⟩
  · rw [step_block hs, blockTurn_abort (s := withSchedule rest s) hb hr ha]
    rfl
  · rw [step_block hs, blockTurn_outstanding (s := withSchedule rest s) hr]
    rfl

theorem exec_abort (s : State) : exec .abort s = .next (if s.busy then markAbort s else s) := rfl

/-- Settles O22: ABORT's meaning by BUSY. -/
theorem abortSetsAbortPending : Obligations.AbortSetsAbortPending := by
  refine ⟨fun s hb => ?_, fun s hb => ?_⟩
  · rw [exec_abort, if_pos hb]
    rfl
  · rw [exec_abort, if_neg (by simp [hb])]

end Sys2Proof.Machine
end

section
/-! PROOFS of the family 42_calseq.md, the transition rows: a response that fits moves SUB on or ends the phase (R126,
R130), and what the end of a phase does, by the phase (R135, R138). -/
namespace Sys2Proof.Machine

/-! ## The predicates on a status word (30_encoding.md R79) -/

theorem and_twoPow_bne_zero (v : Half) {i : Nat} (hi : i < 16) : (v &&& BitVec.twoPow 16 i != 0) = v.getLsbD i := by
  have hne : BitVec.twoPow 16 i ≠ 0 := fun h => by simpa [hi] using congrArg (BitVec.getLsbD · i) h
  rw [BitVec.and_twoPow]
  cases v.getLsbD i
  · rfl
  · exact bne_iff_ne.2 hne

theorem calen_eq (v : Half) : calen v = v.getLsbD 12 := and_twoPow_bne_zero v (i := 12) (by decide)

theorem cca_eq (v : Half) : cca v = v.getLsbD 11 := and_twoPow_bne_zero v (i := 11) (by decide)

theorem offs_eq (v : Half) : offs v = (v.getLsbD 11 || v.getLsbD 10) := by
  have hmask : (0x0C00 : Half) = BitVec.twoPow 16 11 ||| BitVec.twoPow 16 10 := by decide
  have hor (a b : Half) : (a ||| b != 0) = (a != 0 || b != 0) := by
    rw [Bool.eq_iff_iff]
    simp [BitVec.or_eq_zero_iff, -not_and, not_and_or]
  rw [offs, hmask, BitVec.and_or_distrib_left, hor, and_twoPow_bne_zero v (by decide),
    and_twoPow_bne_zero v (by decide)]

/-- What CAL_CC_OFFSET and CAL_BOARD_OFFSET wait for to be set (42_calseq.md R133). -/
theorem offsetActive_of_set {op : BitVec 4} {v : Half}
    (h : (op = 0xA ∧ v.getLsbD 11 = true) ∨ (op = 0xB ∧ (v.getLsbD 11 = true ∨ v.getLsbD 10 = true))) :
    offsetActive op v = some true := by
  obtain ⟨rfl, h11⟩ | ⟨rfl, hset⟩ := h
  · exact congrArg some ((cca_eq v).trans h11)
  · exact congrArg some ((offs_eq v).trans (by rwa [Bool.or_eq_true]))

/-- The same, clear. -/
theorem offsetActive_of_clear {op : BitVec 4} {v : Half}
    (h : (op = 0xA ∧ v.getLsbD 11 = false) ∨ (op = 0xB ∧ v.getLsbD 11 = false ∧ v.getLsbD 10 = false)) :
    offsetActive op v = some false := by
  obtain ⟨rfl, h11⟩ | ⟨rfl, hclear⟩ := h
  · exact congrArg some ((cca_eq v).trans h11)
  · exact congrArg some ((offs_eq v).trans (by rwa [Bool.or_eq_false_iff]))

/-! ## The end of a phase (R135) -/

/-- The next phase, where the table of 42_calseq.md R135 has one row for the phase that does nothing else. -/
def straightNext : Phase → Option Phase
  | .unseal1 => some .unseal2
  | .unseal2 => some .enCalen
  | .enCalen => some .enEnter
  | .enEnter => some .enWait
  | .enWait => some .enPoll
  | .exExit => some .exWait
  | .exWait => some .exPoll
  | .exSettle1 => some .exReset
  | .exReset => some .exSettle2
  | .ofCmd => some .ofWait1
  | .ofWait1 => some .ofPoll1
  | .ofWait2 => some .ofPoll2
  | _ => none

section
variable {s : State}

theorem phaseDone_straight {p : Phase} (h : straightNext s.phase = some p) : phaseDone s = some (goto p s) := by
  unfold phaseDone
  cases hp : s.phase <;> rw [hp] at h <;> cases h <;> rfl

theorem phaseDone_exSettle2 (hp : s.phase = .exSettle2) : phaseDone s = some (completeSequence s) := by
  simp [phaseDone, hp]

theorem phaseDone_ofSave (hp : s.phase = .ofSave) : phaseDone s = some (enterLoop .exExit s) := by
  simp [phaseDone, hp]

theorem phaseDone_enPoll_calEnter (hp : s.phase = .enPoll) (hop : s.op = 0x8) (hv : s.rspVal.getLsbD 12 = true) :
    phaseDone s = some (completeSequence s) := by
  simp [phaseDone, enPollSeen, Instr.op, hp, hop, calen_eq, hv]

theorem phaseDone_enPoll_offset (hp : s.phase = .enPoll) (hop : s.op = 0xA ∨ s.op = 0xB)
    (hv : s.rspVal.getLsbD 12 = true) : phaseDone s = some (enterLoop .ofCmd s) := by
  obtain hop | hop := hop <;> simp [phaseDone, enPollSeen, Instr.op, hp, hop, calen_eq, hv]

theorem phaseDone_enPoll_failed (hp : s.phase = .enPoll) (hv : s.rspVal.getLsbD 12 = false) :
    phaseDone s = some (failPoll .enCalen s) := by simp only [phaseDone, hp, calen_eq, hv, Bool.false_eq_true, if_false]

theorem phaseDone_exPoll_met (hp : s.phase = .exPoll) (hv : s.rspVal.getLsbD 12 = false) :
    phaseDone s = some (goto .exSettle1 s) := by simp only [phaseDone, hp, calen_eq, hv, Bool.false_eq_true, if_false]

theorem phaseDone_exPoll_failed (hp : s.phase = .exPoll) (hv : s.rspVal.getLsbD 12 = true) :
    phaseDone s = some (failPoll .exExit s) := by simp only [phaseDone, hp, calen_eq, hv, if_true]

theorem phaseDone_ofPoll1_met (hp : s.phase = .ofPoll1) (hv : offsetActive s.op s.rspVal = some true) :
    phaseDone s = some (enterLoop .ofWait2 s) := by simp [phaseDone, hp, hv]

theorem phaseDone_ofPoll1_failed (hp : s.phase = .ofPoll1) (hv : offsetActive s.op s.rspVal = some false) :
    phaseDone s = some (failPoll .ofCmd s) := by simp [phaseDone, hp, hv]

theorem phaseDone_ofPoll2_met (hp : s.phase = .ofPoll2) (hv : offsetActive s.op s.rspVal = some false) :
    phaseDone s = some (goto .ofSave s) := by simp [phaseDone, hp, hv]

theorem phaseDone_ofPoll2_failed (hp : s.phase = .ofPoll2) (hv : offsetActive s.op s.rspVal = some true) :
    phaseDone s = some (failPoll .ofWait2 s) := by simp [phaseDone, hp, hv]

/-! ## The failed-poll step (R138) -/

theorem bumpLoopcnt_toNat (n : Half) : (bumpLoopcnt n).toNat = min (n.toNat + 1) 0xFFFF := by
  rw [bumpLoopcnt, BitVec.toNat_ofNat, Nat.mod_eq_of_lt (by omega)]

theorem failPoll_at_bound {p : Phase} (h0 : s.latMaxpoll.toNat ≠ 0)
    (hn : s.latMaxpoll.toNat ≤ min (s.loopcnt.toNat + 1) 0xFFFF) :
    failPoll p s = raiseError .calTimeout (setLoopcnt (bumpLoopcnt s.loopcnt) s) := by
  refine if_pos ⟨fun h => h0 (by rw [h]; rfl), ?_⟩
  rwa [BitVec.le_def, bumpLoopcnt_toNat]

theorem failPoll_below_bound {p : Phase}
    (h : s.latMaxpoll.toNat = 0 ∨ min (s.loopcnt.toNat + 1) 0xFFFF < s.latMaxpoll.toNat) :
    failPoll p s = goto p (setLoopcnt (bumpLoopcnt s.loopcnt) s) := by
  refine if_neg fun ⟨h0, hn⟩ => ?_
  rw [BitVec.le_def, bumpLoopcnt_toNat] at hn
  obtain h | h := h
  · exact h0 (BitVec.eq_of_toNat_eq h)
  · omega

/-! ## The response step (R126, R130) -/

/-- What a response that fits brings: a READ's goes to `rsp_val` (42_calseq.md R126). -/
def received : Response → State → State
  | .okData b0 b1, s => saveResponse b0 b1 s
  | _, s => s

theorem received_ok (s : State) : received .ok s = s := rfl

theorem received_okData (b0 b1 : Byte) (s : State) : received (.okData b0 b1) s = saveResponse b0 b1 s := rfl

/-- The state of a response step before the position moves: the turn is taken and the request answered. -/
def answered (rest : List Turn) (s : State) : State := { s with schedule := rest, reqOut := false }

/-- The same after a READ's response. -/
def wordRead (v : Half) (rest : List Turn) (s : State) : State :=
  { s with schedule := rest, reqOut := false, rspVal := v }

/-- The same after the READ's response of a status poll, which CSW takes (42_calseq.md R128). -/
def statusRead (v : Half) (rest : List Turn) (s : State) : State :=
  { s with schedule := rest, reqOut := false, rspVal := v, csw := v }

theorem saveResponse_answered (b0 b1 : Byte) (rest : List Turn) (s : State) :
    saveResponse b0 b1 (answered rest s) = wordRead (b1 ++ b0 : BitVec 16) rest s := rfl

theorem saveStatus_wordRead (v : Half) (rest : List Turn) (s : State) :
    saveStatus (wordRead v rest s) = statusRead v rest s := rfl

theorem responseStep_of_fits {f : Frame} {q : Request} {r : Response} (hf : frameOf s = some f)
    (hq : currentRequest s = some q) (hfit : fits q r = true) :
    responseStep r s = ofPosition (afterOk f (received r (clearRequest s))) := by
  rw [responseStep, hf, hq]
  cases q <;> cases r
  case write.ok | sleep.ok | read.okData => rfl
  all_goals cases hfit

theorem fits_subcommandRequest_ok (k : Half) {b : SubStep} (hb : b ≠ .s2) :
    fits (subcommandRequest k b) .ok = true := by
  cases b with
  | s0 | s1 => rfl
  | s2 => exact absurd rfl hb

/-- The only request of a frame of one is answered `ok`. -/
theorem exists_frameRequest_of_one_request {f : Frame} (h : frameCode f = none) :
    ∃ q, frameRequest f .s0 = some q ∧ fits q .ok = true := by
  cases f with
  | subcommand | statusPoll => cases h
  | unsealKey | sleep => exact ⟨_, rfl, rfl⟩

theorem afterOk_of_one_request {f : Frame} (h : frameCode f = none) (s : State) : afterOk f s = phaseDone s := by
  cases f with
  | subcommand | statusPoll => cases h
  | unsealKey | sleep => rfl

theorem afterOk_s0 {f : Frame} {k : Half} (hk : frameCode f = some k) (hb : s.sub = .s0) :
    afterOk f s = some (moveSub .s1 s) := by
  cases f with
  | subcommand | statusPoll => simp [afterOk, hb]
  | unsealKey | sleep => cases hk

theorem afterOk_s1 {f : Frame} {k : Half} (hk : frameCode f = some k) (hb : s.sub = .s1) :
    afterOk f s = some (moveSub .s2 s) := by
  cases f with
  | subcommand | statusPoll => simp [afterOk, hb]
  | unsealKey | sleep => cases hk

theorem afterOk_subcommand_s2 (k : Half) (hb : s.sub = .s2) : afterOk (.subcommand k) s = phaseDone s := by
  simp [afterOk, hb]

theorem afterOk_statusPoll_s2 (hb : s.sub = .s2) : afterOk .statusPoll s = phaseDone (saveStatus s) := by
  simp [afterOk, hb]

/-- The response step of a command that waits for an answer. -/
theorem step_response {f : Frame} {q : Request} {r : Response} {rest : List Turn} (hb : s.busy = true)
    (hr : s.reqOut = true) (hs : s.schedule = .environment r :: rest) (hf : frameOf s = some f)
    (hq : frameRequest f s.sub = some q) (hfit : fits q r = true) :
    step s = ofPosition (afterOk f (received r (answered rest s))) := by
  have henv : environmentTurn r (withSchedule rest s) = responseStep r (withSchedule rest s) :=
    if_pos (by simp [hb, hr])
  rw [step_cons hs, runTurn, henv]
  exact responseStep_of_fits (s := withSchedule rest s) hf ((currentRequest_of_frameOf_eq hf).trans hq) hfit

/-- The `ok` to the only request of a phase ends it. -/
theorem step_one_request {rest : List Turn} (hb : s.busy = true) (hr : s.reqOut = true) (hsub : s.sub = .s0)
    (hs : s.schedule = .environment .ok :: rest) (hidle : s.phase ≠ .idle)
    (h3 : threeRequestPhase s.phase = false) : step s = ofPosition (phaseDone (answered rest s)) := by
  obtain ⟨f, hf, hone⟩ := exists_frameOf_of_one_request hidle h3
  obtain ⟨q, hq, hfit⟩ := exists_frameRequest_of_one_request hone
  rw [step_response hb hr hs hf (hsub ▸ hq) hfit, received_ok, afterOk_of_one_request hone]

/-- The READ's response ends a phase that sends a subcommand and does not poll. -/
theorem step_subcommand_read {rest : List Turn} {b0 b1 : Byte} {k : Half} (hb : s.busy = true) (hr : s.reqOut = true)
    (hsub : s.sub = .s2) (hs : s.schedule = .environment (.okData b0 b1) :: rest)
    (hk : subcommandCode s.op s.phase = some k) :
    step s = ofPosition (phaseDone (wordRead (b1 ++ b0 : BitVec 16) rest s)) := by
  rw [step_response hb hr hs (frameOf_of_subcommandCode hk) (by rw [hsub, frameRequest]) rfl,
    received_okData, saveResponse_answered, afterOk_subcommand_s2 (s := wordRead (b1 ++ b0 : BitVec 16) rest s) k hsub]

/-- The READ's response ends a status poll, and CSW takes it first (42_calseq.md R128). -/
theorem step_poll_read {rest : List Turn} {b0 b1 : Byte} (hb : s.busy = true) (hr : s.reqOut = true)
    (hsub : s.sub = .s2) (hs : s.schedule = .environment (.okData b0 b1) :: rest) (hpoll : pollPhase s.phase = true) :
    step s = ofPosition (phaseDone (statusRead (b1 ++ b0 : BitVec 16) rest s)) := by
  rw [step_response hb hr hs (frameOf_of_pollPhase hpoll) (by rw [hsub, frameRequest]) rfl,
    received_okData, saveResponse_answered, afterOk_statusPoll_s2 (s := wordRead (b1 ++ b0 : BitVec 16) rest s) hsub,
    saveStatus_wordRead]

end

/-! ## The rows -/

/-- Settles O27: an `ok` fits the WRITEs of a frame that has a code. -/
theorem earlierSubMovesOn : Obligations.EarlierSubMovesOn := by
  intro s rest hb hr hne h3 hs
  obtain ⟨q, hq⟩ := Option.ne_none_iff_exists'.1 hne
  obtain ⟨f, hf⟩ := exists_frameOf_of_currentRequest hq
  obtain ⟨k, hk⟩ := exists_frameCode_of_threeRequestPhase hf h3
  have hstep : s.sub ≠ .s2 → step s = ofPosition (afterOk f (answered rest s)) := fun hsub =>
    step_response hb hr hs hf (frameRequest_of_frameCode hk s.sub) (fits_subcommandRequest_ok k hsub)
  refine ⟨fun hsub => ?_, fun hsub => ?_⟩ <;> rw [hstep (by simp [hsub])]
  · rw [afterOk_s0 (s := answered rest s) hk hsub]
    rfl
  · rw [afterOk_s1 (s := answered rest s) hk hsub]
    rfl

/-- A move from SUB 0 is one of the phase alone. -/
theorem goto_of_sub {p : Phase} {s : State} (hsub : s.sub = .s0) : goto p s = { s with phase := p } := by
  rw [goto, ← hsub]

/-- Settles O28: the `ok` ends the phase, by a straight row or by completion. -/
theorem oneRequestRows : Obligations.OneRequestRows := by
  intro s rest hb hr hsub hs
  refine ⟨fun c hc hp => ?_, fun hp => ?_⟩
  · have hrow : ∀ c ∈ [(Phase.unseal1, Phase.unseal2), (Phase.unseal2, Phase.enCalen), (Phase.enWait, Phase.enPoll),
        (Phase.exWait, Phase.exPoll), (Phase.exSettle1, Phase.exReset), (Phase.ofWait1, Phase.ofPoll1),
        (Phase.ofWait2, Phase.ofPoll2)],
        c.1 ≠ .idle ∧ threeRequestPhase c.1 = false ∧ straightNext c.1 = some c.2 := by decide
    obtain ⟨hidle, h3, hnext⟩ := hrow c hc
    rw [step_one_request hb hr hsub hs (hp ▸ hidle) (hp ▸ h3),
      phaseDone_straight (s := answered rest s) (hp ▸ hnext), goto_of_sub (s := answered rest s) hsub]
    rfl
  · rw [step_one_request hb hr hsub hs (by simp [hp]) (by simp [hp, threeRequestPhase]),
      phaseDone_exSettle2 (s := answered rest s) hp, hsub]
    rfl

/-- Settles O29: the READ's response ends the phase, by a straight row or into the exit loop. -/
theorem subcommandRows : Obligations.SubcommandRows := by
  intro s rest b0 b1 hb hr hsub hs
  have hstraight {p : Phase} {k : Half} (hk : subcommandCode s.op s.phase = some k)
      (hnext : straightNext s.phase = some p) : step s = .next (goto p (wordRead (b1 ++ b0 : BitVec 16) rest s)) := by
    rw [step_subcommand_read hb hr hsub hs hk, phaseDone_straight (s := wordRead (b1 ++ b0 : BitVec 16) rest s) hnext]
    rfl
  refine ⟨fun c hc hp => ?_, fun hp hop => ?_, fun hp => ?_⟩
  · have hrow : ∀ op, ∀ c ∈ [(Phase.enCalen, Phase.enEnter), (Phase.enEnter, Phase.enWait),
        (Phase.exExit, Phase.exWait), (Phase.exReset, Phase.exSettle2)],
        (∃ k, subcommandCode op c.1 = some k) ∧ straightNext c.1 = some c.2 := by
      simp [subcommandCode, straightNext]
    obtain ⟨⟨k, hk⟩, hnext⟩ := hrow s.op c hc
    exact hstraight (hp ▸ hk) (hp ▸ hnext)
  · obtain ⟨k, hk⟩ := ofcode_of_offset hop
    exact hstraight (by rwa [hp]) (by rw [hp]; rfl)
  · rw [step_subcommand_read hb hr hsub hs (k := codeCcOffsetSave) (by rw [hp]; rfl),
      phaseDone_ofSave (s := wordRead (b1 ++ b0 : BitVec 16) rest s) hp]
    rfl

/-- Settles O30: the poll ends its phase with CSW written, and each row is that of its phase, command and word. -/
theorem metPollRows : Obligations.MetPollRows := by
  intro s rest b0 b1 hb hr hsub hs v p
  have hend {t : State} (hpoll : pollPhase s.phase = true)
      (h : phaseDone (statusRead (b1 ++ b0 : BitVec 16) rest s) = some t) : step s = .next t := by
    rw [step_poll_read hb hr hsub hs hpoll, h, ofPosition]
  refine ⟨fun hp hop hv => ?_, fun hp hop hv => ?_, fun hp hv => ?_, fun hp hop hv => ?_, fun hp hop hv => ?_,
    fun hp hop hv => ?_, fun hp hop h11 h10 => ?_⟩
  · exact hend (by rw [hp]; rfl) (phaseDone_enPoll_calEnter hp hop hv)
  · exact hend (by rw [hp]; rfl) (phaseDone_enPoll_offset hp hop hv)
  · exact hend (by rw [hp]; rfl) (phaseDone_exPoll_met hp hv)
  · exact hend (by rw [hp]; rfl) (phaseDone_ofPoll1_met hp (offsetActive_of_set (.inl ⟨hop, hv⟩)))
  · exact hend (by rw [hp]; rfl) (phaseDone_ofPoll1_met hp (offsetActive_of_set (.inr ⟨hop, hv⟩)))
  · exact hend (by rw [hp]; rfl) (phaseDone_ofPoll2_met hp (offsetActive_of_clear (.inl ⟨hop, hv⟩)))
  · exact hend (by rw [hp]; rfl) (phaseDone_ofPoll2_met hp (offsetActive_of_clear (.inr ⟨hop, h11, h10⟩)))

/-- Settles O31: each poll whose condition fails takes the failed-poll step of its loop, which ends the command at the
bound and goes to the head below it. -/
theorem failedPollRows : Obligations.FailedPollRows := by
  intro s rest b0 b1 hb hr hsub hs v n p c hc hp hfails
  have hrow : pollPhase s.phase = true
      ∧ phaseDone (statusRead v rest s) = some (failPoll c.2.1 (statusRead v rest s)) := by
    simp only [List.mem_cons, List.not_mem_nil, or_false] at hc
    obtain rfl | rfl | rfl | rfl := hc
    · exact ⟨by rw [hp]; rfl, phaseDone_enPoll_failed hp hfails⟩
    · exact ⟨by rw [hp]; rfl, phaseDone_exPoll_failed hp hfails⟩
    · exact ⟨by rw [hp]; rfl, phaseDone_ofPoll1_failed hp (offsetActive_of_clear hfails)⟩
    · exact ⟨by rw [hp]; rfl, phaseDone_ofPoll2_failed hp (offsetActive_of_set hfails)⟩
  obtain ⟨hpoll, hdone⟩ := hrow
  rw [step_poll_read hb hr hsub hs hpoll, hdone, ofPosition]
  refine ⟨fun ⟨h0, hn⟩ => ?_, fun hn => ?_⟩
  · rw [failPoll_at_bound (s := statusRead v rest s) h0 hn]
    rfl
  · rw [failPoll_below_bound (s := statusRead v rest s) hn]
    rfl

end Sys2Proof.Machine
end

section
/-! PROOFS of the family 42_calseq.md, what the sequencer sees (R125, 20_memory.md R66): its operations as operations on
`SeqView`, and each of its decisions as one on the view. -/
namespace Sys2Proof.Machine

/-! ## Operations on the view -/

theorem seqView_withSchedule (u : List Turn) (s : State) : seqView (withSchedule u s) = seqView s := rfl

theorem seqView_clearRequest (s : State) : seqView (clearRequest s) = { seqView s with reqOut := false } := rfl

theorem seqView_sendRequest (q : Request) (s : State) :
    seqView (sendRequest q s) = { seqView s with reqOut := true, requests := (seqView s).requests ++ [q] } := rfl

theorem seqView_saveResponse (b0 b1 : Byte) (s : State) :
    seqView (saveResponse b0 b1 s) = { seqView s with rspVal := (b1 ++ b0 : BitVec 16) } := rfl

theorem seqView_saveStatus (s : State) : seqView (saveStatus s) = { seqView s with csw := (seqView s).rspVal } := rfl

theorem seqView_moveSub (b : SubStep) (s : State) : seqView (moveSub b s) = { seqView s with sub := b } := rfl

theorem seqView_goto (p : Phase) (s : State) : seqView (goto p s) = { seqView s with phase := p, sub := .s0 } := rfl

theorem seqView_setLoopcnt (n : Half) (s : State) : seqView (setLoopcnt n s) = { seqView s with loopcnt := n } := rfl

theorem seqView_enterLoop (p : Phase) (s : State) :
    seqView (enterLoop p s) = { seqView s with loopcnt := 0, phase := p, sub := .s0 } := rfl

theorem seqView_raiseError (code : ErrorCode) (s : State) : seqView (raiseError code s) = { seqView s with
    err := true, errcode := code, busy := false, done := true, abortPending := false, reqOut := false } := rfl

theorem seqView_completeSequence (s : State) : seqView (completeSequence s) = { seqView s with
    resLo := (seqView s).csw.setWidth 32, resHi := 0, busy := false, done := true, phase := .idle, sub := .s0,
    abortPending := false } := rfl

/-! ## Decisions on the view -/

section
variable {s s' : State}

theorem frameOf_congr (h : seqView s = seqView s') : frameOf s = frameOf s' := by
  unfold frameOf
  rw [show s.phase = s'.phase from congrArg SeqView.phase h, show s.op = s'.op from congrArg SeqView.op h,
    show s.latKeys = s'.latKeys from congrArg SeqView.latKeys h]

theorem currentRequest_congr (h : seqView s = seqView s') : currentRequest s = currentRequest s' := by
  rw [currentRequest, currentRequest, frameOf_congr h, show s.sub = s'.sub from congrArg SeqView.sub h]

theorem failPoll_congr (p : Phase) (h : seqView s = seqView s') :
    seqView (failPoll p s) = seqView (failPoll p s') := by
  have hmax : s.latMaxpoll = s'.latMaxpoll := congrArg SeqView.latMaxpoll h
  have hcnt : s.loopcnt = s'.loopcnt := congrArg SeqView.loopcnt h
  unfold failPoll
  rw [hmax, hcnt]
  split_ifs
  · rw [seqView_raiseError, seqView_raiseError, seqView_setLoopcnt, seqView_setLoopcnt, h]
  · rw [seqView_goto, seqView_goto, seqView_setLoopcnt, seqView_setLoopcnt, h]

theorem enPollSeen_congr (h : seqView s = seqView s') :
    (enPollSeen s).map seqView = (enPollSeen s').map seqView := by
  unfold enPollSeen
  rw [show s.op = s'.op from congrArg SeqView.op h]
  split_ifs <;> simp only [Option.map_some, seqView_completeSequence, seqView_enterLoop, h]

/-- The transition table reads PHASE, OP, `rsp_val`, `loopcnt` and `lat_maxpoll` alone (42_calseq.md R135). -/
theorem phaseDone_congr (h : seqView s = seqView s') : (phaseDone s).map seqView = (phaseDone s').map seqView := by
  have hphase : s.phase = s'.phase := congrArg SeqView.phase h
  have hop : s.op = s'.op := congrArg SeqView.op h
  have hrsp : s.rspVal = s'.rspVal := congrArg SeqView.rspVal h
  unfold phaseDone
  rw [hphase, hop, hrsp]
  cases s'.phase
  case idle => rfl
  case enPoll =>
    dsimp only
    split_ifs
    · exact enPollSeen_congr h
    · exact congrArg some (failPoll_congr _ h)
  case exPoll =>
    dsimp only
    split_ifs
    · exact congrArg some (failPoll_congr _ h)
    · exact congrArg some (by rw [seqView_goto, seqView_goto, h])
  case ofPoll1 | ofPoll2 =>
    dsimp only
    rcases offsetActive s'.op s'.rspVal with _ | _ | _ <;>
      simp only [Option.map_none, Option.map_some, seqView_enterLoop, seqView_goto, failPoll_congr _ h, h]
  all_goals simp only [Option.map_some, seqView_goto, seqView_enterLoop, seqView_completeSequence, h]

theorem afterOk_congr (f : Frame) (h : seqView s = seqView s') :
    (afterOk f s).map seqView = (afterOk f s').map seqView := by
  have hstatus : seqView (saveStatus s) = seqView (saveStatus s') := by
    rw [seqView_saveStatus, seqView_saveStatus, h]
  have hmove (b : SubStep) : seqView (moveSub b s) = seqView (moveSub b s') := by
    rw [seqView_moveSub, seqView_moveSub, h]
  unfold afterOk
  rw [show s.sub = s'.sub from congrArg SeqView.sub h]
  cases f with
  | unsealKey | sleep => exact phaseDone_congr h
  | subcommand =>
    cases s'.sub with
    | s0 | s1 => exact congrArg some (hmove _)
    | s2 => exact phaseDone_congr h
  | statusPoll =>
    cases s'.sub with
    | s0 | s1 => exact congrArg some (hmove _)
    | s2 => exact phaseDone_congr hstatus

theorem outcomeView_ofPosition (o : Option State) : outcomeView (ofPosition o) = o.map seqView := by cases o <;> rfl

theorem responseStep_congr (r : Response) (h : seqView s = seqView s') :
    outcomeView (responseStep r s) = outcomeView (responseStep r s') := by
  have hclear : seqView (clearRequest s) = seqView (clearRequest s') := by
    rw [seqView_clearRequest, seqView_clearRequest, h]
  have hsave (b0 b1 : Byte) :
      seqView (saveResponse b0 b1 (clearRequest s)) = seqView (saveResponse b0 b1 (clearRequest s')) := by
    rw [seqView_saveResponse, seqView_saveResponse, hclear]
  have herror : outcomeView (.next (raiseError .busError (clearRequest s)))
      = outcomeView (.next (raiseError .busError (clearRequest s'))) := by
    rw [outcomeView, outcomeView, seqView_raiseError, seqView_raiseError, hclear]
  unfold responseStep
  rw [frameOf_congr h, currentRequest_congr h]
  cases frameOf s' with
  | none => rfl
  | some f =>
    cases currentRequest s' with
    | none => rfl
    | some q =>
      cases q <;> cases r
      case write.ok | sleep.ok =>
        simp only [outcomeView_ofPosition]
        exact afterOk_congr f hclear
      case read.okData b0 b1 =>
        simp only [outcomeView_ofPosition]
        exact afterOk_congr f (hsave b0 b1)
      all_goals exact herror

theorem environmentTurn_congr (r : Response) (h : seqView s = seqView s') :
    outcomeView (environmentTurn r s) = outcomeView (environmentTurn r s') := by
  unfold environmentTurn
  rw [show s.busy = s'.busy from congrArg SeqView.busy h, show s.reqOut = s'.reqOut from congrArg SeqView.reqOut h]
  split_ifs
  · exact responseStep_congr r h
  · exact congrArg some h

theorem issueStep_congr (h : seqView s = seqView s') : outcomeView (issueStep s) = outcomeView (issueStep s') := by
  rw [issueStep, issueStep, outcomeView_ofPosition, outcomeView_ofPosition, currentRequest_congr h]
  cases currentRequest s' with
  | none => rfl
  | some q => exact congrArg some (by rw [seqView_sendRequest, seqView_sendRequest, h])

theorem blockTurn_congr (h : seqView s = seqView s') : outcomeView (blockTurn s) = outcomeView (blockTurn s') := by
  unfold blockTurn
  rw [show s.busy = s'.busy from congrArg SeqView.busy h, show s.reqOut = s'.reqOut from congrArg SeqView.reqOut h,
    show s.abortPending = s'.abortPending from congrArg SeqView.abortPending h]
  split_ifs
  · exact congrArg some (by rw [abortStep, abortStep, seqView_raiseError, seqView_raiseError, h])
  · exact issueStep_congr h
  · exact congrArg some h

end

/-- Settles O59: the turn is the same, and taking it from the schedule changes neither view. -/
theorem sequencerSeesOnlyItsOwnState : Obligations.SequencerSeesOnlyItsOwnState := by
  intro s s' u rest rest' hu h hs hs'
  have hview : seqView (withSchedule rest s) = seqView (withSchedule rest' s') := by
    rw [seqView_withSchedule, seqView_withSchedule, h]
  rw [step_cons hs, step_cons hs']
  obtain rfl | ⟨r, rfl⟩ := hu
  · exact blockTurn_congr hview
  · exact environmentTurn_congr r hview

end Sys2Proof.Machine
end

section
/-! PROOFS of the family 42_calseq.md, frames and loops as runs: from one request to the next, a frame's turns run it to
the end of its phase, and a polling loop's turns run it to its last poll (R126, R138). -/
namespace Sys2Proof.Machine

/-! ## Runs that end in a next state -/

/-- A run of `n` steps from `s` ends in `t`. -/
def Reaches (n : Nat) (s t : State) : Prop :=
  (Sys2Proof.core.run n s : Host.Outcome State Fault Refusal) = .next t

section
variable {s t u : State} {j k : Nat}

theorem reaches_of_step (h : step s = .next t) : Reaches 1 s t := run_succ (k := 0) h

theorem Reaches.trans (h : Reaches j s t) (h' : Reaches k t u) : Reaches (j + k) s u := (run_add h).trans h'

theorem Reaches.of_length_eq (h : Reaches j s t) (hjk : j = k) : Reaches k s t := hjk ▸ h

theorem Reaches.of_state_eq (h : Reaches j s t) (htu : t = u) : Reaches j s u := htu ▸ h

end

/-! ## States of a run -/

/-- A command runs, with nothing outstanding and no abort pending. -/
structure Between (s : State) : Prop where
  busy : s.busy = true
  reqOut : s.reqOut = false
  abortPending : s.abortPending = false

/-- A running command is about to send the first request of a phase. -/
structure Ready (p : Phase) (s : State) : Prop extends Between s where
  phase : s.phase = p
  sub : s.sub = .s0

/-- Requests were sent and answered, with the turns `u` left. -/
def sent (qs : List Request) (u : List Turn) (s : State) : State :=
  { s with reqOut := false, requests := s.requests ++ qs, schedule := u }

/-- The same, the last of them a READ answered with `v`. -/
def worded (v : Half) (qs : List Request) (u : List Turn) (s : State) : State :=
  { s with reqOut := false, requests := s.requests ++ qs, schedule := u, sub := .s2, rspVal := v }

/-- The same at the READ of the status poll `p`, after `n` failed polls. -/
def atPoll (p : Phase) (v n : Half) (qs : List Request) (u : List Turn) (s : State) : State :=
  { s with
    reqOut := false, requests := s.requests ++ qs, schedule := u, phase := p, sub := .s2, rspVal := v, csw := v,
    loopcnt := n }

/-! ## One request (R130) -/

section
variable {s t : State} {p p' : Phase} {rest : List Turn}

/-- The Block's issue step and a response that fits. -/
theorem reaches_exchange {f : Frame} {q : Request} {r : Response} (h : Between s)
    (hs : s.schedule = .block :: .environment r :: rest) (hf : frameOf s = some f)
    (hq : frameRequest f s.sub = some q) (hfit : fits q r = true)
    (hdone : afterOk f (received r (sent [q] rest s)) = some t) : Reaches 2 s t := by
  have hissue : step s = .next (sendRequest q (withSchedule (.environment r :: rest) s)) := by
    rw [step_block hs]
    exact blockTurn_issue (s := withSchedule (.environment r :: rest) s) h.busy h.reqOut h.abortPending
      ((currentRequest_of_frameOf_eq hf).trans hq)
  refine (reaches_of_step hissue).trans (reaches_of_step ?_)
  rw [step_response (s := sendRequest q (withSchedule (.environment r :: rest) s)) h.busy rfl rfl hf hq hfit,
    ofPosition_next]
  exact hdone

/-! ## Frames -/

/-- A frame of one request, answered `ok`. -/
theorem reaches_unit {q : Request} (h : Ready p s) (hidle : p ≠ .idle) (h3 : threeRequestPhase p = false)
    (hs : s.schedule = unitTurns ++ rest) (hq : currentRequest s = some q)
    (hdone : phaseDone (sent [q] rest s) = some t) : Reaches 2 s t := by
  obtain ⟨f, hf, hone⟩ := exists_frameOf_of_one_request (h.phase ▸ hidle) (h.phase ▸ h3)
  obtain ⟨q', hq', hfit⟩ := exists_frameRequest_of_one_request hone
  have hreq : frameRequest f s.sub = some q' := by rw [h.sub, hq']
  obtain rfl : q' = q := Option.some.inj (hreq.symm.trans ((currentRequest_of_frameOf_eq hf).symm.trans hq))
  exact reaches_exchange h.toBetween hs hf hreq hfit ((afterOk_of_one_request hone _).trans hdone)

/-- The bytes of a word, put together again (20_memory.md R55). -/
theorem highByte_append_lowByte (v : Half) : (highByte v ++ lowByte v : BitVec 16) = v :=
  BitVec.extractLsb'_append_extractLsb' (w := 8) (len := 8)

/-- A frame of three requests, its READ answered with `v`. -/
theorem reaches_frame {f : Frame} {k v : Half} (h : Ready p s) (hf : frameOf s = some f) (hk : frameCode f = some k)
    (hs : s.schedule = subcommandTurns v ++ rest)
    (hdone : afterOk f (worded v (subcommandRequests k) rest s) = some t) : Reaches 6 s t := by
  have hreq (b : SubStep) : frameRequest f b = some (subcommandRequest k b) := frameRequest_of_frameCode hk b
  let readTurns := [.block, .environment (.okData (lowByte v) (highByte v))] ++ rest
  let written := moveSub .s1 (sent [subcommandRequest k .s0] (unitTurns ++ readTurns) s)
  let selected := moveSub .s2 (sent [subcommandRequest k .s1] readTurns written)
  have hlast : worded v (subcommandRequests k) rest s
      = received (.okData (lowByte v) (highByte v)) (sent [subcommandRequest k .s2] rest selected) := by
    simp only [selected, written, received_okData, saveResponse, sent, moveSub, worded, highByte_append_lowByte,
      List.append_assoc]
    rfl
  have hfirst : frameRequest f s.sub = some (subcommandRequest k .s0) := by rw [h.sub, hreq]
  have hwrite : Reaches 2 s written := reaches_exchange h.toBetween hs hf hfirst rfl (afterOk_s0 hk h.sub)
  have hselect : Reaches 2 written selected :=
    reaches_exchange (s := written) { h with reqOut := rfl } rfl hf (hreq .s1) rfl (afterOk_s1 hk rfl)
  exact (hwrite.trans hselect).trans
    (reaches_exchange (s := selected) { h with reqOut := rfl } rfl hf (hreq .s2) rfl (hlast ▸ hdone))

/-- A phase that sends a subcommand and does not poll, to the next phase. -/
theorem reaches_subcommand {k v : Half} (h : Ready p s) (hk : subcommandCode s.op p = some k)
    (hs : s.schedule = subcommandTurns v ++ rest)
    (hdone : phaseDone (worded v (subcommandRequests k) rest s) = some t) : Reaches 6 s t :=
  reaches_frame h (frameOf_of_subcommandCode (h.phase ▸ hk)) rfl hs hdone

/-- A status poll, to its READ: CSW has taken the word (42_calseq.md R128). -/
theorem reaches_poll {v : Half} (h : Ready p s) (hp : pollPhase p = true) (hs : s.schedule = subcommandTurns v ++ rest)
    (hdone : phaseDone (atPoll p v s.loopcnt (subcommandRequests 0x0000) rest s) = some t) : Reaches 6 s t := by
  obtain rfl := h.phase
  exact reaches_frame h (frameOf_of_pollPhase hp) rfl hs hdone

/-- A phase that sleeps, to the end of the phase. -/
theorem reaches_sleep {ms : Nat} (h : Ready p s) (hms : sleepOf p = some ms) (hs : s.schedule = unitTurns ++ rest)
    (hdone : phaseDone (sent [.sleep ms] rest s) = some t) : Reaches 2 s t := by
  have hone : p ≠ .idle ∧ threeRequestPhase p = false := by
    revert hms
    cases p <;> simp [sleepOf, threeRequestPhase]
  exact reaches_unit h hone.1 hone.2 hs (currentRequest_of_sleepOf (h.phase ▸ hms) h.sub) hdone

/-- A wait of 1000 ms and the status poll after it, the end of every polling loop's iteration (42_calseq.md R129). -/
theorem reaches_wait_poll {v : Half} (h : Ready p s) (hw : sleepOf p = some 1000) (hnext : straightNext p = some p')
    (hp : pollPhase p' = true) (hs : s.schedule = clearTurns v ++ rest)
    (hdone : phaseDone (atPoll p' v s.loopcnt clearRequests rest s) = some t) : Reaches 8 s t := by
  have hwait := reaches_sleep (t := goto p' (sent [.sleep 1000] (subcommandTurns v ++ rest) s)) h hw
    (by rw [hs, clearTurns, List.append_assoc]) (phaseDone_straight (by rw [sent, h.phase, hnext]))
  refine hwait.trans (reaches_poll { h with phase := rfl, sub := rfl, reqOut := rfl } hp rfl ?_)
  simpa only [atPoll, goto, sent, clearRequests, List.append_assoc, List.singleton_append] using hdone

end

/-! ## Polling loops (R138) -/

/-- A polling loop: its head, its poll, and of one iteration the requests, the turns and the word polled. -/
structure PollLoop (ρ : Type) where
  head : Phase
  pollAt : Phase
  requests : List Request
  turns : ρ → List Turn
  poll : ρ → Half

section
variable {ρ : Type}

/-- The turns of one iteration run the command `op` from the head of the loop to the end of its poll. -/
def PollLoop.Iterates (L : PollLoop ρ) (op : BitVec 4) : Prop :=
  ∀ (s t : State) (r : ρ) (rest : List Turn), Ready L.head s → s.op = op → s.schedule = L.turns r ++ rest →
    phaseDone (atPoll L.pollAt (L.poll r) s.loopcnt L.requests rest s) = some t → Reaches (2 * L.requests.length) s t

/-- The word `v` does not meet the loop's until-condition. -/
def PollLoop.Fails (L : PollLoop ρ) (op : BitVec 4) (v : Half) : Prop :=
  ∀ s : State, s.phase = L.pollAt → s.op = op → s.rspVal = v → phaseDone s = some (failPoll L.head s)

/-- `loopcnt` after `n` failed polls from 0 (42_calseq.md R138). -/
def failedCount (n : Nat) : Half := BitVec.ofNat 16 (min n 0xFFFF)

theorem failedCount_toNat (n : Nat) : (failedCount n).toNat = min n 0xFFFF := by
  rw [failedCount, BitVec.toNat_ofNat, Nat.mod_eq_of_lt (by omega)]

theorem bumpLoopcnt_failedCount (n : Nat) : bumpLoopcnt (failedCount n) = failedCount (n + 1) := by
  apply BitVec.eq_of_toNat_eq
  rw [bumpLoopcnt_toNat, failedCount_toNat, failedCount_toNat]
  omega

@[simp] theorem repeated_zero {α : Type} (l : List α) : repeated 0 l = [] := rfl

theorem repeated_succ {α : Type} (n : Nat) (l : List α) : repeated (n + 1) l = l ++ repeated n l := by
  simp [repeated, List.replicate_succ]

/-- A loop with `c` failed polls behind it, its next polls failing below a set bound, runs to the end of the poll after
them: by induction on the failing iterations. -/
theorem PollLoop.reaches_from {L : PollLoop ρ} {op : BitVec 4} (hL : L.Iterates op) {failed : List ρ} {last : ρ}
    (hfails : ∀ r ∈ failed, L.Fails op (L.poll r)) {s t : State} {rest : List Turn} {c : Nat} (h : Ready L.head s)
    (hop : s.op = op) (hc : s.loopcnt = failedCount c)
    (hbound : s.latMaxpoll.toNat = 0 ∨ c + failed.length < s.latMaxpoll.toNat)
    (hs : s.schedule = (failed ++ [last]).flatMap L.turns ++ rest)
    (hdone : phaseDone (atPoll L.pollAt (L.poll last) (failedCount (c + failed.length))
      (repeated (failed.length + 1) L.requests) rest s) = some t) :
    Reaches (2 * (L.requests.length * (failed.length + 1))) s t := by
  induction failed generalizing s c with
  | nil =>
    refine (hL s t last rest h hop (by simpa using hs) ?_).of_length_eq (by simp)
    simpa [hc, repeated_succ] using hdone
  | cons r failed ih =>
    rw [List.forall_mem_cons] at hfails
    rw [List.length_cons] at hbound hdone ⊢
    let later := (failed ++ [last]).flatMap L.turns ++ rest
    let polled := atPoll L.pollAt (L.poll r) s.loopcnt L.requests later s
    have hbelow : failPoll L.head polled = goto L.head (setLoopcnt (failedCount (c + 1)) polled) := by
      have hcount : bumpLoopcnt polled.loopcnt = failedCount (c + 1) := by
        rw [← bumpLoopcnt_failedCount, ← hc]
        rfl
      rw [← hcount]
      refine failPoll_below_bound (hbound.imp_right fun hlt => ?_)
      have hle : polled.loopcnt.toNat ≤ c := by
        rw [show polled.loopcnt = failedCount c from hc, failedCount_toNat]
        omega
      show min (polled.loopcnt.toNat + 1) 0xFFFF < s.latMaxpoll.toNat
      omega
    have hround := hL s _ r later h hop (by simpa [later] using hs)
      ((hfails.1 polled rfl hop rfl).trans (congrArg some hbelow))
    have hrest := ih (s := goto L.head (setLoopcnt (failedCount (c + 1)) polled)) (c := c + 1) hfails.2
      { h with phase := rfl, sub := rfl, reqOut := rfl } hop rfl
      (hbound.imp_right fun hlt => by show _ < s.latMaxpoll.toNat; omega) rfl ?_
    · exact (hround.trans hrest).of_length_eq (by ring)
    · rw [← hdone, repeated_succ (failed.length + 1), Nat.add_right_comm c 1, Nat.add_assoc c]
      simp only [polled, atPoll, goto, setLoopcnt, List.append_assoc]

/-- A loop just entered. -/
theorem PollLoop.reaches {L : PollLoop ρ} {op : BitVec 4} (hL : L.Iterates op) {failed : List ρ} {last : ρ}
    (hfails : ∀ r ∈ failed, L.Fails op (L.poll r)) {s t : State} {rest : List Turn} (h : Ready L.head s)
    (hop : s.op = op) (hc : s.loopcnt = 0)
    (hbound : s.latMaxpoll.toNat = 0 ∨ failed.length < s.latMaxpoll.toNat)
    (hs : s.schedule = (failed ++ [last]).flatMap L.turns ++ rest)
    (hdone : phaseDone (atPoll L.pollAt (L.poll last) (failedCount failed.length)
      (repeated (failed.length + 1) L.requests) rest s) = some t) :
    Reaches (2 * (L.requests.length * (failed.length + 1))) s t :=
  PollLoop.reaches_from (c := 0) hL hfails h hop hc (by rwa [Nat.zero_add]) hs (by rwa [Nat.zero_add])

end

end Sys2Proof.Machine
end

section
/-! PROOFS of the family 42_calseq.md, whole runs: the loops of the CALSEQ commands, their procedures, and the commands
from their submission to their end (R139 to R153). -/
namespace Sys2Proof.Machine

/-! ## The loops of the commands -/

/-- The loop of EnterCalibration (42_calseq.md R141). -/
def enterPolls : PollLoop EnterRound where
  head := .enCalen
  pollAt := .enPoll
  requests := enterRequests
  turns := EnterRound.turns
  poll := EnterRound.poll

/-- The loop of ExitCalibration (42_calseq.md R145). -/
def exitPolls : PollLoop CommandRound where
  head := .exExit
  pollAt := .exPoll
  requests := commandLoopRequests 0x0080
  turns := CommandRound.turns
  poll := CommandRound.poll

/-- The set loop of an offset command with the subcommand `code` (42_calseq.md R149). -/
def setPolls (code : Half) : PollLoop CommandRound where
  head := .ofCmd
  pollAt := .ofPoll1
  requests := commandLoopRequests code
  turns := CommandRound.turns
  poll := CommandRound.poll

/-- The clear loop of an offset command (42_calseq.md R149). -/
def clearPolls : PollLoop Half where
  head := .ofWait2
  pollAt := .ofPoll2
  requests := clearRequests
  turns := clearTurns
  poll := id

section
variable {s t : State} {rest : List Turn}

/-- A subcommand phase with a straight row moves on to the phase after it. -/
theorem reaches_next_subcommand {p p' : Phase} {k v : Half} (h : Ready p s) (hk : subcommandCode s.op p = some k)
    (hnext : straightNext p = some p') (hs : s.schedule = subcommandTurns v ++ rest) :
    Reaches 6 s (goto p' (worded v (subcommandRequests k) rest s)) :=
  reaches_subcommand h hk hs (phaseDone_straight (by rw [worded, h.phase, hnext]))

/-- At the phase it went to, a run between requests is ready. -/
theorem ready_goto {p : Phase} (h : Between s) : Ready p (goto p s) := { h with phase := rfl, sub := rfl }

theorem ready_enterLoop {p : Phase} (h : Between s) : Ready p (enterLoop p s) := { h with phase := rfl, sub := rfl }

theorem between_sent (qs : List Request) (u : List Turn) (h : Between s) : Between (sent qs u s) :=
  { h with reqOut := rfl }

theorem between_worded (v : Half) (qs : List Request) (u : List Turn) (h : Between s) : Between (worded v qs u s) :=
  { h with reqOut := rfl }

theorem between_atPoll (p : Phase) (v n : Half) (qs : List Request) (u : List Turn) (h : Between s) :
    Between (atPoll p v n qs u s) := { h with reqOut := rfl }

/-- A subcommand, a wait and a poll: an iteration of the exit and set loops, and the last part of EnterCalibration's. -/
theorem reaches_command_round {p w q : Phase} {k v polled : Half} (h : Ready p s) (hk : subcommandCode s.op p = some k)
    (hnext : straightNext p = some w) (hw : sleepOf w = some 1000) (hwnext : straightNext w = some q)
    (hq : pollPhase q = true) (hs : s.schedule = subcommandTurns v ++ (clearTurns polled ++ rest))
    (hdone : phaseDone (atPoll q polled s.loopcnt (commandLoopRequests k) rest s) = some t) : Reaches 14 s t := by
  refine (reaches_next_subcommand h hk hnext hs).trans
    (reaches_wait_poll (ready_goto (between_worded _ _ _ h.toBetween)) hw hwnext hq rfl ?_)
  simpa only [atPoll, goto, worded, commandLoopRequests, clearRequests, List.append_assoc, List.singleton_append]
    using hdone

/-- The turns of a round of one subcommand are those of the subcommand and of a wait and a poll. -/
theorem commandRound_turns_append (r : CommandRound) (rest : List Turn) :
    r.turns ++ rest = subcommandTurns r.command ++ (clearTurns r.poll ++ rest) := by
  simp only [CommandRound.turns, clearTurns, List.append_assoc]

theorem enterPolls_iterates (op : BitVec 4) : enterPolls.Iterates op := by
  intro s t r rest h _ hs hdone
  have hturns : s.schedule
      = subcommandTurns r.enable ++ (subcommandTurns r.enter ++ (clearTurns r.poll ++ rest)) := by
    simpa [enterPolls, EnterRound.turns, clearTurns] using hs
  refine (reaches_next_subcommand (k := 0x002D) (p' := .enEnter) h rfl rfl hturns).trans
    (reaches_command_round (k := 0x0081) (w := .enWait) (q := .enPoll)
      (ready_goto (between_worded _ _ _ h.toBetween)) rfl rfl rfl rfl rfl rfl ?_)
  simpa only [enterPolls, atPoll, goto, worded, enterRequests, commandLoopRequests, List.append_assoc] using hdone

theorem exitPolls_iterates (op : BitVec 4) : exitPolls.Iterates op := by
  intro s t r rest h _ hs hdone
  exact reaches_command_round (k := 0x0080) (w := .exWait) (q := .exPoll) h rfl rfl rfl rfl rfl
    (hs.trans (commandRound_turns_append r rest)) hdone

theorem setPolls_iterates {op : BitVec 4} {code : Half} (hcode : ofcode op = some code) :
    (setPolls code).Iterates op := by
  intro s t r rest h hop hs hdone
  exact reaches_command_round (w := .ofWait1) (q := .ofPoll1) h (hop ▸ hcode) rfl rfl rfl rfl
    (hs.trans (commandRound_turns_append r rest)) hdone

theorem clearPolls_iterates (op : BitVec 4) : clearPolls.Iterates op :=
  fun _ _ _ _ h _ hs hdone => reaches_wait_poll (p' := .ofPoll2) h rfl rfl rfl hs hdone

end

theorem enterPolls_fails {op : BitVec 4} {v : Half} (h : v.getLsbD 12 = false) : enterPolls.Fails op v :=
  fun _ hp _ hv => phaseDone_enPoll_failed hp (hv ▸ h)

theorem exitPolls_fails {op : BitVec 4} {v : Half} (h : v.getLsbD 12 = true) : exitPolls.Fails op v :=
  fun _ hp _ hv => phaseDone_exPoll_failed hp (hv ▸ h)

theorem setPolls_fails {op : BitVec 4} {code v : Half} (h : offsetActive op v = some false) :
    (setPolls code).Fails op v := fun _ hp hop hv => phaseDone_ofPoll1_failed hp (hop ▸ hv ▸ h)

theorem clearPolls_fails {op : BitVec 4} {v : Half} (h : offsetActive op v = some true) : clearPolls.Fails op v :=
  fun _ hp hop hv => phaseDone_ofPoll2_failed hp (hop ▸ hv ▸ h)

/-! ## The procedures -/

section
variable {s t : State} {rest : List Turn}

theorem reaches_unseal (h : Ready .unseal1 s) (hs : s.schedule = unsealTurns ++ rest) :
    Reaches 4 s (goto .enCalen (sent (unsealRequests s.latKeys) rest s)) := by
  have hfirst := reaches_unit h (by decide) rfl (rest := unitTurns ++ rest) hs (currentRequest_unseal1 h.phase h.sub)
    (phaseDone_straight (p := .unseal2) (by rw [sent, h.phase]; rfl))
  have hready := ready_goto (p := .unseal2) (between_sent [Request.write 0x55 [0x00, s.latKeys.extractLsb' 0 8,
    s.latKeys.extractLsb' 8 8]] (unitTurns ++ rest) h.toBetween)
  have hsecond := reaches_unit hready (by decide) rfl (rest := rest) rfl (currentRequest_unseal2 rfl rfl)
    (phaseDone_straight (p := .enCalen) rfl)
  refine (hfirst.trans hsecond).of_state_eq ?_
  simp only [goto, sent, unsealRequests, List.append_assoc]
  rfl

/-- EnterCalibration with its unseal, to the end of the poll after the failing ones (42_calseq.md R127, R141). -/
theorem reaches_enter {failed : List EnterRound} {last : EnterRound} (h : Ready .unseal1 s) (hc : s.loopcnt = 0)
    (hfails : ∀ r ∈ failed, r.poll.getLsbD 12 = false)
    (hbound : s.latMaxpoll.toNat = 0 ∨ failed.length < s.latMaxpoll.toNat)
    (hs : s.schedule = unsealTurns ++ ((failed ++ [last]).flatMap EnterRound.turns ++ rest))
    (hdone : phaseDone (atPoll .enPoll last.poll (failedCount failed.length)
      (unsealRequests s.latKeys ++ repeated (failed.length + 1) enterRequests) rest s) = some t) :
    Reaches (2 * (2 + 10 * (failed.length + 1))) s t := by
  have hloop := PollLoop.reaches (s := goto .enCalen (sent (unsealRequests s.latKeys) _ s)) (t := t)
    (enterPolls_iterates s.op) (fun r hr => enterPolls_fails (hfails r hr))
    (ready_goto (between_sent _ _ h.toBetween)) rfl hc hbound rfl
    (by simpa only [enterPolls, atPoll, goto, sent, List.append_assoc] using hdone)
  exact ((reaches_unseal h hs).trans hloop).of_length_eq (by rw [show enterPolls.requests.length = 10 from rfl]; ring)

/-- Settle, reset, settle, and completion (42_calseq.md R145, R132). -/
theorem reaches_settle {v : Half} (h : Ready .exSettle1 s) (hs : s.schedule = settleTurns v ++ rest) :
    Reaches 10 s (completeSequence (worded v settleRequests rest s)) := by
  have hturns : s.schedule = unitTurns ++ (subcommandTurns v ++ (unitTurns ++ rest)) := by
    simpa [settleTurns] using hs
  have hfirst := reaches_sleep h rfl hturns (phaseDone_straight (p := .exReset) (by rw [sent, h.phase]; rfl))
  have hready := ready_goto (p := .exReset) (between_sent [.sleep Config.settleMs]
    (subcommandTurns v ++ (unitTurns ++ rest)) h.toBetween)
  have hreset := hfirst.trans (reaches_next_subcommand (k := 0x0041) (p' := .exSettle2) hready rfl rfl rfl)
  have hlast := hreset.trans (reaches_sleep (ready_goto (between_worded _ _ _ hready.toBetween)) rfl rfl
    (phaseDone_exSettle2 rfl))
  refine hlast.of_state_eq ?_
  simp only [completeSequence, State.driveIrq, goto, sent, worded, settleRequests, cswWord, List.append_assoc]
  rfl

/-- ExitCalibration to completion (42_calseq.md R145). -/
theorem reaches_exit {failed : List CommandRound} {last : CommandRound} {v : Half} (h : Ready .exExit s)
    (hc : s.loopcnt = 0) (hfails : ∀ r ∈ failed, r.poll.getLsbD 12 = true) (hlast : last.poll.getLsbD 12 = false)
    (hbound : s.latMaxpoll.toNat = 0 ∨ failed.length < s.latMaxpoll.toNat)
    (hs : s.schedule = (failed ++ [last]).flatMap CommandRound.turns ++ (settleTurns v ++ rest)) :
    Reaches (2 * (7 * (failed.length + 1) + 5)) s (completeSequence (worded v settleRequests rest
      (atPoll .exPoll last.poll (failedCount failed.length)
        (repeated (failed.length + 1) (commandLoopRequests 0x0080)) (settleTurns v ++ rest) s))) := by
  have hloop := PollLoop.reaches (exitPolls_iterates s.op) (fun r hr => exitPolls_fails (hfails r hr)) h rfl hc hbound
    hs (phaseDone_exPoll_met rfl hlast)
  refine (hloop.trans (reaches_settle (ready_goto (between_atPoll _ _ _ _ _ h.toBetween)) rfl)).of_length_eq ?_
  rw [show exitPolls.requests.length = 7 from rfl]
  ring

/-- The set loop, the clear loop and the save step of an offset command (42_calseq.md R149). -/
theorem reaches_offset {code v : Half} {set : List CommandRound} {setLast : CommandRound} {clear : List Half}
    {clearLast : Half} (h : Ready .ofCmd s) (hc : s.loopcnt = 0) (hcode : ofcode s.op = some code)
    (hset : ∀ r ∈ set, offsetActive s.op r.poll = some false) (hsetLast : offsetActive s.op setLast.poll = some true)
    (hclear : ∀ w ∈ clear, offsetActive s.op w = some true) (hclearLast : offsetActive s.op clearLast = some false)
    (hbound : s.latMaxpoll.toNat = 0 ∨ set.length < s.latMaxpoll.toNat)
    (hbound' : s.latMaxpoll.toNat = 0 ∨ clear.length < s.latMaxpoll.toNat)
    (hs : s.schedule = (set ++ [setLast]).flatMap CommandRound.turns
      ++ ((clear ++ [clearLast]).flatMap clearTurns ++ (subcommandTurns v ++ rest))) :
    Reaches (2 * (7 * (set.length + 1) + 4 * (clear.length + 1) + 3)) s
      (enterLoop .exExit (worded v (subcommandRequests 0x000B) rest
        (atPoll .ofPoll2 clearLast (failedCount clear.length) (repeated (set.length + 1) (commandLoopRequests code)
          ++ repeated (clear.length + 1) clearRequests) (subcommandTurns v ++ rest) s))) := by
  have hsetLoop := PollLoop.reaches (setPolls_iterates hcode) (fun r hr => setPolls_fails (hset r hr)) h rfl hc hbound
    hs (phaseDone_ofPoll1_met rfl hsetLast)
  have hclearLoop := hsetLoop.trans (PollLoop.reaches (clearPolls_iterates s.op)
    (fun w hw => clearPolls_fails (hclear w hw)) (ready_enterLoop (between_atPoll _ _ _ _ _ h.toBetween)) rfl rfl
    hbound' rfl (phaseDone_ofPoll2_met rfl hclearLast))
  have hsave := hclearLoop.trans (reaches_subcommand (k := 0x000B) (ready_goto (between_atPoll _ _ _ _ _
    (ready_enterLoop (between_atPoll _ _ _ _ _ h.toBetween)).toBetween)) rfl rfl (phaseDone_ofSave rfl))
  refine (hsave.of_length_eq ?_).of_state_eq ?_
  · rw [show (setPolls code).requests.length = 7 from rfl, show clearPolls.requests.length = 4 from rfl]
    ring
  · simp only [enterLoop, setLoopcnt, goto, worded, atPoll, setPolls, clearPolls, id, List.append_assoc]

/-! ## The start of a command (R133) -/

/-- The state after the step that accepts the CALSEQ command `op`. -/
def started (op : BitVec 4) (entry : Phase) (rest : List Turn) (s : State) : State :=
  startSequence entry (acceptWord op (answer .ok (withSchedule rest s)))

theorem ready_started (op : BitVec 4) (entry : Phase) (rest : List Turn) (s : State) :
    Ready entry (started op entry rest s) := ⟨⟨rfl, rfl, rfl⟩, rfl, rfl⟩

theorem reaches_started {i : Instr} {entry : Phase} (hb : s.busy = false)
    (hi : (i, entry) ∈ [(Instr.calEnter, Phase.unseal1), (.calExit, .exExit), (.calCcOffset, .unseal1),
      (.calBoardOffset, .unseal1)]) {w : Word} (hw : decode w = .ok i)
    (hs : s.schedule = .host (.write 0x00 4 w) :: rest) : Reaches 1 s (started i.op entry rest s) :=
  reaches_of_step ((step_command hs hw).trans (exec_calseq_idle (s := answer .ok (withSchedule rest s)) hb hi))

end

/-! ## The commands -/

/-- Settles O32: the start, and EnterCalibration's loop to a poll that CAL_ENTER completes at. -/
theorem calEnterCompletes : Obligations.CalEnterCompletes := by
  intro s failed last rest hb hfails hlast hbound hs
  rw [List.append_assoc] at hs
  have hstart := reaches_started (i := .calEnter) (entry := .unseal1) hb (by decide) rfl hs
  refine (hstart.trans (reaches_enter (ready_started _ _ _ s) rfl hfails hbound rfl
    (phaseDone_enPoll_calEnter rfl rfl hlast))).of_state_eq ?_
  simp only [completeSequence, State.driveIrq, atPoll, started, startSequence, acceptWord, answer, withSchedule,
    cswWord, failedCount, Bool.true_and, List.append_assoc]
  rfl

/-- Settles O33: the start, and EnterCalibration's loop to a poll that fails at the bound. -/
theorem calEnterTimesOut : Obligations.CalEnterTimesOut := by
  intro s failed last rest hb hfails hlast hmax hs
  rw [List.append_assoc] at hs
  have hstart := reaches_started (i := .calEnter) (entry := .unseal1) hb (by decide) rfl hs
  have hlt := s.maxpoll.isLt
  have hcount : failedCount (failed.length + 1) = s.maxpoll := by
    apply BitVec.eq_of_toNat_eq
    rw [failedCount_toNat, hmax]
    omega
  have hbound : s.maxpoll.toNat ≤ min ((failedCount failed.length).toNat + 1) 0xFFFF := by
    rw [failedCount_toNat]
    omega
  have hstop {u : State} (hp : u.phase = .enPoll) (hv : u.rspVal.getLsbD 12 = false) (hm : u.latMaxpoll = s.maxpoll)
      (hn : u.loopcnt = failedCount failed.length) :
      phaseDone u = some (raiseError .calTimeout (setLoopcnt s.maxpoll u)) := by
    rw [phaseDone_enPoll_failed hp hv, failPoll_at_bound (by rw [hm]; omega) (by rwa [hm, hn]), hn,
      bumpLoopcnt_failedCount, hcount]
  refine (hstart.trans (reaches_enter (ready_started _ _ _ s) rfl hfails (.inr (by show _ < s.maxpoll.toNat; omega)) rfl
    (hstop rfl hlast rfl rfl))).of_state_eq ?_
  simp only [raiseError, setLoopcnt, State.driveIrq, atPoll, started, startSequence, acceptWord, answer, withSchedule,
    Bool.true_and, List.append_assoc]
  rfl

/-- Settles O34: the start, and ExitCalibration to completion. -/
theorem calExitCompletes : Obligations.CalExitCompletes := by
  intro s failed last resetWord rest hb hfails hlast hbound hs
  rw [List.append_assoc] at hs
  have hstart := reaches_started (i := .calExit) (entry := .exExit) hb (by decide) rfl hs
  refine (hstart.trans (reaches_exit (ready_started _ _ _ s) rfl hfails hlast hbound rfl)).of_state_eq ?_
  simp only [completeSequence, State.driveIrq, worded, atPoll, started, startSequence, acceptWord, answer, withSchedule,
    cswWord, failedCount, Bool.true_and]
  rfl

/-- What the offset commands send and wait for (42_calseq.md R133). -/
theorem offset_command_cases {op : BitVec 4} {code mask : Half}
    (h : (op = 0xA ∧ code = 0x000A ∧ mask = 0x0800) ∨ (op = 0xB ∧ code = 0x0009 ∧ mask = 0x0C00)) :
    ∃ i, (i, Phase.unseal1) ∈ [(Instr.calEnter, Phase.unseal1), (.calExit, .exExit), (.calCcOffset, .unseal1),
        (.calBoardOffset, .unseal1)] ∧ op = i.op ∧ decode (op.setWidth 32) = .ok i ∧ ofcode op = some code
      ∧ ∀ v, offsetActive op v = some (v &&& mask != 0) := by
  obtain ⟨rfl, rfl, rfl⟩ | ⟨rfl, rfl, rfl⟩ := h
  · exact ⟨.calCcOffset, by decide, rfl, rfl, rfl, fun _ => rfl⟩
  · exact ⟨.calBoardOffset, by decide, rfl, rfl, rfl, fun _ => rfl⟩

/-- Settles O35: the start, EnterCalibration, the set and clear loops, the save step, and ExitCalibration. -/
theorem offsetCommandsComplete : Obligations.OffsetCommandsComplete := by
  intro s op code mask en enLast set setLast clear clearLast saveWord ex exLast resetWord rest hb hcmd hen henLast hset
    hsetLast hclear hclearLast hex hexLast hbound hs
  obtain ⟨i, hi, rfl, hdecode, hcode, hactive⟩ := offset_command_cases hcmd
  have hop : i.op = 0xA ∨ i.op = 0xB := hcmd.imp And.left And.left
  have hidle {v : Half} (hv : v &&& mask = 0) : offsetActive i.op v = some false := by simp [hactive, hv]
  have hbusy {v : Half} (hv : v &&& mask ≠ 0) : offsetActive i.op v = some true := by simpa [hactive] using hv
  simp only [List.append_assoc] at hs
  have henter := (reaches_started hb hi hdecode hs).trans (reaches_enter (ready_started _ _ _ s) rfl hen
    (hbound.imp_right And.left) rfl (phaseDone_enPoll_offset rfl hop henLast))
  have hoffset := henter.trans (reaches_offset ⟨⟨rfl, rfl, rfl⟩, rfl, rfl⟩ rfl hcode (fun r hr => hidle (hset r hr))
    (hbusy hsetLast) (fun v hv => hbusy (hclear v hv)) (hidle hclearLast) (hbound.imp_right fun ⟨_, h, _, _⟩ => h)
    (hbound.imp_right fun ⟨_, _, h, _⟩ => h) rfl)
  have hexit := hoffset.trans (reaches_exit ⟨⟨rfl, rfl, rfl⟩, rfl, rfl⟩ rfl hex hexLast
    (hbound.imp_right fun ⟨_, _, _, h⟩ => h) rfl)
  refine (hexit.of_length_eq (by ring)).of_state_eq ?_
  simp only [completeSequence, State.driveIrq, worded, atPoll, enterLoop, setLoopcnt, goto, started, startSequence,
    acceptWord, answer, withSchedule, cswWord, failedCount, Bool.true_and, List.append_assoc]

end Sys2Proof.Machine
end


section
/-! PROOFS of the family 42_calseq.md, the request counts of R142: those of one iteration, times the iterations of
the runs. -/
namespace Sys2Proof.Machine

/-! ## Counting in repeated lists -/

theorem length_repeated {α : Type} (n : Nat) (l : List α) : (repeated n l).length = n * l.length := by
  simp [repeated]

theorem count_repeated (n : Nat) (l : List Request) (q : Request) : (repeated n l).count q = n * l.count q := by
  simp [repeated, List.count_flatten]

/-! ## The requests of each part of a run -/

/-- In all, and the SLEEP(1000) and SLEEP(150) among them. -/
def countsOf (qs : List Request) : Nat × Nat × Nat := (qs.length, qs.count (.sleep 1000), qs.count (.sleep 150))

theorem countsOf_append (qs qs' : List Request) : countsOf (qs ++ qs') = countsOf qs + countsOf qs' := by
  simp [countsOf]

theorem countsOf_repeated (n : Nat) (qs : List Request) : countsOf (repeated n qs) = n • countsOf qs := by
  simp [countsOf, length_repeated, count_repeated]

theorem countsOf_unseal (k : Word) : countsOf (unsealRequests k) = (2, 0, 0) := by
  simp [countsOf, unsealRequests]

theorem countsOf_subcommand (k : Half) : countsOf (subcommandRequests k) = (3, 0, 0) := by
  simp [countsOf, subcommandRequests]

theorem countsOf_clear : countsOf clearRequests = (4, 1, 0) := by decide

theorem countsOf_commandLoop (k : Half) : countsOf (commandLoopRequests k) = (7, 1, 0) := by
  rw [commandLoopRequests, countsOf_append, countsOf_append, countsOf_subcommand,
    countsOf_subcommand]
  rfl

theorem countsOf_enter : countsOf enterRequests = (10, 1, 0) := by decide

theorem countsOf_settle : countsOf settleRequests = (5, 0, 2) := by decide

/-- The three counts, apart. -/
theorem countsOf_eq_iff {qs : List Request} {a b c : Nat} : countsOf qs = (a, b, c)
    ↔ qs.length = a ∧ qs.count (.sleep 1000) = b ∧ qs.count (.sleep 150) = c := by
  simp [countsOf]

/-- Settles O36: the completing runs of O32, O34 and O35, and the counts of the lists they append. -/
theorem requestCounts : Obligations.RequestCounts := by
  refine ⟨fun s failed last rest hb hfails hlast hbound hs => ?_,
    fun s failed last resetWord rest hb hfails hlast hbound hs => ?_,
    fun s op mask en enLast set setLast clear clearLast saveWord ex exLast resetWord rest hb hcmd hen henLast hset
      hsetLast hclear hclearLast hex hexLast hbound hs => ?_⟩
  · refine ⟨_, unsealRequests s.keys ++ repeated (failed.length + 1) enterRequests,
      calEnterCompletes s failed last rest hb hfails hlast hbound hs, rfl, rfl, rfl, List.append_assoc _ _ _,
      countsOf_eq_iff.1 ?_⟩
    rw [countsOf_append, countsOf_repeated, countsOf_unseal, countsOf_enter]
    simp [Nat.mul_comm]
  · refine ⟨_, repeated (failed.length + 1) (commandLoopRequests 0x0080) ++ settleRequests,
      calExitCompletes s failed last resetWord rest hb hfails hlast hbound hs, rfl, rfl, rfl, List.append_assoc _ _ _,
      countsOf_eq_iff.1 ?_⟩
    rw [countsOf_append, countsOf_repeated, countsOf_commandLoop, countsOf_settle]
    simp [Nat.mul_comm]
  · obtain ⟨code, hcode⟩ : ∃ code : Half, (op = 0xA ∧ code = 0x000A ∧ mask = 0x0800)
        ∨ (op = 0xB ∧ code = 0x0009 ∧ mask = 0x0C00) :=
      hcmd.elim (fun ⟨hop, hmask⟩ => ⟨0x000A, .inl ⟨hop, rfl, hmask⟩⟩) fun ⟨hop, hmask⟩ =>
        ⟨0x0009, .inr ⟨hop, rfl, hmask⟩⟩
    refine ⟨_, unsealRequests s.keys ++ repeated (en.length + 1) enterRequests
        ++ repeated (set.length + 1) (commandLoopRequests code) ++ repeated (clear.length + 1) clearRequests
        ++ subcommandRequests 0x000B ++ repeated (ex.length + 1) (commandLoopRequests 0x0080) ++ settleRequests,
      offsetCommandsComplete s op code mask en enLast set setLast clear clearLast saveWord ex exLast resetWord rest hb
        hcode hen henLast hset hsetLast hclear hclearLast hex hexLast hbound hs, rfl, rfl, rfl,
      by simp only [List.append_assoc], countsOf_eq_iff.1 ?_⟩
    simp only [countsOf_append, countsOf_repeated, countsOf_unseal, countsOf_enter,
      countsOf_commandLoop, countsOf_clear, countsOf_subcommand, countsOf_settle, Prod.smul_mk,
      Prod.mk_add_mk, Prod.mk.injEq, smul_eq_mul]
    omega

end Sys2Proof.Machine
end

section
/-! PROOFS of the family 60_exceptions.md: the illegal word (R166) and the response of the wrong form (R167), each
ending its command with the effects of R171. -/
namespace Sys2Proof.Machine

/-! ## Illegal words (R166) -/

theorem submit_of_decode_error {w : Word} {e : DecodeError} (h : decode w = .error e) (s : State) :
    submit w s = .next (submitIllegal w s) := by rw [submit, h]

/-- An illegal word, accepted, raises ILLEGAL_CMD in the step that accepts it (60_exceptions.md R166). -/
theorem submit_illegal_idle {w : Word} {e : DecodeError} {s : State} (hb : s.busy = false)
    (h : decode w = .error e) : submit w s = .next (raiseError .illegalCmd (acceptWord (opField w) s)) := by
  rw [submit_of_decode_error h, submitIllegal, submitWord_idle hb]

/-- Settles O7: a word with either fault is one the decoder refuses, and its refusal is `raiseError` on acceptance. -/
theorem illegalWordEndsWithIllegalCmd : Obligations.IllegalWordEndsWithIllegalCmd := by
  intro s rest w hb hs hw
  obtain ⟨e, he⟩ := (exists_decode_error_iff w).2 hw
  rw [step_writeWord rfl hs, writeReg_cmd, submit_illegal_idle (s := answer .ok (withSchedule rest s)) hb he,
    raiseError_acceptWord]
  rfl

/-! ## Wrong responses (R167) -/

theorem fits_busError (q : Request) : fits q .busError = false := by cases q <;> rfl

/-- Data is of the wrong form for every request but a READ (10_state.md R41). -/
theorem fits_okData_of_not_read {q : Request} (h : ∀ dev len, q ≠ .read dev len) (b0 b1 : Byte) :
    fits q (.okData b0 b1) = false := by
  cases q with
  | write | sleep => rfl
  | read dev len => exact absurd rfl (h dev len)

section
variable {s : State} {q : Request} {r : Response}

/-- The only READ of a position is that of two bytes at the device's address (42_calseq.md R126, 20_memory.md R51). -/
theorem eq_of_currentRequest_read {dev : BitVec 7} {len : Nat} (h : currentRequest s = some (.read dev len)) :
    Request.read dev len = .read 0x55 2 := by
  have hcontrol : controlOnly (.read dev len) = true := controlOnly_currentRequest h
  simpa [controlOnly] using hcontrol

/-- The responses of R167 are those that do not fit the request of the position. -/
theorem fits_eq_false_of_wrong (hq : currentRequest s = some q)
    (h : r = .busError ∨ (q ≠ .read 0x55 2 ∧ ∃ b0 b1, r = .okData b0 b1) ∨ (q = .read 0x55 2 ∧ r = .ok)) :
    fits q r = false := by
  obtain rfl | ⟨hne, b0, b1, rfl⟩ | ⟨rfl, rfl⟩ := h
  · exact fits_busError q
  · refine fits_okData_of_not_read (fun dev len hread => hne ?_) b0 b1
    rw [hread]
    exact eq_of_currentRequest_read (hread ▸ hq)
  · rfl

theorem environmentTurn_waiting (hb : s.busy = true) (hr : s.reqOut = true) :
    environmentTurn r s = responseStep r s := by simp [environmentTurn, hb, hr]

/-- A response that does not fit its request raises BUS_ERROR, and nothing of it is kept (60_exceptions.md R167). -/
theorem responseStep_of_not_fits (hq : currentRequest s = some q) (hfit : fits q r = false) :
    responseStep r s = .next (raiseError .busError (clearRequest s)) := by
  obtain ⟨f, hf⟩ := exists_frameOf_of_currentRequest hq
  rw [responseStep, hf, hq]
  cases q <;> cases r
  case write.ok | sleep.ok | read.okData => cases hfit
  all_goals rfl

end

/-- Settles O26: a wrong response does not fit the request of the position, so the response step is `raiseError` with
BUS_ERROR. -/
theorem wrongResponseEndsWithBusError : Obligations.WrongResponseEndsWithBusError := by
  intro s rest q r hb hr hq hs hwrong
  have hfit : fits q r = false := fits_eq_false_of_wrong hq hwrong
  rw [step_cons hs, runTurn, environmentTurn_waiting (s := withSchedule rest s) hb hr,
    responseStep_of_not_fits (s := withSchedule rest s) hq hfit]
  rfl

end Sys2Proof.Machine
end

section
/-! PROOFS of the family 70_reset_and_hazards.md: reset (R190, R191) and the idle block (R193), whose steps are those of
the obligations on requests, BUSY and DONE, chained along a run. -/
namespace Sys2Proof.Machine

/-! ## Reset (R190, R191) -/

/-- Settles O44: the reset event is `resetTurn`, and the values are those of `State.reset`. -/
theorem resetValues : Obligations.ResetValues :=
  ⟨fun _ _ hs => step_reset hs, by decide, reset_busy, reset_done, reset_err, reset_ovr, reset_errcode, reset_phase,
    reset_sub, reset_op, reset_opaLo, reset_opaHi, reset_resLo, reset_resHi, reset_maxpoll, reset_ie, reset_csw,
    reset_keys, reset_latKeys, reset_loopcnt, reset_latMaxpoll, reset_rspVal, reset_reqOut, reset_abortPending,
    reset_irq, fun _ => Memory.read_nil _⟩

/-- Settles O46: the reset event gives the invariant from any state, so from that after reset, which it leaves as it
is. -/
theorem resetHasTheInvariant : Obligations.ResetHasTheInvariant := inv_resetTurn State.reset

/-! ## What a Host access and an idle step leave to come -/

section
variable {s t : State}

theorem schedule_of_submitted {w : Word} (h : Submitted w s t) : t.schedule = s.schedule := by
  cases h <;> rfl

theorem schedule_of_written {off : Offset} {v : Word} (h : Written off v s t) : t.schedule = s.schedule := by
  cases h <;> rfl

theorem schedule_of_hostDone {a : HostAccess} (h : HostDone s a t) : t.schedule = s.schedule := by
  cases h with
  | illegal | read | byte => rfl
  | command _ _ _ _ ht => exact schedule_of_submitted (s := answer .ok s) (submitted_of_submit ht)
  | word _ _ _ _ _ ht => exact schedule_of_written (s := answer .ok s) ht

/-- A turn taken while no command runs leaves the turns to come as they are (10_state.md R41, 42_calseq.md R130). -/
theorem schedule_subset_of_idle_step (hb : s.busy = false) (h : step s = .next t) : t.schedule ⊆ s.schedule := by
  obtain ⟨s', hs', hturn⟩ := step_cases h
  have hidle : s'.busy = s.busy ∧ s'.schedule ⊆ s.schedule := by
    obtain rfl | ⟨u, hu, hs'⟩ := hs'
    · exact ⟨rfl, List.Subset.refl _⟩
    · exact ⟨(congrArg State.busy hs').trans (withSchedule_busy _ s), hu ▸ List.subset_cons_self u s'.schedule⟩
  obtain ⟨hbusy, hsub⟩ := hidle
  have hnot : s'.busy ≠ true := by simp [hbusy, hb]
  suffices hkept : t.schedule = s'.schedule from hkept ▸ hsub
  obtain hblock | ⟨r, -, henv⟩ | ⟨a, -, hhost⟩ | ⟨-, rfl⟩ := hturn
  · obtain ⟨-, rfl⟩ | ⟨hrun, -⟩ | ⟨hrun, -⟩ := blockTurn_cases hblock
    · rfl
    all_goals exact absurd hrun hnot
  · obtain ⟨-, rfl⟩ | ⟨hrun, -⟩ := environmentTurn_cases henv
    · rfl
    · exact absurd hrun hnot
  · exact schedule_of_hostDone hhost
  · rfl

/-! ## The idle block (R193) -/

/-- No turn to come submits a command word. -/
def NoWordToCome (s : State) : Prop := ∀ u ∈ s.schedule, ∀ w, u ≠ .host (.write 0x00 4 w)

theorem NoWordToCome.head?_ne (h : NoWordToCome s) (w : Word) :
    s.schedule.head? ≠ some (.host (.write 0x00 4 w)) :=
  fun hd => h _ (List.mem_of_head? hd) w rfl

/-- Only a command word starts a command while none runs (10_state.md R24). -/
theorem idle_step_starts_nothing (hb : s.busy = false) (hw : NoWordToCome s) (h : step s = .next t) :
    t.busy = false := by
  by_contra hrun
  obtain ⟨w, -, hd⟩ := busy_set (stepped_of_step h) hb (Bool.eq_true_of_not_eq_false hrun)
  exact hw.head?_ne w hd

/-- A request is issued only while a command runs (42_calseq.md R130). -/
theorem idle_step_sends_nothing (hb : s.busy = false) (h : step s = .next t) : t.requests = s.requests := by
  obtain ⟨hreq, -⟩ | ⟨q, -, -, hrun, -⟩ := oneRequestAtATimeToControl s t h
  · exact hreq
  · simp [hb] at hrun

/-- DONE is set only by the end of a running command or of a submitted word (10_state.md R25). -/
theorem idle_step_ends_nothing (hb : s.busy = false) (hw : NoWordToCome s) (h : step s = .next t)
    (hdone : t.done = true) : s.done = true := by
  by_contra hnot
  obtain ⟨-, hrun | ⟨w, hd, -⟩⟩ := done_set (stepped_of_step h) (Bool.eq_false_of_not_eq_true hnot) hdone
  · simp [hb] at hrun
  · exact hw.head?_ne w hd

theorem noWordToCome_of_idle_step (hb : s.busy = false) (hw : NoWordToCome s) (h : step s = .next t) :
    NoWordToCome t := fun u hu => hw u (schedule_subset_of_idle_step hb h hu)

end

/-- Settles O50, by induction on the length of the run: its first step leads to an idle state with no word to come. -/
theorem idleBlockSendsNothing : Obligations.IdleBlockSendsNothing := by
  intro k s t hb hw hrun
  induction k generalizing s with
  | zero =>
    obtain rfl := Host.Outcome.next.inj hrun
    exact ⟨hb, rfl, id⟩
  | succ k ih =>
    obtain ⟨u, hstep, hrest⟩ := run_succ_inv hrun
    obtain ⟨hbusy, hreq, hdone⟩ :=
      ih u (idle_step_starts_nothing hb hw hstep) (noWordToCome_of_idle_step hb hw hstep) hrest
    exact ⟨hbusy, hreq.trans (idle_step_sends_nothing hb hstep),
      fun hend => idle_step_ends_nothing hb hw hstep (hdone hend)⟩

end Sys2Proof.Machine
end
